-- ==== Sys2Proof/Word.lean ====
section
/-! DEFINITION. The plain types of the rust86 core: bytes, words, operating widths, register names and the
operand forms a ModR/M byte can select. Rule numbers R<n> are the rules of spec/. -/

namespace Sys2Proof

/-- An 8-bit unsigned value (R5 `BYTE_BITS`, R6). -/
abbrev Byte := BitVec 8

/-- A 16-bit unsigned value (R5 `WORD_BITS`, R6). -/
abbrev Word := BitVec 16

/-- The operating width of an operand access, 8 or 16 bits (R58). -/
inductive Width where
  | w8
  | w16
  deriving DecidableEq, Repr

/-- The number of bits of a width (R58). -/
abbrev Width.bits : Width → Nat
  | .w8 => 8
  | .w16 => 16

/-- The eight 16-bit registers, in the order of their numbers 0..7 (R22).
UNVERIFIED: names and numbers are the spec's decision D2 (log 12). -/
inductive Reg16 where
  | ax | cx | dx | bx | sp | bp | si | di
  deriving DecidableEq, Repr

/-- The eight 8-bit registers, in the order of their numbers 0..7 (R24). They have no storage of their own (R23).
UNVERIFIED: names and numbers are the spec's decision D2 (log 12). -/
inductive Reg8 where
  | al | cl | dl | bl | ah | ch | dh | bh
  deriving DecidableEq, Repr

/-- The base formulas a ModR/M `rm` field selects, in the order of `rm` = 0..7 for mod = 01 and 10 (R85).
UNVERIFIED: the table is the spec's decision D7 (log 17). -/
inductive BaseForm where
  | bxSi | bxDi | bpSi | bpDi | si | di | bp | bx
  deriving DecidableEq, Repr

/-- The effective operand as the ModR/M byte and its displacement spell it (R84, R85, R86); `ρ` is the register
file that the operating width selects (R83). `base .bp` has no encoding: mod = 00 with rm = 110 is the direct form. -/
inductive RM (ρ : Type) where
  /-- mod = 11: the register that `rm` names -/
  | reg (r : ρ)
  /-- mod = 00, rm other than 110: a base formula alone -/
  | base (b : BaseForm)
  /-- mod = 00, rm = 110: the 16-bit displacement is the address -/
  | direct (a : Word)
  /-- mod = 01: a base formula and a sign-extended byte -/
  | disp8 (b : BaseForm) (d : Byte)
  /-- mod = 10: a base formula and a word -/
  | disp16 (b : BaseForm) (d : Word)
  deriving DecidableEq, Repr

end Sys2Proof
end

