-- ==== Sys2Proof/Config.lean ====
section
/-! DEFINITION. What an implementation of the rust86 core fixes: the parameters of R5 with their defaults. The spec
leaves no result undefined after an instruction, so the model has no free value. -/

namespace Sys2Proof

/-- The names of the 55 rows of spec/opcode_table.json, in the table's order (R112). `IMPLEMENTED` is a set of these. -/
inductive Row where
  | addEbGb | addEvGv | addGbEb | addGvEv | addAlIb | addAxIv | subEbGb | subEvGv
  | subGbEb | subGvEv | subAlIb | subAxIv | cmpEbGb | cmpEvGv | cmpGbEb | cmpGvEv
  | cmpAlIb | cmpAxIv | incR16 | decR16 | pushR16 | popR16 | joRel8 | jnoRel8
  | jbRel8 | jnbRel8 | jzRel8 | jnzRel8 | jbeRel8 | jaRel8 | jsRel8 | jnsRel8
  | addEbIb | subEbIb | cmpEbIb | addEvIv | subEvIv | cmpEvIv | xchgEbGb | xchgEvGv
  | movEbGb | movEvGv | movGbEb | movGvEv | nop | xchgAxR16 | movR8Ib | movR16Iv
  | movEbIb | movEvIv | ret | callRel16 | jmpRel16 | jmpRel8 | hlt
  deriving DecidableEq, Repr

/-- The two settings of `PUSH_SP_VALUE` (R5, R202, D16). -/
inductive PushSpValue where
  | old
  | new
  deriving DecidableEq, Repr

/-- The parameters of R5 as plain data. The two sets a model may narrow are held as what is taken out, so that every
value of these fields is a narrowing and none a widening (R5, D9). DESIGN CHOICE, safe (log 4). -/
structure Config where
  /-- `TOP_WRAP`: an access or fetch past 0xFFFF wraps instead of raising AddressRange (R54, R56, D6) -/
  topWrap : Bool
  /-- the (mod, rm) pairs for which `MODRM_SUPPORTED` is false (R88, D7) -/
  modrmExcluded : List (BitVec 2 × BitVec 3)
  /-- the rows taken out of `IMPLEMENTED` (R98, R112, D9) -/
  rowsExcluded : List Row
  /-- `HALT_OPCODE` (R240, D10) -/
  haltOpcode : Byte
  /-- `PUSH_SP_VALUE` (R202, D16) -/
  pushSpValue : PushSpValue
  deriving DecidableEq, Repr

/-- The defaults of R5. -/
def Config.standard : Config where
  topWrap := false
  modrmExcluded := []
  rowsExcluded := []
  haltOpcode := 0xF4#8
  pushSpValue := .old

/-- `MEM_BYTES` = 2 ^ `ADDR_BITS`, with `ADDR_BITS` = 16 (R5, R51). UNVERIFIED: the spec's decision D3 (log 13). -/
abbrev Config.memBytes : Nat := 65536

end Sys2Proof
end

