-- ==== Sys2Proof/Syntax.lean ====
section
/-! DEFINITION. The instructions of the rust86 core as syntax: one constructor per row of spec/opcode_table.json, in
the table's order. Each docstring names the row's source mnemonic and the rule that gives its meaning. -/

namespace Sys2Proof

/-- One instruction of the admitted set (R112). `e` is the effective operand, `g` the register operand of the `reg`
field, `r` a register numbered by the opcode, `imm` an immediate, `d` a relative displacement. -/
inductive Instr where
  /-- ADD Eb, Gb (R171) -/
  | addEbGb (e : RM Reg8) (g : Reg8)
  /-- ADD Ev, Gv (R172) -/
  | addEvGv (e : RM Reg16) (g : Reg16)
  /-- ADD Gb, Eb (R173) -/
  | addGbEb (e : RM Reg8) (g : Reg8)
  /-- ADD Gv, Ev (R174) -/
  | addGvEv (e : RM Reg16) (g : Reg16)
  /-- ADD AL, Ib (R175) -/
  | addAlIb (imm : Byte)
  /-- ADD AX, Iv (R176) -/
  | addAxIv (imm : Word)
  /-- SUB Eb, Gb (R179) -/
  | subEbGb (e : RM Reg8) (g : Reg8)
  /-- SUB Ev, Gv (R180) -/
  | subEvGv (e : RM Reg16) (g : Reg16)
  /-- SUB Gb, Eb (R181) -/
  | subGbEb (e : RM Reg8) (g : Reg8)
  /-- SUB Gv, Ev (R182) -/
  | subGvEv (e : RM Reg16) (g : Reg16)
  /-- SUB AL, Ib (R183) -/
  | subAlIb (imm : Byte)
  /-- SUB AX, Iv (R184) -/
  | subAxIv (imm : Word)
  /-- CMP Eb, Gb (R187) -/
  | cmpEbGb (e : RM Reg8) (g : Reg8)
  /-- CMP Ev, Gv (R188) -/
  | cmpEvGv (e : RM Reg16) (g : Reg16)
  /-- CMP Gb, Eb (R189) -/
  | cmpGbEb (e : RM Reg8) (g : Reg8)
  /-- CMP Gv, Ev (R190) -/
  | cmpGvEv (e : RM Reg16) (g : Reg16)
  /-- CMP AL, Ib (R191) -/
  | cmpAlIb (imm : Byte)
  /-- CMP AX, Iv (R192) -/
  | cmpAxIv (imm : Word)
  /-- INC r16 (R195) -/
  | incR16 (r : Reg16)
  /-- DEC r16 (R196) -/
  | decR16 (r : Reg16)
  /-- PUSH r16 (R202) -/
  | pushR16 (r : Reg16)
  /-- POP r16 (R203) -/
  | popR16 (r : Reg16)
  /-- JO rel8 (R216) -/
  | joRel8 (d : Byte)
  /-- JNO rel8 (R217) -/
  | jnoRel8 (d : Byte)
  /-- JB rel8 (R218) -/
  | jbRel8 (d : Byte)
  /-- JNB rel8 (R219) -/
  | jnbRel8 (d : Byte)
  /-- JZ rel8 (R220) -/
  | jzRel8 (d : Byte)
  /-- JNZ rel8 (R221) -/
  | jnzRel8 (d : Byte)
  /-- JBE rel8 (R222) -/
  | jbeRel8 (d : Byte)
  /-- JA rel8 (R223) -/
  | jaRel8 (d : Byte)
  /-- JS rel8 (R224) -/
  | jsRel8 (d : Byte)
  /-- JNS rel8 (R225) -/
  | jnsRel8 (d : Byte)
  /-- ADD Eb, Ib (R177) -/
  | addEbIb (e : RM Reg8) (imm : Byte)
  /-- SUB Eb, Ib (R185) -/
  | subEbIb (e : RM Reg8) (imm : Byte)
  /-- CMP Eb, Ib (R193) -/
  | cmpEbIb (e : RM Reg8) (imm : Byte)
  /-- ADD Ev, Iv (R178) -/
  | addEvIv (e : RM Reg16) (imm : Word)
  /-- SUB Ev, Iv (R186) -/
  | subEvIv (e : RM Reg16) (imm : Word)
  /-- CMP Ev, Iv (R194) -/
  | cmpEvIv (e : RM Reg16) (imm : Word)
  /-- XCHG Eb, Gb (R230) -/
  | xchgEbGb (e : RM Reg8) (g : Reg8)
  /-- XCHG Ev, Gv (R231) -/
  | xchgEvGv (e : RM Reg16) (g : Reg16)
  /-- MOV Eb, Gb (R151) -/
  | movEbGb (e : RM Reg8) (g : Reg8)
  /-- MOV Ev, Gv (R152) -/
  | movEvGv (e : RM Reg16) (g : Reg16)
  /-- MOV Gb, Eb (R153) -/
  | movGbEb (e : RM Reg8) (g : Reg8)
  /-- MOV Gv, Ev (R154) -/
  | movGvEv (e : RM Reg16) (g : Reg16)
  /-- NOP (R233) -/
  | nop
  /-- XCHG AX, r16 (R232) -/
  | xchgAxR16 (r : Reg16)
  /-- MOV r8, Ib (R155) -/
  | movR8Ib (r : Reg8) (imm : Byte)
  /-- MOV r16, Iv (R156) -/
  | movR16Iv (r : Reg16) (imm : Word)
  /-- MOV Eb, Ib (R157) -/
  | movEbIb (e : RM Reg8) (imm : Byte)
  /-- MOV Ev, Iv (R158) -/
  | movEvIv (e : RM Reg16) (imm : Word)
  /-- RET (R214) -/
  | ret
  /-- CALL rel16 (R213) -/
  | callRel16 (d : Word)
  /-- JMP rel16 (R212) -/
  | jmpRel16 (d : Word)
  /-- JMP rel8 (R211) -/
  | jmpRel8 (d : Byte)
  /-- HLT (R240) -/
  | hlt
  deriving DecidableEq, Repr

end Sys2Proof
end

