-- ==== Sys2Proof/WellFormed.lean ====
section
/-! DEFINITION. Which terms of the syntax have an encoding at all, whatever the parameters: the two shapes the type
`Instr` can write and the instruction formats cannot. -/

namespace Sys2Proof

/-- mod = 00 with rm = 110 is direct addressing, so BP alone is no base form of mod = 00 (R85). -/
def RM.wf {ρ : Type} : RM ρ → Bool
  | .base .bp => false
  | .base _ => true
  | .reg _ => true
  | .direct _ => true
  | .disp8 _ _ => true
  | .disp16 _ _ => true

/-- The instruction has an encoding: its effective operand has one (R85), and XCHG AX, r16 names a register other than
AX, whose encoding is NOP's (R232). -/
def Instr.wf : Instr → Bool
  | .addEbGb e _ => e.wf
  | .addEvGv e _ => e.wf
  | .addGbEb e _ => e.wf
  | .addGvEv e _ => e.wf
  | .addAlIb _ => true
  | .addAxIv _ => true
  | .subEbGb e _ => e.wf
  | .subEvGv e _ => e.wf
  | .subGbEb e _ => e.wf
  | .subGvEv e _ => e.wf
  | .subAlIb _ => true
  | .subAxIv _ => true
  | .cmpEbGb e _ => e.wf
  | .cmpEvGv e _ => e.wf
  | .cmpGbEb e _ => e.wf
  | .cmpGvEv e _ => e.wf
  | .cmpAlIb _ => true
  | .cmpAxIv _ => true
  | .incR16 _ => true
  | .decR16 _ => true
  | .pushR16 _ => true
  | .popR16 _ => true
  | .joRel8 _ => true
  | .jnoRel8 _ => true
  | .jbRel8 _ => true
  | .jnbRel8 _ => true
  | .jzRel8 _ => true
  | .jnzRel8 _ => true
  | .jbeRel8 _ => true
  | .jaRel8 _ => true
  | .jsRel8 _ => true
  | .jnsRel8 _ => true
  | .addEbIb e _ => e.wf
  | .subEbIb e _ => e.wf
  | .cmpEbIb e _ => e.wf
  | .addEvIv e _ => e.wf
  | .subEvIv e _ => e.wf
  | .cmpEvIv e _ => e.wf
  | .xchgEbGb e _ => e.wf
  | .xchgEvGv e _ => e.wf
  | .movEbGb e _ => e.wf
  | .movEvGv e _ => e.wf
  | .movGbEb e _ => e.wf
  | .movGvEv e _ => e.wf
  | .nop => true
  | .xchgAxR16 r => decide (r ≠ .ax)
  | .movR8Ib _ _ => true
  | .movR16Iv _ _ => true
  | .movEbIb e _ => e.wf
  | .movEvIv e _ => e.wf
  | .ret => true
  | .callRel16 _ => true
  | .jmpRel16 _ => true
  | .jmpRel8 _ => true
  | .hlt => true

end Sys2Proof
end

