-- ==== Sys2Proof/Decode.lean ====
section
/-! DEFINITION. The opcode dispatcher and the ModR/M addressing-mode decoder: total on any stream of bytes, rejecting by
name, and the encoder written from the same tables (30_encoding.md). The decoder is written once over an abstract byte
stream; the machine runs it on its own code cursor (Machine/Ops.lean), the tests and the encoder's laws on lists. -/

namespace Sys2Proof

/-! ## Bit fields and byte order -/

/-- The word with high byte `hi` and low byte `lo` (R41, R57). -/
def joinBytes (hi lo : Byte) : Word := hi ++ lo

/-- Bits 7..0 (R41). -/
def lowByte (w : Word) : Byte := w.extractLsb' 0 8

/-- Bits 15..8 (R41). -/
def highByte (w : Word) : Byte := w.extractLsb' 8 8

/-- A word in the code stream, low byte first (R57). UNVERIFIED: the spec's decision D4 (log 14). -/
def wordBytes (w : Word) : List Byte := [lowByte w, highByte w]

/-- Sign extension of a byte to 16 bits (R7, R86, R210). -/
def sextByte (d : Byte) : Word := d.signExtend 16

/-- The ModR/M field in bits 7..6 (R81). -/
def modField (m : Byte) : BitVec 2 := m.extractLsb' 6 2

/-- The ModR/M field in bits 5..3 (R81). -/
def regField (m : Byte) : BitVec 3 := m.extractLsb' 3 3

/-- The ModR/M field in bits 2..0, and the register number inside an opcode (R81, R106). -/
def lowField (m : Byte) : BitVec 3 := m.extractLsb' 0 3

/-- The ModR/M byte with the given fields (R81). -/
def modrmByte (mod : BitVec 2) (reg rm : BitVec 3) : Byte := mod ++ reg ++ rm

/-- An opcode whose low three bits number a register (R106). -/
def opcodeWith (top : BitVec 5) (r : BitVec 3) : Byte := top ++ r

/-! ## Register and formula numbers -/

/-- R22. UNVERIFIED: D2 (log 12). -/
def Reg16.num : Reg16 → BitVec 3
  | .ax => 0 | .cx => 1 | .dx => 2 | .bx => 3 | .sp => 4 | .bp => 5 | .si => 6 | .di => 7

/-- R22, read the other way. -/
def Reg16.ofNum (n : BitVec 3) : Reg16 :=
  match n.toNat with
  | 0 => .ax | 1 => .cx | 2 => .dx | 3 => .bx | 4 => .sp | 5 => .bp | 6 => .si | _ => .di

/-- R24. UNVERIFIED: D2 (log 12). -/
def Reg8.num : Reg8 → BitVec 3
  | .al => 0 | .cl => 1 | .dl => 2 | .bl => 3 | .ah => 4 | .ch => 5 | .dh => 6 | .bh => 7

/-- R24, read the other way. -/
def Reg8.ofNum (n : BitVec 3) : Reg8 :=
  match n.toNat with
  | 0 => .al | 1 => .cl | 2 => .dl | 3 => .bl | 4 => .ah | 5 => .ch | 6 => .dh | _ => .bh

/-- The `rm` value of a base formula (R85, columns mod = 01 and 10). UNVERIFIED: D7 (log 17). -/
def BaseForm.num : BaseForm → BitVec 3
  | .bxSi => 0 | .bxDi => 1 | .bpSi => 2 | .bpDi => 3 | .si => 4 | .di => 5 | .bp => 6 | .bx => 7

/-- R85, read the other way. -/
def BaseForm.ofNum (n : BitVec 3) : BaseForm :=
  match n.toNat with
  | 0 => .bxSi | 1 => .bxDi | 2 => .bpSi | 3 => .bpDi | 4 => .si | 5 => .di | 6 => .bp | _ => .bx

/-- The 16-bit register numbered by an opcode's low bits (R106). -/
def reg16At (op : Byte) : Reg16 := .ofNum (lowField op)

/-- The 8-bit register numbered by an opcode's low bits (R106, MOV r8). -/
def reg8At (op : Byte) : Reg8 := .ofNum (lowField op)

/-! ## The category map (R97) -/

/-- The operand-shape categories (R97). -/
inductive Category where
  | noOperand | imm8 | imm16 | modrm8 | modrm16 | group | special
  deriving DecidableEq, Repr

namespace CategoryMap

abbrev o : Option Category := none
abbrev n : Option Category := some .noOperand
abbrev i8 : Option Category := some .imm8
abbrev i16 : Option Category := some .imm16
abbrev m8 : Option Category := some .modrm8
abbrev m16 : Option Category := some .modrm16
abbrev g : Option Category := some .group

/-- R97, high digit 0 -/
def row0 : List (Option Category) := [m8, m16, m8, m16, i8, i16, o, o, o, o, o, o, o, o, o, o]
/-- R97, high digit 1 -/
def row1 : List (Option Category) := List.replicate 16 o
/-- R97, high digit 2 -/
def row2 : List (Option Category) := [o, o, o, o, o, o, o, o, m8, m16, m8, m16, i8, i16, o, o]
/-- R97, high digit 3 -/
def row3 : List (Option Category) := [o, o, o, o, o, o, o, o, m8, m16, m8, m16, i8, i16, o, o]
/-- R97, high digit 4 -/
def row4 : List (Option Category) := List.replicate 16 n
/-- R97, high digit 5 -/
def row5 : List (Option Category) := List.replicate 16 n
/-- R97, high digit 6 -/
def row6 : List (Option Category) := List.replicate 16 o
/-- R97, high digit 7 -/
def row7 : List (Option Category) := [i8, i8, i8, i8, i8, i8, i8, i8, i8, i8, o, o, o, o, o, o]
/-- R97, high digit 8 -/
def row8 : List (Option Category) := [g, g, o, o, o, o, m8, m16, m8, m16, m8, m16, o, o, o, o]
/-- R97, high digit 9 -/
def row9 : List (Option Category) := [n, n, n, n, n, n, n, n, o, o, o, o, o, o, o, o]
/-- R97, high digit A -/
def rowA : List (Option Category) := List.replicate 16 o
/-- R97, high digit B -/
def rowB : List (Option Category) := [i8, i8, i8, i8, i8, i8, i8, i8, i16, i16, i16, i16, i16, i16, i16, i16]
/-- R97, high digit C -/
def rowC : List (Option Category) := [o, o, o, n, o, o, g, g, o, o, o, o, o, o, o, o]
/-- R97, high digit D -/
def rowD : List (Option Category) := List.replicate 16 o
/-- R97, high digit E -/
def rowE : List (Option Category) := [o, o, o, o, o, o, o, o, i16, i16, o, i8, o, o, o, o]
/-- R97, high digit F -/
def rowF : List (Option Category) := List.replicate 16 o

/-- The map of R97, one list per high hex digit. `o` is the map's `·`; the cell F4 is `HALT_OPCODE`'s default and is
added by `categoryAt`. UNVERIFIED: which bytes are implemented is the spec's decision D9 (log 19). -/
def rows : List (List (Option Category)) :=
  [row0, row1, row2, row3, row4, row5, row6, row7] ++ [row8, row9, rowA, rowB, rowC, rowD, rowE, rowF]

end CategoryMap

/-- The category R97's map gives a byte, the halt byte apart. -/
def mappedCategory (op : Byte) : Option Category :=
  ((CategoryMap.rows.getD (op.extractLsb' 4 4).toNat []).getD (op.extractLsb' 0 4).toNat none)

/-- R97 with `HALT_OPCODE` (R240): the designated byte is SPECIAL. A byte another row claims keeps that row,
in or out of `IMPLEMENTED` (DESIGN CHOICE, unsafe, log 5: R97 allows no overlapping claim). -/
def categoryAt (c : Config) (op : Byte) : Option Category :=
  match mappedCategory op with
  | some k => some k
  | none => if op = c.haltOpcode then some .special else none

/-! ## The handler table (opcode_table.json) -/

/-- One row of the opcode table: the bytes `lo..hi` it claims and, for a GROUP row, the `reg` value it claims. -/
structure OpRow where
  row : Row
  category : Category
  lo : Byte
  hi : Byte
  sub : Option (BitVec 3)
  deriving DecidableEq, Repr

/-- The row claims the opcode byte. -/
def OpRow.covers (r : OpRow) (op : Byte) : Bool :=
  decide (r.lo.toNat ≤ op.toNat) && decide (op.toNat ≤ r.hi.toNat)

/-- The rows of ADD (R171-R178). -/
def addRows : List OpRow :=
  [ ⟨.addEbGb, .modrm8, 0x00#8, 0x00#8, none⟩,
    ⟨.addEvGv, .modrm16, 0x01#8, 0x01#8, none⟩,
    ⟨.addGbEb, .modrm8, 0x02#8, 0x02#8, none⟩,
    ⟨.addGvEv, .modrm16, 0x03#8, 0x03#8, none⟩,
    ⟨.addAlIb, .imm8, 0x04#8, 0x04#8, none⟩,
    ⟨.addAxIv, .imm16, 0x05#8, 0x05#8, none⟩,
    ⟨.addEbIb, .group, 0x80#8, 0x80#8, some 0#3⟩,
    ⟨.addEvIv, .group, 0x81#8, 0x81#8, some 0#3⟩ ]

/-- The rows of SUB (R179-R186). -/
def subRows : List OpRow :=
  [ ⟨.subEbGb, .modrm8, 0x28#8, 0x28#8, none⟩,
    ⟨.subEvGv, .modrm16, 0x29#8, 0x29#8, none⟩,
    ⟨.subGbEb, .modrm8, 0x2A#8, 0x2A#8, none⟩,
    ⟨.subGvEv, .modrm16, 0x2B#8, 0x2B#8, none⟩,
    ⟨.subAlIb, .imm8, 0x2C#8, 0x2C#8, none⟩,
    ⟨.subAxIv, .imm16, 0x2D#8, 0x2D#8, none⟩,
    ⟨.subEbIb, .group, 0x80#8, 0x80#8, some 5#3⟩,
    ⟨.subEvIv, .group, 0x81#8, 0x81#8, some 5#3⟩ ]

/-- The rows of CMP (R187-R194). -/
def cmpRows : List OpRow :=
  [ ⟨.cmpEbGb, .modrm8, 0x38#8, 0x38#8, none⟩,
    ⟨.cmpEvGv, .modrm16, 0x39#8, 0x39#8, none⟩,
    ⟨.cmpGbEb, .modrm8, 0x3A#8, 0x3A#8, none⟩,
    ⟨.cmpGvEv, .modrm16, 0x3B#8, 0x3B#8, none⟩,
    ⟨.cmpAlIb, .imm8, 0x3C#8, 0x3C#8, none⟩,
    ⟨.cmpAxIv, .imm16, 0x3D#8, 0x3D#8, none⟩,
    ⟨.cmpEbIb, .group, 0x80#8, 0x80#8, some 7#3⟩,
    ⟨.cmpEvIv, .group, 0x81#8, 0x81#8, some 7#3⟩ ]

/-- The rows of INC and DEC (R195, R196). -/
def stepRows : List OpRow :=
  [ ⟨.incR16, .noOperand, 0x40#8, 0x47#8, none⟩,
    ⟨.decR16, .noOperand, 0x48#8, 0x4F#8, none⟩ ]

/-- The rows of MOV (R151-R158). -/
def moveRows : List OpRow :=
  [ ⟨.movEbGb, .modrm8, 0x88#8, 0x88#8, none⟩,
    ⟨.movEvGv, .modrm16, 0x89#8, 0x89#8, none⟩,
    ⟨.movGbEb, .modrm8, 0x8A#8, 0x8A#8, none⟩,
    ⟨.movGvEv, .modrm16, 0x8B#8, 0x8B#8, none⟩,
    ⟨.movR8Ib, .imm8, 0xB0#8, 0xB7#8, none⟩,
    ⟨.movR16Iv, .imm16, 0xB8#8, 0xBF#8, none⟩,
    ⟨.movEbIb, .group, 0xC6#8, 0xC6#8, some 0#3⟩,
    ⟨.movEvIv, .group, 0xC7#8, 0xC7#8, some 0#3⟩ ]

/-- The rows of PUSH and POP (R202, R203). -/
def stackRows : List OpRow :=
  [ ⟨.pushR16, .noOperand, 0x50#8, 0x57#8, none⟩,
    ⟨.popR16, .noOperand, 0x58#8, 0x5F#8, none⟩ ]

/-- The rows of jumps, CALL and RET (R211-R225). -/
def jumpRows : List OpRow :=
  [ ⟨.joRel8, .imm8, 0x70#8, 0x70#8, none⟩,
    ⟨.jnoRel8, .imm8, 0x71#8, 0x71#8, none⟩,
    ⟨.jbRel8, .imm8, 0x72#8, 0x72#8, none⟩,
    ⟨.jnbRel8, .imm8, 0x73#8, 0x73#8, none⟩,
    ⟨.jzRel8, .imm8, 0x74#8, 0x74#8, none⟩,
    ⟨.jnzRel8, .imm8, 0x75#8, 0x75#8, none⟩,
    ⟨.jbeRel8, .imm8, 0x76#8, 0x76#8, none⟩,
    ⟨.jaRel8, .imm8, 0x77#8, 0x77#8, none⟩,
    ⟨.jsRel8, .imm8, 0x78#8, 0x78#8, none⟩,
    ⟨.jnsRel8, .imm8, 0x79#8, 0x79#8, none⟩,
    ⟨.ret, .noOperand, 0xC3#8, 0xC3#8, none⟩,
    ⟨.callRel16, .imm16, 0xE8#8, 0xE8#8, none⟩,
    ⟨.jmpRel16, .imm16, 0xE9#8, 0xE9#8, none⟩,
    ⟨.jmpRel8, .imm8, 0xEB#8, 0xEB#8, none⟩ ]

/-- The rows of XCHG and NOP (R230-R233); 0x90 is NOP, not XCHG AX, AX (R109, R232). -/
def exchangeRows : List OpRow :=
  [ ⟨.xchgEbGb, .modrm8, 0x86#8, 0x86#8, none⟩,
    ⟨.xchgEvGv, .modrm16, 0x87#8, 0x87#8, none⟩,
    ⟨.nop, .noOperand, 0x90#8, 0x90#8, none⟩,
    ⟨.xchgAxR16, .noOperand, 0x91#8, 0x97#8, none⟩ ]

/-- The 54 rows whose opcode bytes are fixed: all of opcode_table.json but HLT, whose byte is `HALT_OPCODE`.
UNVERIFIED: the byte values are the 8086 map, the spec's decisions D9 and D11 (logs 19, 21). -/
def opTable : List OpRow :=
  addRows ++ subRows ++ cmpRows ++ stepRows ++ moveRows ++ stackRows ++ jumpRows ++ exchangeRows

/-- The fixed rows that claim a byte. -/
def fixedRowsAt (op : Byte) : List OpRow := opTable.filter (·.covers op)

/-- The rows that claim a byte: the fixed ones, or HLT on the designated byte if no fixed row claims it (R240).
DESIGN CHOICE, unsafe (log 5): a fixed row keeps a `HALT_OPCODE` equal to its byte, and keeps it too when it is itself
taken out of `IMPLEMENTED`; HLT then has no byte, and that byte is UnknownOpcode if all its fixed rows are taken out.
UNVERIFIED: the default F4 is the spec's decision D10 (log 20). -/
def rowsAt (c : Config) (op : Byte) : List OpRow :=
  match fixedRowsAt op with
  | [] => if op = c.haltOpcode then [⟨.hlt, .special, op, op, none⟩] else []
  | r :: rs => r :: rs

/-- The row is in `IMPLEMENTED` (R5). -/
def Config.implements (c : Config) (r : Row) : Bool := decide (r ∉ c.rowsExcluded)

/-- `Implemented(op)`: some row of `IMPLEMENTED` has the opcode byte (R98). -/
def implemented (c : Config) (op : Byte) : Bool := (rowsAt c op).any fun r => c.implements r.row

/-- `HANDLER(cat, op)` of R95: an implemented row of that category for the byte. -/
def handlerAt (c : Config) (cat : Category) (op : Byte) : Option OpRow :=
  (rowsAt c op).find? fun r => decide (r.category = cat) && c.implements r.row

/-- The implemented GROUP row with that `reg` value (R101). -/
def groupRowAt (c : Config) (op : Byte) (sub : BitVec 3) : Option OpRow :=
  (rowsAt c op).find? fun r => decide (r.sub = some sub) && c.implements r.row

/-- `MODRM_SUPPORTED(mod, rm)` (R5, R88). -/
def Config.modrmSupported (c : Config) (mod : BitVec 2) (rm : BitVec 3) : Bool :=
  decide ((mod, rm) ∉ c.modrmExcluded)

/-! ## Decoding -/

/-- Why a stream of bytes is no instruction. The machine turns each into a fatal outcome (R252, R56). -/
inductive Reject where
  /-- the stream has no opcode byte -/
  | noOpcodeByte
  /-- the stream ends inside the instruction -/
  | noOperandByte
  /-- R98 -/
  | unknownOpcode (opcode : Byte)
  /-- R99; unreachable under the tables above (R254) -/
  | miscategorized (opcode : Byte) (category : Category)
  /-- R101 -/
  | groupSubop (opcode : Byte) (sub : BitVec 3)
  /-- R88 -/
  | addressingMode (opcode : Byte) (modrm : Byte)
  deriving DecidableEq, Repr

/-- A byte stream: the next byte and the stream after it, or none where the stream cannot advance. -/
abbrev Stream (σ : Type) := σ → Option (Byte × σ)

/-- A decoder over the streams `σ`: it moves the stream and may reject. -/
abbrev Decoder (σ α : Type) := EStateM Reject σ α

/-- One byte of the stream, or the given rejection with the stream where it was (R56). -/
def takeByte {σ : Type} (next : Stream σ) (end_ : Reject) : Decoder σ Byte := fun s =>
  match next s with
  | some (b, s') => .ok b s'
  | none => .error end_ s

/-- An operand byte (R56 `FetchByte`). -/
def operandByte {σ : Type} (next : Stream σ) : Decoder σ Byte := takeByte next .noOperandByte

/-- An operand word, low byte first (R56 `FetchWord`, R57). UNVERIFIED: the spec's decision D4 (log 14). -/
def operandWord {σ : Type} (next : Stream σ) : Decoder σ Word := do
  let lo ← operandByte next
  let hi ← operandByte next
  return joinBytes hi lo

/-- The effective operand of `mod` and `rm`, fetching its displacement (R84, R85, R86).
UNVERIFIED: the formulas and displacements are the spec's decisions D7 and D8 (logs 17, 18). -/
def effectiveOperand {σ ρ : Type} (next : Stream σ) (regOf : BitVec 3 → ρ) (mod : BitVec 2) (rm : BitVec 3) :
    Decoder σ (RM ρ) :=
  match mod.toNat with
  | 0 => if rm = 0b110#3 then return .direct (← operandWord next) else return .base (.ofNum rm)
  | 1 => return .disp8 (.ofNum rm) (← operandByte next)
  | 2 => return .disp16 (.ofNum rm) (← operandWord next)
  | _ => return .reg (regOf rm)

/-- `DecodeModRM(op, w)`: the effective operand and the raw `reg` field (R82, R88, R89). `regOf` is the register naming
of the width (R83). -/
def decodeModrm {σ ρ : Type} (next : Stream σ) (regOf : BitVec 3 → ρ) (c : Config) (op : Byte) :
    Decoder σ (RM ρ × BitVec 3) := do
  let m ← operandByte next
  if c.modrmSupported (modField m) (lowField m) then
    let e ← effectiveOperand next regOf (modField m) (lowField m)
    return (e, regField m)
  else
    throw (.addressingMode op m)

/-- The NONE and SPECIAL rows' instructions (R100). -/
def withNoOperand (op : Byte) : Row → Option Instr
  | .incR16 => some (.incR16 (reg16At op))
  | .decR16 => some (.decR16 (reg16At op))
  | .pushR16 => some (.pushR16 (reg16At op))
  | .popR16 => some (.popR16 (reg16At op))
  | .nop => some .nop
  | .xchgAxR16 => some (.xchgAxR16 (reg16At op))
  | .ret => some .ret
  | .hlt => some .hlt
  | _ => none

/-- The IMM8 rows' instructions (R100, R106). -/
def withImm8 (op : Byte) (v : Byte) : Row → Option Instr
  | .addAlIb => some (.addAlIb v)
  | .subAlIb => some (.subAlIb v)
  | .cmpAlIb => some (.cmpAlIb v)
  | .joRel8 => some (.joRel8 v)
  | .jnoRel8 => some (.jnoRel8 v)
  | .jbRel8 => some (.jbRel8 v)
  | .jnbRel8 => some (.jnbRel8 v)
  | .jzRel8 => some (.jzRel8 v)
  | .jnzRel8 => some (.jnzRel8 v)
  | .jbeRel8 => some (.jbeRel8 v)
  | .jaRel8 => some (.jaRel8 v)
  | .jsRel8 => some (.jsRel8 v)
  | .jnsRel8 => some (.jnsRel8 v)
  | .movR8Ib => some (.movR8Ib (reg8At op) v)
  | .jmpRel8 => some (.jmpRel8 v)
  | _ => none

/-- The IMM16 rows' instructions (R100, R106). -/
def withImm16 (op : Byte) (v : Word) : Row → Option Instr
  | .addAxIv => some (.addAxIv v)
  | .subAxIv => some (.subAxIv v)
  | .cmpAxIv => some (.cmpAxIv v)
  | .movR16Iv => some (.movR16Iv (reg16At op) v)
  | .callRel16 => some (.callRel16 v)
  | .jmpRel16 => some (.jmpRel16 v)
  | _ => none

/-- The MODRM8 rows' instructions (R100). -/
def withModrm8 (e : RM Reg8) (g : Reg8) : Row → Option Instr
  | .addEbGb => some (.addEbGb e g)
  | .addGbEb => some (.addGbEb e g)
  | .subEbGb => some (.subEbGb e g)
  | .subGbEb => some (.subGbEb e g)
  | .cmpEbGb => some (.cmpEbGb e g)
  | .cmpGbEb => some (.cmpGbEb e g)
  | .xchgEbGb => some (.xchgEbGb e g)
  | .movEbGb => some (.movEbGb e g)
  | .movGbEb => some (.movGbEb e g)
  | _ => none

/-- The MODRM16 rows' instructions (R100). -/
def withModrm16 (e : RM Reg16) (g : Reg16) : Row → Option Instr
  | .addEvGv => some (.addEvGv e g)
  | .addGvEv => some (.addGvEv e g)
  | .subEvGv => some (.subEvGv e g)
  | .subGvEv => some (.subGvEv e g)
  | .cmpEvGv => some (.cmpEvGv e g)
  | .cmpGvEv => some (.cmpGvEv e g)
  | .xchgEvGv => some (.xchgEvGv e g)
  | .movEvGv => some (.movEvGv e g)
  | .movGvEv => some (.movGvEv e g)
  | _ => none

/-- The GROUP rows of width 8 (R101). -/
def withGroup8 (e : RM Reg8) (v : Byte) : Row → Option Instr
  | .addEbIb => some (.addEbIb e v)
  | .subEbIb => some (.subEbIb e v)
  | .cmpEbIb => some (.cmpEbIb e v)
  | .movEbIb => some (.movEbIb e v)
  | _ => none

/-- The GROUP rows of width 16 (R101). -/
def withGroup16 (e : RM Reg16) (v : Word) : Row → Option Instr
  | .addEvIv => some (.addEvIv e v)
  | .subEvIv => some (.subEvIv e v)
  | .cmpEvIv => some (.cmpEvIv e v)
  | .movEvIv => some (.movEvIv e v)
  | _ => none

/-- The instruction, or Miscategorized where the row has no case of that category (R99). -/
def orMiscategorized {σ : Type} (op : Byte) (cat : Category) : Option Instr → Decoder σ Instr
  | some i => pure i
  | none => throw (.miscategorized op cat)

/-- `GROUP_WIDTH[op]` (R101): 80 and C6 work on bytes, 81 and C7 on words. -/
def groupWidth (op : Byte) : Width := if op = 0x80#8 ∨ op = 0xC6#8 then .w8 else .w16

/-- `FetchGroup(op)`: ModR/M and displacement, then the sub-operation check, then the immediate (R101, R102).
UNVERIFIED: the order is the spec's decision D12 (log 22). -/
def fetchGroup {σ : Type} (next : Stream σ) (c : Config) (op : Byte) : Decoder σ Instr :=
  match groupWidth op with
  | .w8 => do
    let (e, sub) ← decodeModrm next Reg8.ofNum c op
    match groupRowAt c op sub with
    | none => throw (.groupSubop op sub)
    | some h =>
      let v ← operandByte next
      orMiscategorized op .group (withGroup8 e v h.row)
  | .w16 => do
    let (e, sub) ← decodeModrm next Reg16.ofNum c op
    match groupRowAt c op sub with
    | none => throw (.groupSubop op sub)
    | some h =>
      let v ← operandWord next
      orMiscategorized op .group (withGroup16 e v h.row)

/-- `FetchOperands(cat, op)` and the row's instruction (R100). -/
def fetchOperands {σ : Type} (next : Stream σ) (c : Config) (op : Byte) (cat : Category) (row : Row) :
    Decoder σ Instr :=
  match cat with
  | .noOperand => orMiscategorized op cat (withNoOperand op row)
  | .special => orMiscategorized op cat (withNoOperand op row)
  | .imm8 => do
    let v ← operandByte next
    orMiscategorized op cat (withImm8 op v row)
  | .imm16 => do
    let v ← operandWord next
    orMiscategorized op cat (withImm16 op v row)
  | .modrm8 => do
    let (e, reg) ← decodeModrm next Reg8.ofNum c op
    orMiscategorized op cat (withModrm8 e (.ofNum reg) row)
  | .modrm16 => do
    let (e, reg) ← decodeModrm next Reg16.ofNum c op
    orMiscategorized op cat (withModrm16 e (.ofNum reg) row)
  | .group => fetchGroup next c op

/-- The classify phase (R95): UnknownOpcode (R98), then Miscategorized before any trailing byte (R99, D13, log 23). -/
def classify {σ : Type} (c : Config) (op : Byte) : Decoder σ (Category × Row) :=
  if implemented c op then
    match categoryAt c op with
    | none => throw (.unknownOpcode op)
    | some cat =>
      match handlerAt c cat op with
      | none => throw (.miscategorized op cat)
      | some h => return (cat, h.row)
  else throw (.unknownOpcode op)

/-- The fetch-opcode, classify and fetch-operand-bytes phases of one step, on any byte stream (R95, R96). -/
def decodeFrom {σ : Type} (next : Stream σ) (c : Config) : Decoder σ Instr := do
  let op ← takeByte next .noOpcodeByte
  let (cat, row) ← classify c op
  fetchOperands next c op cat row

/-- What decoding a list of bytes gives: an instruction or a rejection, with the bytes not consumed. -/
inductive Decoded where
  | ok (i : Instr) (rest : List Byte)
  | rejected (why : Reject) (rest : List Byte)
  deriving DecidableEq, Repr

/-- A list of bytes as a stream. -/
def listStream : Stream (List Byte)
  | [] => none
  | b :: bs => some (b, bs)

/-- The decoder on a list of bytes, total. -/
def decode (c : Config) (bytes : List Byte) : Decoded :=
  match decodeFrom listStream c bytes with
  | .ok i rest => .ok i rest
  | .error why rest => .rejected why rest

/-! ## Encoding -/

/-- The `mod` field of an effective operand (R84, R86). -/
def RM.modBits {ρ : Type} : RM ρ → BitVec 2
  | .base _ => 0b00
  | .direct _ => 0b00
  | .disp8 _ _ => 0b01
  | .disp16 _ _ => 0b10
  | .reg _ => 0b11

/-- The `rm` field of an effective operand (R84, R85). -/
def RM.rmBits {ρ : Type} (num : ρ → BitVec 3) : RM ρ → BitVec 3
  | .base b => b.num
  | .direct _ => 0b110
  | .disp8 b _ => b.num
  | .disp16 b _ => b.num
  | .reg r => num r

/-- The displacement bytes of an effective operand (R86). -/
def RM.dispBytes {ρ : Type} : RM ρ → List Byte
  | .base _ => []
  | .direct a => wordBytes a
  | .disp8 _ d => [d]
  | .disp16 _ d => wordBytes d
  | .reg _ => []

/-- The ModR/M byte and its displacement (R80, R81). -/
def modrmBytes {ρ : Type} (num : ρ → BitVec 3) (e : RM ρ) (reg : BitVec 3) : List Byte :=
  modrmByte e.modBits reg (e.rmBits num) :: e.dispBytes

/-- The bytes of a well-formed instruction, in fetch order: opcode, ModR/M, displacement, immediate (R80). -/
def encode (c : Config) : Instr → List Byte
  | .addEbGb e g => 0x00#8 :: modrmBytes Reg8.num e g.num
  | .addEvGv e g => 0x01#8 :: modrmBytes Reg16.num e g.num
  | .addGbEb e g => 0x02#8 :: modrmBytes Reg8.num e g.num
  | .addGvEv e g => 0x03#8 :: modrmBytes Reg16.num e g.num
  | .addAlIb imm => [0x04#8, imm]
  | .addAxIv imm => 0x05#8 :: wordBytes imm
  | .subEbGb e g => 0x28#8 :: modrmBytes Reg8.num e g.num
  | .subEvGv e g => 0x29#8 :: modrmBytes Reg16.num e g.num
  | .subGbEb e g => 0x2A#8 :: modrmBytes Reg8.num e g.num
  | .subGvEv e g => 0x2B#8 :: modrmBytes Reg16.num e g.num
  | .subAlIb imm => [0x2C#8, imm]
  | .subAxIv imm => 0x2D#8 :: wordBytes imm
  | .cmpEbGb e g => 0x38#8 :: modrmBytes Reg8.num e g.num
  | .cmpEvGv e g => 0x39#8 :: modrmBytes Reg16.num e g.num
  | .cmpGbEb e g => 0x3A#8 :: modrmBytes Reg8.num e g.num
  | .cmpGvEv e g => 0x3B#8 :: modrmBytes Reg16.num e g.num
  | .cmpAlIb imm => [0x3C#8, imm]
  | .cmpAxIv imm => 0x3D#8 :: wordBytes imm
  | .incR16 r => [opcodeWith 0b01000#5 r.num]
  | .decR16 r => [opcodeWith 0b01001#5 r.num]
  | .pushR16 r => [opcodeWith 0b01010#5 r.num]
  | .popR16 r => [opcodeWith 0b01011#5 r.num]
  | .joRel8 d => [0x70#8, d]
  | .jnoRel8 d => [0x71#8, d]
  | .jbRel8 d => [0x72#8, d]
  | .jnbRel8 d => [0x73#8, d]
  | .jzRel8 d => [0x74#8, d]
  | .jnzRel8 d => [0x75#8, d]
  | .jbeRel8 d => [0x76#8, d]
  | .jaRel8 d => [0x77#8, d]
  | .jsRel8 d => [0x78#8, d]
  | .jnsRel8 d => [0x79#8, d]
  | .addEbIb e imm => 0x80#8 :: (modrmBytes Reg8.num e 0#3 ++ [imm])
  | .subEbIb e imm => 0x80#8 :: (modrmBytes Reg8.num e 5#3 ++ [imm])
  | .cmpEbIb e imm => 0x80#8 :: (modrmBytes Reg8.num e 7#3 ++ [imm])
  | .addEvIv e imm => 0x81#8 :: (modrmBytes Reg16.num e 0#3 ++ wordBytes imm)
  | .subEvIv e imm => 0x81#8 :: (modrmBytes Reg16.num e 5#3 ++ wordBytes imm)
  | .cmpEvIv e imm => 0x81#8 :: (modrmBytes Reg16.num e 7#3 ++ wordBytes imm)
  | .xchgEbGb e g => 0x86#8 :: modrmBytes Reg8.num e g.num
  | .xchgEvGv e g => 0x87#8 :: modrmBytes Reg16.num e g.num
  | .movEbGb e g => 0x88#8 :: modrmBytes Reg8.num e g.num
  | .movEvGv e g => 0x89#8 :: modrmBytes Reg16.num e g.num
  | .movGbEb e g => 0x8A#8 :: modrmBytes Reg8.num e g.num
  | .movGvEv e g => 0x8B#8 :: modrmBytes Reg16.num e g.num
  | .nop => [0x90#8]
  | .xchgAxR16 r => [opcodeWith 0b10010#5 r.num]
  | .movR8Ib r imm => [opcodeWith 0b10110#5 r.num, imm]
  | .movR16Iv r imm => opcodeWith 0b10111#5 r.num :: wordBytes imm
  | .movEbIb e imm => 0xC6#8 :: (modrmBytes Reg8.num e 0#3 ++ [imm])
  | .movEvIv e imm => 0xC7#8 :: (modrmBytes Reg16.num e 0#3 ++ wordBytes imm)
  | .ret => [0xC3#8]
  | .callRel16 d => 0xE8#8 :: wordBytes d
  | .jmpRel16 d => 0xE9#8 :: wordBytes d
  | .jmpRel8 d => [0xEB#8, d]
  | .hlt => [c.haltOpcode]

/-- The row of opcode_table.json an instruction belongs to. -/
def Instr.row : Instr → Row
  | .addEbGb _ _ => .addEbGb
  | .addEvGv _ _ => .addEvGv
  | .addGbEb _ _ => .addGbEb
  | .addGvEv _ _ => .addGvEv
  | .addAlIb _ => .addAlIb
  | .addAxIv _ => .addAxIv
  | .subEbGb _ _ => .subEbGb
  | .subEvGv _ _ => .subEvGv
  | .subGbEb _ _ => .subGbEb
  | .subGvEv _ _ => .subGvEv
  | .subAlIb _ => .subAlIb
  | .subAxIv _ => .subAxIv
  | .cmpEbGb _ _ => .cmpEbGb
  | .cmpEvGv _ _ => .cmpEvGv
  | .cmpGbEb _ _ => .cmpGbEb
  | .cmpGvEv _ _ => .cmpGvEv
  | .cmpAlIb _ => .cmpAlIb
  | .cmpAxIv _ => .cmpAxIv
  | .incR16 _ => .incR16
  | .decR16 _ => .decR16
  | .pushR16 _ => .pushR16
  | .popR16 _ => .popR16
  | .joRel8 _ => .joRel8
  | .jnoRel8 _ => .jnoRel8
  | .jbRel8 _ => .jbRel8
  | .jnbRel8 _ => .jnbRel8
  | .jzRel8 _ => .jzRel8
  | .jnzRel8 _ => .jnzRel8
  | .jbeRel8 _ => .jbeRel8
  | .jaRel8 _ => .jaRel8
  | .jsRel8 _ => .jsRel8
  | .jnsRel8 _ => .jnsRel8
  | .addEbIb _ _ => .addEbIb
  | .subEbIb _ _ => .subEbIb
  | .cmpEbIb _ _ => .cmpEbIb
  | .addEvIv _ _ => .addEvIv
  | .subEvIv _ _ => .subEvIv
  | .cmpEvIv _ _ => .cmpEvIv
  | .xchgEbGb _ _ => .xchgEbGb
  | .xchgEvGv _ _ => .xchgEvGv
  | .movEbGb _ _ => .movEbGb
  | .movEvGv _ _ => .movEvGv
  | .movGbEb _ _ => .movGbEb
  | .movGvEv _ _ => .movGvEv
  | .nop => .nop
  | .xchgAxR16 _ => .xchgAxR16
  | .movR8Ib _ _ => .movR8Ib
  | .movR16Iv _ _ => .movR16Iv
  | .movEbIb _ _ => .movEbIb
  | .movEvIv _ _ => .movEvIv
  | .ret => .ret
  | .callRel16 _ => .callRel16
  | .jmpRel16 _ => .jmpRel16
  | .jmpRel8 _ => .jmpRel8
  | .hlt => .hlt

/-- The (mod, rm) pair of an instruction that has a ModR/M byte. -/
def Instr.modrmPair : Instr → Option (BitVec 2 × BitVec 3)
  | .addEbGb e _ => some (e.modBits, e.rmBits Reg8.num)
  | .addEvGv e _ => some (e.modBits, e.rmBits Reg16.num)
  | .addGbEb e _ => some (e.modBits, e.rmBits Reg8.num)
  | .addGvEv e _ => some (e.modBits, e.rmBits Reg16.num)
  | .addAlIb _ => none
  | .addAxIv _ => none
  | .subEbGb e _ => some (e.modBits, e.rmBits Reg8.num)
  | .subEvGv e _ => some (e.modBits, e.rmBits Reg16.num)
  | .subGbEb e _ => some (e.modBits, e.rmBits Reg8.num)
  | .subGvEv e _ => some (e.modBits, e.rmBits Reg16.num)
  | .subAlIb _ => none
  | .subAxIv _ => none
  | .cmpEbGb e _ => some (e.modBits, e.rmBits Reg8.num)
  | .cmpEvGv e _ => some (e.modBits, e.rmBits Reg16.num)
  | .cmpGbEb e _ => some (e.modBits, e.rmBits Reg8.num)
  | .cmpGvEv e _ => some (e.modBits, e.rmBits Reg16.num)
  | .cmpAlIb _ => none
  | .cmpAxIv _ => none
  | .incR16 _ => none
  | .decR16 _ => none
  | .pushR16 _ => none
  | .popR16 _ => none
  | .joRel8 _ => none
  | .jnoRel8 _ => none
  | .jbRel8 _ => none
  | .jnbRel8 _ => none
  | .jzRel8 _ => none
  | .jnzRel8 _ => none
  | .jbeRel8 _ => none
  | .jaRel8 _ => none
  | .jsRel8 _ => none
  | .jnsRel8 _ => none
  | .addEbIb e _ => some (e.modBits, e.rmBits Reg8.num)
  | .subEbIb e _ => some (e.modBits, e.rmBits Reg8.num)
  | .cmpEbIb e _ => some (e.modBits, e.rmBits Reg8.num)
  | .addEvIv e _ => some (e.modBits, e.rmBits Reg16.num)
  | .subEvIv e _ => some (e.modBits, e.rmBits Reg16.num)
  | .cmpEvIv e _ => some (e.modBits, e.rmBits Reg16.num)
  | .xchgEbGb e _ => some (e.modBits, e.rmBits Reg8.num)
  | .xchgEvGv e _ => some (e.modBits, e.rmBits Reg16.num)
  | .movEbGb e _ => some (e.modBits, e.rmBits Reg8.num)
  | .movEvGv e _ => some (e.modBits, e.rmBits Reg16.num)
  | .movGbEb e _ => some (e.modBits, e.rmBits Reg8.num)
  | .movGvEv e _ => some (e.modBits, e.rmBits Reg16.num)
  | .nop => none
  | .xchgAxR16 _ => none
  | .movR8Ib _ _ => none
  | .movR16Iv _ _ => none
  | .movEbIb e _ => some (e.modBits, e.rmBits Reg8.num)
  | .movEvIv e _ => some (e.modBits, e.rmBits Reg16.num)
  | .ret => none
  | .callRel16 _ => none
  | .jmpRel16 _ => none
  | .jmpRel8 _ => none
  | .hlt => none

/-- The parameters admit the instruction: its row is in `IMPLEMENTED`, its mod/rm pair is in `MODRM_SUPPORTED`, and for
HLT no other row, taken out of `IMPLEMENTED` or not, claims `HALT_OPCODE` (R5, R98, R88, R240; the clause about HLT is
the model's DESIGN CHOICE, log 5). -/
def Instr.admitted (c : Config) (i : Instr) : Bool :=
  c.implements i.row
    && (match i.modrmPair with | none => true | some (mod, rm) => c.modrmSupported mod rm)
    && (decide (i.row ≠ .hlt) || decide (mappedCategory c.haltOpcode = none))

/-! ## The opcode table's words -/

/-- Byte `k` of the number `w`, the least significant first. -/
def byteOfNat (w k : Nat) : Byte := BitVec.ofNat 8 (w / 256 ^ k)

/-- The number matches a GROUP row as opcode_table.json writes it (match 0x8000, mask 0xFF38 and the like). -/
def isGroupWord (w : Nat) : Bool :=
  opTable.any fun r => decide (r.category = .group) && r.covers (byteOfNat w 1) &&
    decide (r.sub = some (regField (byteOfNat w 0)))

/-- The six bytes, in fetch order, of an instruction whose bits opcode_table.json numbers as `w`; bits above `nbits`
are 0. A GROUP row's match and mask hold the opcode in bits 15..8 and the ModR/M byte in bits 7..0; every other row's
opcode is bits 7..0, and later bytes count on from there. DEDUCED from the table's `fixed` fields (log 9). -/
def tableWordBytes (nbits w : Nat) : List Byte :=
  let v := w % 2 ^ nbits
  let tail := [byteOfNat v 2, byteOfNat v 3, byteOfNat v 4, byteOfNat v 5]
  if 16 ≤ nbits ∧ isGroupWord v then byteOfNat v 1 :: byteOfNat v 0 :: tail
  else byteOfNat v 0 :: byteOfNat v 1 :: tail

/-- The instruction the decoder reads from a word of opcode_table.json, under the default parameters of R5. -/
def decodeTableWord (nbits w : Nat) : Option Instr :=
  match decode Config.standard (tableWordBytes nbits w) with
  | .ok i _ => some i
  | .rejected _ _ => none

end Sys2Proof
end

