-- ==== Sys2Proof/Machine/State.lean ====
section
/-! DEFINITION. The architectural state of the rust86 core as plain data (10_state.md), the fatal outcomes STATUS
records (60_exceptions.md R251), the reasons a step can stop, and the state after reset. -/

namespace Sys2Proof.Machine

/-- The eight 16-bit registers (R21, R22). The 8-bit registers are halves of the first four (R23). -/
structure Regs where
  ax : Word
  cx : Word
  dx : Word
  bx : Word
  sp : Word
  bp : Word
  si : Word
  di : Word
  deriving DecidableEq, Repr

/-- The four flags, independent booleans with no bit positions (R31, R32). -/
structure Flags where
  c : Bool
  o : Bool
  s : Bool
  z : Bool
  deriving DecidableEq, Repr

/-- The byte memory (R51) as a list of cells in one canonical form (`Memory.wf`): addresses rising, and no cell equal
to what an unlisted address reads as (log 2). -/
abbrev Memory := List Host.Cell

/-- A descriptor (R90). A memory descriptor holds a resolved address and no width (R64). -/
inductive Desc where
  | reg8 (r : Reg8)
  | reg16 (r : Reg16)
  | mem (addr : Word)
  | imm8 (v : Byte)
  | imm16 (v : Word)
  deriving DecidableEq, Repr

/-- The dispatcher phases (R36, R95). -/
inductive Phase where
  | fetchOpcode
  | classify
  | fetchOperandBytes
  | execute
  deriving DecidableEq, Repr

/-- The fatal kinds with their info records (R251). The state an info record also carries (R251, R261) is the stopped
machine's own State (log 7). -/
inductive Fatal where
  /-- the intentional stop of HLT (R240, R259) -/
  | halt (opcode : Byte) (pc : Word)
  /-- decode fault, top-level opcode (R98, R253) -/
  | unknownOpcode (opcode : Byte)
  /-- decode fault, category sub-dispatch (R99, R254) -/
  | miscategorized (opcode : Byte) (category : Category)
  /-- decode fault, group sub-selector (R101, R255) -/
  | groupSubop (opcode : Byte) (sub : BitVec 3)
  /-- decode fault, addressing mode (R88) -/
  | addressingMode (opcode : Byte) (modrm : Byte)
  /-- contract violation: a write through an immediate (R68, R256) -/
  | writeImmediate (desc : Desc)
  /-- contract violation: a descriptor at the wrong width (R69, R257) -/
  | widthMismatch (desc : Desc) (width : Width)
  /-- access beyond the top of memory (R54, R56, R258) -/
  | addressRange (addr : Nat)
  deriving DecidableEq, Repr

/-- STATUS (R35): `run` is the constructor; `kind` and `info` are the fatal outcome of a stopped run. -/
inductive Status where
  | running
  | stopped (why : Fatal)
  deriving DecidableEq, Repr

/-- The machine's state: R20's tuple, the dispatcher phase (R36), and the parameters of R5, which no step changes
(log 4). -/
structure State where
  regs : Regs
  pc : Word
  flags : Flags
  mem : Memory
  status : Status
  phase : Phase
  cfg : Config
  deriving DecidableEq, Repr

/-- Why the machine stops with a fault. -/
inductive Fault where
  /-- Raised by `step` alone, on a state whose STATUS is Stopped: no later step exists (R35, R262). Safe: the spec gives
  no step here. A fatal outcome itself is a next state with STATUS Stopped, not a fault (log 3). -/
  | stopped
  deriving DecidableEq, Repr

/-- Why an instruction has no meaning. -/
inductive Refusal where
  /-- Raised by `exec` for a row without a meaning; no arm of this model raises it. Safe: the machine stops. -/
  | notModelled (mnemonic : String)
  deriving DecidableEq, Repr

/-- The state after reset (R281, R282, R283): phase fetch-opcode, STATUS Running with no kind and no info, parameters at
R5's defaults. The spec gives no value for registers, flags, pc and memory (INIT_STATE, R280): here all are zero and
memory lists nothing. DESIGN CHOICE, unsafe (logs 1, 2). -/
def State.reset : State where
  regs := ⟨0, 0, 0, 0, 0, 0, 0, 0⟩
  pc := 0
  flags := ⟨false, false, false, false⟩
  mem := []
  status := .running
  phase := .fetchOpcode
  cfg := Config.standard

end Sys2Proof.Machine
end

