-- ==== Sys2Proof/Machine/Ops.lean ====
section
/-! DEFINITION. The named operations over registers and memory, fetching at the code cursor, the stack primitives, and
raising a fatal outcome as one shared operation (10_state.md, 20_memory.md, 43_stack.md, 60_exceptions.md). -/

namespace Sys2Proof.Machine

/-- An operation of an instruction: it reads and writes the state and may raise a fatal outcome, which keeps every write
made before it (R9, R261). -/
abbrev Op (α : Type) := EStateM Fatal State α

/-! ## Registers -/

/-- `x16[i]` (R21, R22). -/
def Regs.get16 (x : Regs) : Reg16 → Word
  | .ax => x.ax | .cx => x.cx | .dx => x.dx | .bx => x.bx
  | .sp => x.sp | .bp => x.bp | .si => x.si | .di => x.di

/-- `x16[i] <- v` (R26). -/
def Regs.set16 (x : Regs) (r : Reg16) (v : Word) : Regs :=
  match r with
  | .ax => { x with ax := v } | .cx => { x with cx := v } | .dx => { x with dx := v } | .bx => { x with bx := v }
  | .sp => { x with sp := v } | .bp => { x with bp := v } | .si => { x with si := v } | .di => { x with di := v }

/-- The parent of an 8-bit register (R23, R24). -/
def parentOf : Reg8 → Reg16
  | .al => .ax | .cl => .cx | .dl => .dx | .bl => .bx | .ah => .ax | .ch => .cx | .dh => .dx | .bh => .bx

/-- The register is a high half, bits 15..8 of its parent (R23, R24). -/
def isHighHalf : Reg8 → Bool
  | .al => false | .cl => false | .dl => false | .bl => false | .ah => true | .ch => true | .dh => true | .bh => true

/-- `x8[i]` (R23). -/
def Regs.get8 (x : Regs) (r : Reg8) : Byte :=
  if isHighHalf r then highByte (x.get16 (parentOf r)) else lowByte (x.get16 (parentOf r))

/-- `x8[i] <- v`: only the aliased half changes (R25). -/
def Regs.set8 (x : Regs) (r : Reg8) (v : Byte) : Regs :=
  let old := x.get16 (parentOf r)
  x.set16 (parentOf r) (if isHighHalf r then joinBytes v (lowByte old) else joinBytes (highByte old) v)

/-! ## Memory -/

/-- What an address that is not listed reads as. DESIGN CHOICE, unsafe (log 2): the spec gives memory no reset value. -/
def unlistedByte : Byte := 0

/-- The byte at an address (R52). -/
def Memory.get : Memory → Nat → Byte
  | [], _ => unlistedByte
  | (k, v) :: m, a => if k = a then v else Memory.get m a

/-- The memory without the cell of an address. -/
def Memory.erase (m : Memory) (a : Nat) : Memory := m.filter fun cell => decide (cell.1 ≠ a)

/-- The memory with a cell put before the first higher address. -/
def Memory.insert : Memory → Nat → Byte → Memory
  | [], a, v => [(a, v)]
  | (k, w) :: m, a, v => if a < k then (a, v) :: (k, w) :: m else (k, w) :: Memory.insert m a v

/-- A byte write (R52), keeping the canonical form: writing what an unlisted address reads as removes the cell. -/
def Memory.set (m : Memory) (a : Nat) (v : Byte) : Memory :=
  if v = unlistedByte then m.erase a else (m.erase a).insert a v

/-- The canonical form: addresses strictly rising and inside the address space (R51), and no cell equal to what an
unlisted address reads as. -/
abbrev Memory.wf (m : Memory) : Prop :=
  m.Pairwise (fun x y => x.1 < y.1) ∧ ∀ cell ∈ m, cell.1 < Config.memBytes ∧ cell.2 ≠ unlistedByte

/-- `MemRead(a, 1)` on the state (R52). -/
def State.byteAt (s : State) (a : Word) : Byte := s.mem.get a.toNat

/-- `MemWrite(a, 1, v)` on the state (R52). -/
def State.setByte (s : State) (a : Word) (v : Byte) : State := { s with mem := s.mem.set a.toNat v }

/-- The info of every AddressRange (R54, R56, R251). -/
def beyondTop : Fatal := .addressRange 0x10000

/-- The second byte of an access at `a` exists: `a` is not 0xFFFF, or accesses wrap (R54).
UNVERIFIED: the spec's decision D6 (log 16). -/
def State.canAdvance (s : State) (a : Word) : Bool := decide (a ≠ 0xFFFF#16) || s.cfg.topWrap

/-- `MemRead(a, 1)` (R52). No alignment is asked of any access (R55). -/
def readByte (a : Word) : Op Byte := do
  return (← get).byteAt a

/-- `MemRead(a, 2)`: little-endian, checked before either byte is read (R53, R54). -/
def readWord (a : Word) : Op Word := do
  let s ← get
  if s.canAdvance a then return joinBytes (s.byteAt (a + 1)) (s.byteAt a) else throw beyondTop

/-- `MemWrite(a, 1, v)` (R52). -/
def writeByte (a : Word) (v : Byte) : Op Unit := modify (·.setByte a v)

/-- `MemWrite(a, 2, v)`: little-endian, checked before either byte is written (R53, R54). -/
def writeWord (a : Word) (v : Word) : Op Unit := do
  let s ← get
  if s.canAdvance a then set ((s.setByte a (lowByte v)).setByte (a + 1) (highByte v)) else throw beyondTop

/-! ## Registers and cursor as operations -/

/-- Read a 16-bit register. -/
def readReg16 (r : Reg16) : Op Word := do
  return (← get).regs.get16 r

/-- Write a 16-bit register (R26). -/
def writeReg16 (r : Reg16) (v : Word) : Op Unit := modify fun s => { s with regs := s.regs.set16 r v }

/-- Read an 8-bit register (R23). -/
def readReg8 (r : Reg8) : Op Byte := do
  return (← get).regs.get8 r

/-- Write an 8-bit register (R25). -/
def writeReg8 (r : Reg8) (v : Byte) : Op Unit := modify fun s => { s with regs := s.regs.set8 r v }

/-- `pc`: while an instruction executes it is the address after its last byte (R28, R30). -/
def readPc : Op Word := do
  return (← get).pc

/-- `pc <- target` (R28). -/
def writePc (target : Word) : Op Unit := modify fun s => { s with pc := target }

/-! ## Stack primitives -/

/-- `Push(v)`: SP is decremented first and stays so if the write faults (R200, R261).
UNVERIFIED: the direction is the spec's decision D25 (log 35). -/
def push (v : Word) : Op Unit := do
  let sp ← readReg16 .sp
  writeReg16 .sp (sp - 2)
  writeWord (sp - 2) v

/-- `Pop()`: the read may fault before SP changes (R201). -/
def pop : Op Word := do
  let sp ← readReg16 .sp
  let v ← readWord sp
  writeReg16 .sp (sp + 2)
  return v

/-! ## Fetching -/

/-- `FetchByte()` as a stream over states: the byte at the cursor and the state with the cursor advanced, or none where
the cursor cannot advance from 0xFFFF, which leaves the state as it was (R56). -/
def fetchNext : Stream State := fun s =>
  if s.canAdvance s.pc then some (s.byteAt s.pc, { s with pc := s.pc + 1 }) else none

/-! ## Fatal outcomes -/

/-- `raise Fatal(kind, info)`: STATUS becomes Stopped with that kind and info, and nothing else changes: no state is
saved, no handler runs, nothing is rolled back (R250, R261, R265). -/
def raise (why : Fatal) (s : State) : State := { s with status := .stopped why }

/-- The fatal outcome of a rejected encoding (R252, R258). -/
def fatalOf : Reject → Fatal
  | .noOpcodeByte => beyondTop
  | .noOperandByte => beyondTop
  | .unknownOpcode op => .unknownOpcode op
  | .miscategorized op cat => .miscategorized op cat
  | .groupSubop op sub => .groupSubop op sub
  | .addressingMode op m => .addressingMode op m

/-- The phase in which a rejection is raised (R95). DEDUCED: the machine rests in it (log 8). -/
def phaseOf : Reject → Phase
  | .noOpcodeByte => .fetchOpcode
  | .noOperandByte => .fetchOperandBytes
  | .unknownOpcode _ => .classify
  | .miscategorized _ _ => .classify
  | .groupSubop _ _ => .fetchOperandBytes
  | .addressingMode _ _ => .fetchOperandBytes

/-- A fetch that ends in a rejection: STATUS Stopped, the cursor past the bytes consumed (R260, R261). -/
def rejectAt (why : Reject) (s : State) : State := raise (fatalOf why) { s with phase := phaseOf why }

/-- The step's outcome of an operation: the state it leaves, Stopped if it raised a fatal outcome (R103, R250). -/
def perform (op : Op Unit) (s : State) : Host.Outcome State Fault Refusal :=
  match op s with
  | .ok _ t => .next t
  | .error why t => .next (raise why t)

/-- The execute phase begins (R95). -/
def beginExecute (s : State) : State := { s with phase := .execute }

/-- The execute phase ends: without a fatal outcome the phase returns to fetch-opcode (R104). -/
def endExecute (s : State) : State :=
  match s.status with
  | .running => { s with phase := .fetchOpcode }
  | .stopped _ => s

/-! ## What the records say (R35, R251, R241, R263) -/

/-- The name of a fatal kind (R251, column kind). -/
inductive FatalKind where
  | halt | unknownOpcode | miscategorized | groupSubop | addressingMode | writeImmediate | widthMismatch | addressRange
  deriving DecidableEq, Repr

/-- The class of a fatal kind (R251, column class). -/
inductive FatalClass where
  | intentionalStop | decodeFault | contractViolation | accessBeyondTop
  deriving DecidableEq, Repr

/-- `STATUS.kind` of a fatal outcome (R35). -/
def Fatal.kind : Fatal → FatalKind
  | .halt _ _ => .halt
  | .unknownOpcode _ => .unknownOpcode
  | .miscategorized _ _ => .miscategorized
  | .groupSubop _ _ => .groupSubop
  | .addressingMode _ _ => .addressingMode
  | .writeImmediate _ => .writeImmediate
  | .widthMismatch _ _ => .widthMismatch
  | .addressRange _ => .addressRange

/-- The numeric code of a kind (R251). UNVERIFIED: the spec's decision D14 (log 24). -/
def FatalKind.code : FatalKind → Byte
  | .halt => 0x00#8
  | .unknownOpcode => 0x01#8
  | .miscategorized => 0x02#8
  | .groupSubop => 0x03#8
  | .addressingMode => 0x04#8
  | .writeImmediate => 0x10#8
  | .widthMismatch => 0x11#8
  | .addressRange => 0x20#8

/-- The class of a kind (R251). -/
def FatalKind.errorClass : FatalKind → FatalClass
  | .halt => .intentionalStop
  | .unknownOpcode => .decodeFault
  | .miscategorized => .decodeFault
  | .groupSubop => .decodeFault
  | .addressingMode => .decodeFault
  | .writeImmediate => .contractViolation
  | .widthMismatch => .contractViolation
  | .addressRange => .accessBeyondTop

/-- `STATUS.kind` (R35): none while Running. -/
def Status.kind : Status → Option FatalKind
  | .running => none
  | .stopped why => some why.kind

/-- The content of the diagnostic dump: registers, flags and cursor (R241). -/
structure Dump where
  regs : Regs
  flags : Flags
  pc : Word
  deriving DecidableEq, Repr

/-- `DiagnosticDump(S)` as a function of the state it reads: it changes none of it (R241). Its text is not modelled
(D30, logs 7, 40). -/
def diagnosticDump (s : State) : Dump := ⟨s.regs, s.flags, s.pc⟩

/-- The dump the core itself calls: on Halt only (R241, R263). -/
def dumpCalled (s : State) : Option Dump :=
  match s.status with
  | .stopped (.halt _ _) => some (diagnosticDump s)
  | .stopped _ => none
  | .running => none

end Sys2Proof.Machine
end

