-- ==== Sys2Proof/Machine/Operands.lean ====
section
/-! DEFINITION. Operand forms: the effective address, the descriptors an instruction's operands resolve to, and the
operand resolver (30_encoding.md R83-R90, 20_memory.md R63-R69). -/

namespace Sys2Proof.Machine

/-- The base formula's sum, modulo 2^16 (R85). UNVERIFIED: the spec's decision D7 (log 17). -/
def baseSum (x : Regs) : BaseForm → Word
  | .bxSi => x.bx + x.si
  | .bxDi => x.bx + x.di
  | .bpSi => x.bp + x.si
  | .bpDi => x.bp + x.di
  | .si => x.si
  | .di => x.di
  | .bp => x.bp
  | .bx => x.bx

/-- The descriptor of an effective operand, from the registers as they are before the execute phase writes anything
(R84, R87, R286). `mk` is the register naming of the operating width (R83).
UNVERIFIED: sign extension and wrapping are the spec's decision D8 (log 18). -/
def resolve {ρ : Type} (mk : ρ → Desc) (x : Regs) : RM ρ → Desc
  | .reg r => mk r
  | .base b => .mem (baseSum x b)
  | .direct a => .mem a
  | .disp8 b d => .mem (baseSum x b + sextByte d)
  | .disp16 b d => .mem (baseSum x b + d)

/-- E at width 8 (R82, R83). -/
def effective8 (e : RM Reg8) (s : State) : Desc := resolve .reg8 s.regs e

/-- E at width 16 (R82, R83). -/
def effective16 (e : RM Reg16) (s : State) : Desc := resolve .reg16 s.regs e

/-- `Read(d, w)` (R63, R64, R65); a descriptor of the other width is WidthMismatch (R69). -/
def readOperand (w : Width) (d : Desc) : Op (BitVec w.bits) :=
  match w, d with
  | .w8, .reg8 r => readReg8 r
  | .w16, .reg16 r => readReg16 r
  | .w8, .mem a => readByte a
  | .w16, .mem a => readWord a
  | .w8, .imm8 v => pure v
  | .w16, .imm16 v => pure v
  | .w16, .reg8 r => throw (.widthMismatch (.reg8 r) .w16)
  | .w8, .reg16 r => throw (.widthMismatch (.reg16 r) .w8)
  | .w16, .imm8 v => throw (.widthMismatch (.imm8 v) .w16)
  | .w8, .imm16 v => throw (.widthMismatch (.imm16 v) .w8)

/-- `Write(d, w, v)` (R66, R67). A write through an immediate is WriteImmediate at every width (R68; DESIGN CHOICE where
R69 names WidthMismatch too, log 6); a register of the other width is WidthMismatch (R69). -/
def writeOperand (w : Width) (d : Desc) (v : BitVec w.bits) : Op Unit :=
  match w, d, v with
  | .w8, .reg8 r, v => writeReg8 r v
  | .w16, .reg16 r, v => writeReg16 r v
  | .w8, .mem a, v => writeByte a v
  | .w16, .mem a, v => writeWord a v
  | .w16, .reg8 r, _ => throw (.widthMismatch (.reg8 r) .w16)
  | .w8, .reg16 r, _ => throw (.widthMismatch (.reg16 r) .w8)
  | _, .imm8 x, _ => throw (.writeImmediate (.imm8 x))
  | _, .imm16 x, _ => throw (.writeImmediate (.imm16 x))

end Sys2Proof.Machine
end

