-- ==== Sys2Proof/Machine/Flags.lean ====
section
/-! DEFINITION. The arithmetic primitives at any width, the flags they produce, committing flags, and the common
arithmetic operation (40_alu.md, 42_arith.md R170). -/

namespace Sys2Proof.Machine

/-- What an arithmetic primitive returns: the wrapped result and the four flags (R139). -/
structure AluResult (n : Nat) where
  r : BitVec n
  flags : Flags
  deriving DecidableEq, Repr

/-- The two operation kinds (R130). -/
inductive AluKind where
  | add
  | sub
  deriving DecidableEq, Repr

/-- Sign and zero of a result, beside the given carry and overflow (R137, R138). -/
def aluResult {n : Nat} (r : BitVec n) (c o : Bool) : AluResult n := ⟨r, ⟨c, o, r.msb, decide (r.toNat = 0)⟩⟩

/-- `Add_N(a, b)` (R131, R132, R133): the sum over the naturals is computed first and then narrowed. -/
def addN {n : Nat} (a b : BitVec n) : AluResult n :=
  let sum := a.toNat + b.toNat
  let r := BitVec.ofNat n sum
  aluResult r (decide (2 ^ n ≤ sum)) (decide (a.msb = b.msb) && decide (r.msb ≠ a.msb))

/-- `Sub_N(a, b)` (R134, R135, R136). -/
def subN {n : Nat} (a b : BitVec n) : AluResult n :=
  let r := BitVec.ofNat n (a.toNat + 2 ^ n - b.toNat)
  aluResult r (decide (a.toNat < b.toNat)) ((!a.msb && b.msb && r.msb) || (a.msb && !b.msb && !r.msb))

/-- The primitive of an operation kind (R170). -/
def alu {n : Nat} : AluKind → BitVec n → BitVec n → AluResult n
  | .add => addN
  | .sub => subN

/-- `SetFlags(c, o, s, z)`: all four at once (R141). -/
def setFlags (f : Flags) : Op Unit := modify fun s => { s with flags := f }

/-- `get_flag` for the conditional jumps, all four at once (R143). -/
def readFlags : Op Flags := do
  return (← get).flags

/-- `ArithOp(kind, N, dst, a, b, writeback)` with the operands read first, a before b (R170). -/
def arithOp (kind : AluKind) (w : Width) (dst a b : Desc) (writeback : Bool) : Op Unit := do
  let x ← readOperand w a
  let y ← readOperand w b
  let res := alu kind x y
  if writeback then writeOperand w dst res.r
  setFlags res.flags

/-- ADD: the result goes to the left operand (R170). -/
def addOp (w : Width) (a b : Desc) : Op Unit := arithOp .add w a a b true

/-- SUB: left minus right, the result to the left operand (R170, R134). -/
def subOp (w : Width) (a b : Desc) : Op Unit := arithOp .sub w a a b true

/-- CMP: the flags of SUB and no result (R170). -/
def cmpOp (w : Width) (a b : Desc) : Op Unit := arithOp .sub w a a b false

end Sys2Proof.Machine
end

