-- ==== Sys2Proof/Machine/Arith.lean ====
section
/-! DEFINITION. Add, subtract, compare, increment and decrement (42_arith.md). Every one commits all four flags. -/

namespace Sys2Proof.Machine

/-- ADD Eb, Gb (R171). -/
def execAddEbGb (e : RM Reg8) (g : Reg8) (s : State) : Host.Outcome State Fault Refusal :=
  perform (addOp .w8 (effective8 e s) (.reg8 g)) s

/-- ADD Ev, Gv (R172). -/
def execAddEvGv (e : RM Reg16) (g : Reg16) (s : State) : Host.Outcome State Fault Refusal :=
  perform (addOp .w16 (effective16 e s) (.reg16 g)) s

/-- ADD Gb, Eb (R173). -/
def execAddGbEb (e : RM Reg8) (g : Reg8) (s : State) : Host.Outcome State Fault Refusal :=
  perform (addOp .w8 (.reg8 g) (effective8 e s)) s

/-- ADD Gv, Ev (R174). -/
def execAddGvEv (e : RM Reg16) (g : Reg16) (s : State) : Host.Outcome State Fault Refusal :=
  perform (addOp .w16 (.reg16 g) (effective16 e s)) s

/-- ADD AL, Ib (R175). -/
def execAddAlIb (imm : Byte) (s : State) : Host.Outcome State Fault Refusal :=
  perform (addOp .w8 (.reg8 .al) (.imm8 imm)) s

/-- ADD AX, Iv (R176). -/
def execAddAxIv (imm : Word) (s : State) : Host.Outcome State Fault Refusal :=
  perform (addOp .w16 (.reg16 .ax) (.imm16 imm)) s

/-- ADD Eb, Ib (R177). -/
def execAddEbIb (e : RM Reg8) (imm : Byte) (s : State) : Host.Outcome State Fault Refusal :=
  perform (addOp .w8 (effective8 e s) (.imm8 imm)) s

/-- ADD Ev, Iv (R178). -/
def execAddEvIv (e : RM Reg16) (imm : Word) (s : State) : Host.Outcome State Fault Refusal :=
  perform (addOp .w16 (effective16 e s) (.imm16 imm)) s

/-- SUB Eb, Gb (R179). -/
def execSubEbGb (e : RM Reg8) (g : Reg8) (s : State) : Host.Outcome State Fault Refusal :=
  perform (subOp .w8 (effective8 e s) (.reg8 g)) s

/-- SUB Ev, Gv (R180). -/
def execSubEvGv (e : RM Reg16) (g : Reg16) (s : State) : Host.Outcome State Fault Refusal :=
  perform (subOp .w16 (effective16 e s) (.reg16 g)) s

/-- SUB Gb, Eb (R181). -/
def execSubGbEb (e : RM Reg8) (g : Reg8) (s : State) : Host.Outcome State Fault Refusal :=
  perform (subOp .w8 (.reg8 g) (effective8 e s)) s

/-- SUB Gv, Ev (R182). -/
def execSubGvEv (e : RM Reg16) (g : Reg16) (s : State) : Host.Outcome State Fault Refusal :=
  perform (subOp .w16 (.reg16 g) (effective16 e s)) s

/-- SUB AL, Ib (R183). -/
def execSubAlIb (imm : Byte) (s : State) : Host.Outcome State Fault Refusal :=
  perform (subOp .w8 (.reg8 .al) (.imm8 imm)) s

/-- SUB AX, Iv (R184). -/
def execSubAxIv (imm : Word) (s : State) : Host.Outcome State Fault Refusal :=
  perform (subOp .w16 (.reg16 .ax) (.imm16 imm)) s

/-- SUB Eb, Ib (R185). -/
def execSubEbIb (e : RM Reg8) (imm : Byte) (s : State) : Host.Outcome State Fault Refusal :=
  perform (subOp .w8 (effective8 e s) (.imm8 imm)) s

/-- SUB Ev, Iv (R186). -/
def execSubEvIv (e : RM Reg16) (imm : Word) (s : State) : Host.Outcome State Fault Refusal :=
  perform (subOp .w16 (effective16 e s) (.imm16 imm)) s

/-- CMP Eb, Gb (R187). -/
def execCmpEbGb (e : RM Reg8) (g : Reg8) (s : State) : Host.Outcome State Fault Refusal :=
  perform (cmpOp .w8 (effective8 e s) (.reg8 g)) s

/-- CMP Ev, Gv (R188). -/
def execCmpEvGv (e : RM Reg16) (g : Reg16) (s : State) : Host.Outcome State Fault Refusal :=
  perform (cmpOp .w16 (effective16 e s) (.reg16 g)) s

/-- CMP Gb, Eb (R189). -/
def execCmpGbEb (e : RM Reg8) (g : Reg8) (s : State) : Host.Outcome State Fault Refusal :=
  perform (cmpOp .w8 (.reg8 g) (effective8 e s)) s

/-- CMP Gv, Ev (R190). -/
def execCmpGvEv (e : RM Reg16) (g : Reg16) (s : State) : Host.Outcome State Fault Refusal :=
  perform (cmpOp .w16 (.reg16 g) (effective16 e s)) s

/-- CMP AL, Ib (R191). -/
def execCmpAlIb (imm : Byte) (s : State) : Host.Outcome State Fault Refusal :=
  perform (cmpOp .w8 (.reg8 .al) (.imm8 imm)) s

/-- CMP AX, Iv (R192). -/
def execCmpAxIv (imm : Word) (s : State) : Host.Outcome State Fault Refusal :=
  perform (cmpOp .w16 (.reg16 .ax) (.imm16 imm)) s

/-- CMP Eb, Ib (R193). -/
def execCmpEbIb (e : RM Reg8) (imm : Byte) (s : State) : Host.Outcome State Fault Refusal :=
  perform (cmpOp .w8 (effective8 e s) (.imm8 imm)) s

/-- CMP Ev, Iv (R194). -/
def execCmpEvIv (e : RM Reg16) (imm : Word) (s : State) : Host.Outcome State Fault Refusal :=
  perform (cmpOp .w16 (effective16 e s) (.imm16 imm)) s

/-- INC r16 (R195). All four flags, C included (C6).
UNVERIFIED: the spec's decision D24 (log 34). -/
def execIncR16 (r : Reg16) (s : State) : Host.Outcome State Fault Refusal :=
  perform (addOp .w16 (.reg16 r) (.imm16 1)) s

/-- DEC r16 (R196). All four flags, C included (C6).
UNVERIFIED: the spec's decision D24 (log 34). -/
def execDecR16 (r : Reg16) (s : State) : Host.Outcome State Fault Refusal :=
  perform (subOp .w16 (.reg16 r) (.imm16 1)) s

end Sys2Proof.Machine
end

