-- ==== Sys2Proof/Machine/Control.lean ====
section
/-! DEFINITION. Jumps, CALL, RET and the conditional jumps (44_control.md). While one executes, pc is the address after its last
byte (R210). -/

namespace Sys2Proof.Machine

/-- `pc <- (pc + d) mod 2^16` (R210). The sum wraps and never faults. -/
def jumpBy (d : Word) : Op Unit := do
  let pc ← readPc
  writePc (pc + d)

/-- `Jcc(cond, d8)`: jump if the flags meet the condition, else fall through (R215).
UNVERIFIED: which conditions exist is the spec's decision D11 (log 21). -/
def jumpIf (cond : Flags → Bool) (d : Byte) : Op Unit := do
  let f ← readFlags
  if cond f then jumpBy (sextByte d)

/-- `ret <- pc; Push(ret); pc <- ret + d16` (R213). -/
def callOp (d : Word) : Op Unit := do
  let ret ← readPc
  push ret
  writePc (ret + d)

/-- `pc <- Pop()` (R214). -/
def retOp : Op Unit := do
  let target ← pop
  writePc target

/-- JMP rel8 (R211). -/
def execJmpRel8 (d : Byte) (s : State) : Host.Outcome State Fault Refusal :=
  perform (jumpBy (sextByte d)) s

/-- JMP rel16 (R212). -/
def execJmpRel16 (d : Word) (s : State) : Host.Outcome State Fault Refusal :=
  perform (jumpBy d) s

/-- CALL rel16 (R213). -/
def execCallRel16 (d : Word) (s : State) : Host.Outcome State Fault Refusal :=
  perform (callOp d) s

/-- RET (R214). -/
def execRet (s : State) : Host.Outcome State Fault Refusal :=
  perform retOp s

/-- JO rel8 (R216). -/
def execJoRel8 (d : Byte) (s : State) : Host.Outcome State Fault Refusal :=
  perform (jumpIf (fun f => f.o) d) s

/-- JNO rel8 (R217). -/
def execJnoRel8 (d : Byte) (s : State) : Host.Outcome State Fault Refusal :=
  perform (jumpIf (fun f => !f.o) d) s

/-- JB rel8 (R218). -/
def execJbRel8 (d : Byte) (s : State) : Host.Outcome State Fault Refusal :=
  perform (jumpIf (fun f => f.c) d) s

/-- JNB rel8 (R219). -/
def execJnbRel8 (d : Byte) (s : State) : Host.Outcome State Fault Refusal :=
  perform (jumpIf (fun f => !f.c) d) s

/-- JZ rel8 (R220). -/
def execJzRel8 (d : Byte) (s : State) : Host.Outcome State Fault Refusal :=
  perform (jumpIf (fun f => f.z) d) s

/-- JNZ rel8 (R221). -/
def execJnzRel8 (d : Byte) (s : State) : Host.Outcome State Fault Refusal :=
  perform (jumpIf (fun f => !f.z) d) s

/-- JBE rel8 (R222). -/
def execJbeRel8 (d : Byte) (s : State) : Host.Outcome State Fault Refusal :=
  perform (jumpIf (fun f => f.c || f.z) d) s

/-- JA rel8 (R223). -/
def execJaRel8 (d : Byte) (s : State) : Host.Outcome State Fault Refusal :=
  perform (jumpIf (fun f => !(f.c || f.z)) d) s

/-- JS rel8 (R224). -/
def execJsRel8 (d : Byte) (s : State) : Host.Outcome State Fault Refusal :=
  perform (jumpIf (fun f => f.s) d) s

/-- JNS rel8 (R225). -/
def execJnsRel8 (d : Byte) (s : State) : Host.Outcome State Fault Refusal :=
  perform (jumpIf (fun f => !f.s) d) s

end Sys2Proof.Machine
end

