-- ==== Sys2Proof/Machine/Exchange.lean ====
section
/-! DEFINITION. XCHG and NOP (45_exchange_nop.md). No flag. -/

namespace Sys2Proof.Machine

/-- Both reads, then both writes (R230, R231, R287). UNVERIFIED: the order of the two writes is the spec's decision D18
(log 28). -/
def exchangeOp (w : Width) (x y : Desc) : Op Unit := do
  let t1 ← readOperand w x
  let t2 ← readOperand w y
  writeOperand w x t2
  writeOperand w y t1

/-- XCHG Eb, Gb (R230). -/
def execXchgEbGb (e : RM Reg8) (g : Reg8) (s : State) : Host.Outcome State Fault Refusal :=
  perform (exchangeOp .w8 (effective8 e s) (.reg8 g)) s

/-- XCHG Ev, Gv (R231). -/
def execXchgEvGv (e : RM Reg16) (g : Reg16) (s : State) : Host.Outcome State Fault Refusal :=
  perform (exchangeOp .w16 (effective16 e s) (.reg16 g)) s

/-- XCHG AX, r16 (R232). -/
def execXchgAxR16 (r : Reg16) (s : State) : Host.Outcome State Fault Refusal :=
  perform (exchangeOp .w16 (.reg16 .ax) (.reg16 r)) s

/-- NOP (R233). The fetch's advance of pc is its only state change. -/
def execNop (s : State) : Host.Outcome State Fault Refusal :=
  perform (pure ()) s

end Sys2Proof.Machine
end

