-- ==== Sys2Proof/Machine/Halt.lean ====
section
/-! DEFINITION. The designated halt/breakpoint (46_halt.md). -/

namespace Sys2Proof.Machine

/-- The Halt outcome, with the opcode and the cursor past it (R240). The dump it calls reads the state and changes none
of it (R241; `dumpCalled`). -/
def haltOp : Op Unit := do
  let s ← get
  throw (.halt s.cfg.haltOpcode s.pc)

/-- HLT (R240). A next state with STATUS Stopped (log 3). -/
def execHlt (s : State) : Host.Outcome State Fault Refusal :=
  perform haltOp s

end Sys2Proof.Machine
end

