-- ==== Sys2Proof/Machine/Move.lean ====
section
/-! DEFINITION. The move family (41_move.md): one read of the source, one write of the destination, no flag (R150). -/

namespace Sys2Proof.Machine

/-- Read the source, then write the destination (R150). -/
def moveOp (w : Width) (dst src : Desc) : Op Unit := do
  let v ← readOperand w src
  writeOperand w dst v

/-- MOV Eb, Gb (R151). -/
def execMovEbGb (e : RM Reg8) (g : Reg8) (s : State) : Host.Outcome State Fault Refusal :=
  perform (moveOp .w8 (effective8 e s) (.reg8 g)) s

/-- MOV Ev, Gv (R152). -/
def execMovEvGv (e : RM Reg16) (g : Reg16) (s : State) : Host.Outcome State Fault Refusal :=
  perform (moveOp .w16 (effective16 e s) (.reg16 g)) s

/-- MOV Gb, Eb (R153). -/
def execMovGbEb (e : RM Reg8) (g : Reg8) (s : State) : Host.Outcome State Fault Refusal :=
  perform (moveOp .w8 (.reg8 g) (effective8 e s)) s

/-- MOV Gv, Ev (R154). -/
def execMovGvEv (e : RM Reg16) (g : Reg16) (s : State) : Host.Outcome State Fault Refusal :=
  perform (moveOp .w16 (.reg16 g) (effective16 e s)) s

/-- MOV r8, Ib (R155). -/
def execMovR8Ib (r : Reg8) (imm : Byte) (s : State) : Host.Outcome State Fault Refusal :=
  perform (moveOp .w8 (.reg8 r) (.imm8 imm)) s

/-- MOV r16, Iv (R156). -/
def execMovR16Iv (r : Reg16) (imm : Word) (s : State) : Host.Outcome State Fault Refusal :=
  perform (moveOp .w16 (.reg16 r) (.imm16 imm)) s

/-- MOV Eb, Ib (R157). -/
def execMovEbIb (e : RM Reg8) (imm : Byte) (s : State) : Host.Outcome State Fault Refusal :=
  perform (moveOp .w8 (effective8 e s) (.imm8 imm)) s

/-- MOV Ev, Iv (R158). -/
def execMovEvIv (e : RM Reg16) (imm : Word) (s : State) : Host.Outcome State Fault Refusal :=
  perform (moveOp .w16 (effective16 e s) (.imm16 imm)) s

end Sys2Proof.Machine
end

