-- ==== Sys2Proof/Machine/Stack.lean ====
section
/-! DEFINITION. PUSH and POP of a word register (43_stack.md). -/

namespace Sys2Proof.Machine

/-- The word PUSH r16 pushes: the register before the decrement, but for SP under `PUSH_SP_VALUE` = new (R202).
UNVERIFIED: the spec's decision D16 (log 26). -/
def pushedValue (r : Reg16) (s : State) : Word :=
  if r = .sp ∧ s.cfg.pushSpValue = .new then s.regs.sp - 2 else s.regs.get16 r

/-- PUSH r16 (R202). -/
def execPushR16 (r : Reg16) (s : State) : Host.Outcome State Fault Refusal :=
  perform (push (pushedValue r s)) s

/-- Pop, then write the register: of POP SP the popped word stays (R203). UNVERIFIED: the spec's decision D17 (log 27). -/
def popOp (r : Reg16) : Op Unit := do
  let v ← pop
  writeReg16 r v

/-- POP r16 (R203). -/
def execPopR16 (r : Reg16) (s : State) : Host.Outcome State Fault Refusal :=
  perform (popOp r) s

end Sys2Proof.Machine
end

