-- ==== Sys2Proof/Machine/Dispatch.lean ====
section
/-! DEFINITION. The execute phase's dispatch: one arm per instruction (30_encoding.md R103). -/

namespace Sys2Proof.Machine

def exec (i : Instr) (s : State) : Host.Outcome State Fault Refusal :=
  match i with
  | .addEbGb e g => Sys2Proof.Machine.execAddEbGb e g s
  | .addEvGv e g => Sys2Proof.Machine.execAddEvGv e g s
  | .addGbEb e g => Sys2Proof.Machine.execAddGbEb e g s
  | .addGvEv e g => Sys2Proof.Machine.execAddGvEv e g s
  | .addAlIb imm => Sys2Proof.Machine.execAddAlIb imm s
  | .addAxIv imm => Sys2Proof.Machine.execAddAxIv imm s
  | .subEbGb e g => Sys2Proof.Machine.execSubEbGb e g s
  | .subEvGv e g => Sys2Proof.Machine.execSubEvGv e g s
  | .subGbEb e g => Sys2Proof.Machine.execSubGbEb e g s
  | .subGvEv e g => Sys2Proof.Machine.execSubGvEv e g s
  | .subAlIb imm => Sys2Proof.Machine.execSubAlIb imm s
  | .subAxIv imm => Sys2Proof.Machine.execSubAxIv imm s
  | .cmpEbGb e g => Sys2Proof.Machine.execCmpEbGb e g s
  | .cmpEvGv e g => Sys2Proof.Machine.execCmpEvGv e g s
  | .cmpGbEb e g => Sys2Proof.Machine.execCmpGbEb e g s
  | .cmpGvEv e g => Sys2Proof.Machine.execCmpGvEv e g s
  | .cmpAlIb imm => Sys2Proof.Machine.execCmpAlIb imm s
  | .cmpAxIv imm => Sys2Proof.Machine.execCmpAxIv imm s
  | .incR16 r => Sys2Proof.Machine.execIncR16 r s
  | .decR16 r => Sys2Proof.Machine.execDecR16 r s
  | .pushR16 r => Sys2Proof.Machine.execPushR16 r s
  | .popR16 r => Sys2Proof.Machine.execPopR16 r s
  | .joRel8 d => Sys2Proof.Machine.execJoRel8 d s
  | .jnoRel8 d => Sys2Proof.Machine.execJnoRel8 d s
  | .jbRel8 d => Sys2Proof.Machine.execJbRel8 d s
  | .jnbRel8 d => Sys2Proof.Machine.execJnbRel8 d s
  | .jzRel8 d => Sys2Proof.Machine.execJzRel8 d s
  | .jnzRel8 d => Sys2Proof.Machine.execJnzRel8 d s
  | .jbeRel8 d => Sys2Proof.Machine.execJbeRel8 d s
  | .jaRel8 d => Sys2Proof.Machine.execJaRel8 d s
  | .jsRel8 d => Sys2Proof.Machine.execJsRel8 d s
  | .jnsRel8 d => Sys2Proof.Machine.execJnsRel8 d s
  | .addEbIb e imm => Sys2Proof.Machine.execAddEbIb e imm s
  | .subEbIb e imm => Sys2Proof.Machine.execSubEbIb e imm s
  | .cmpEbIb e imm => Sys2Proof.Machine.execCmpEbIb e imm s
  | .addEvIv e imm => Sys2Proof.Machine.execAddEvIv e imm s
  | .subEvIv e imm => Sys2Proof.Machine.execSubEvIv e imm s
  | .cmpEvIv e imm => Sys2Proof.Machine.execCmpEvIv e imm s
  | .xchgEbGb e g => Sys2Proof.Machine.execXchgEbGb e g s
  | .xchgEvGv e g => Sys2Proof.Machine.execXchgEvGv e g s
  | .movEbGb e g => Sys2Proof.Machine.execMovEbGb e g s
  | .movEvGv e g => Sys2Proof.Machine.execMovEvGv e g s
  | .movGbEb e g => Sys2Proof.Machine.execMovGbEb e g s
  | .movGvEv e g => Sys2Proof.Machine.execMovGvEv e g s
  | .nop => Sys2Proof.Machine.execNop s
  | .xchgAxR16 r => Sys2Proof.Machine.execXchgAxR16 r s
  | .movR8Ib r imm => Sys2Proof.Machine.execMovR8Ib r imm s
  | .movR16Iv r imm => Sys2Proof.Machine.execMovR16Iv r imm s
  | .movEbIb e imm => Sys2Proof.Machine.execMovEbIb e imm s
  | .movEvIv e imm => Sys2Proof.Machine.execMovEvIv e imm s
  | .ret => Sys2Proof.Machine.execRet s
  | .callRel16 d => Sys2Proof.Machine.execCallRel16 d s
  | .jmpRel16 d => Sys2Proof.Machine.execJmpRel16 d s
  | .jmpRel8 d => Sys2Proof.Machine.execJmpRel8 d s
  | .hlt => Sys2Proof.Machine.execHlt s

end Sys2Proof.Machine
end

