-- ==== Sys2Proof/Machine/Step.lean ====
section
/-! DEFINITION. One step of the core: fetch-opcode, classify, fetch-operand-bytes, execute (30_encoding.md R95), and
placing one instruction where the next step fetches it. -/

namespace Sys2Proof.Machine

/-- What follows the execute phase of a step (R104). -/
def afterExecute (r : Host.Outcome State Fault Refusal) : Host.Outcome State Fault Refusal :=
  match r with
  | .next t => .next (endExecute t)
  | .fault f => .fault f
  | .refused f => .refused f

/-- `Step()`, enabled only while STATUS is Running (R95, R262). The decoder reads the code stream through `fetchNext`,
so the cursor of a rejected encoding is past exactly the bytes consumed (R260, R261). -/
def step (s : State) : Host.Outcome State Fault Refusal :=
  match s.status with
  | .stopped _ => .fault .stopped
  | .running =>
    match decodeFrom fetchNext s.cfg s with
    | .ok i t => afterExecute (exec i (beginExecute t))
    | .error why t => .next (rejectAt why t)

/-- The state with bytes stored from an address up, wrapping at the top. -/
def State.storeBytes (s : State) (a : Word) : List Byte → State
  | [] => s
  | b :: bs => (s.setByte a b).storeBytes (a + 1) bs

/-- The state with one instruction, numbered as opcode_table.json numbers it, stored at the cursor: what the driver's
load of that instruction does (R284 item 1, log 10). It changes memory only. -/
def State.withFetchWord (s : State) (nbits w : Nat) : State := s.storeBytes s.pc (tableWordBytes nbits w)

end Sys2Proof.Machine
end

