-- ==== Sys2Proof/Safety.lean ====
section
/-! DEFINITION. What counts as a safe run and the invariant every step keeps, in the terms the statements use. -/

namespace Sys2Proof.Machine

/-- The run has come to its only normal end (R259): the intentional stop of HLT. -/
def State.halted (s : State) : Prop := ∃ op pc, s.status = .stopped (.halt op pc)

/-- The run has failed: a fatal outcome other than Halt (R259). -/
def State.failed (s : State) : Prop := ∃ why, s.status = .stopped why ∧ why.kind ≠ .halt

/-- A state of a safe run: it goes on or has halted. -/
def State.safe (s : State) : Prop := s.status = .running ∨ s.halted

/-- A fatal outcome a program can reach under the admitted tables (R254, R256, R257), with the info R251 gives it, and
the phase it is raised in (R95, R260). -/
def Fatal.raisedIn : Fatal → Phase → Prop
  | .halt _ _, p => p = .execute
  | .unknownOpcode _, p => p = .classify
  | .miscategorized _ _, _ => False
  | .groupSubop _ _, p => p = .fetchOperandBytes
  | .addressingMode _ _, p => p = .fetchOperandBytes
  | .writeImmediate _, _ => False
  | .widthMismatch _ _, _ => False
  | .addressRange a, p => a = 0x10000 ∧ p ≠ .classify

/-- What every step keeps. -/
structure Inv (s : State) : Prop where
  /-- memory is in its canonical form, inside the address space (R51) -/
  memory : s.mem.wf
  /-- between instructions the dispatcher phase is fetch-opcode (R36) -/
  phase : s.status = .running → s.phase = .fetchOpcode
  /-- a stopped run rests in the phase that raised a reachable fatal outcome (R260, R261) -/
  stop : ∀ why, s.status = .stopped why → why.raisedIn s.phase

/-! ## Operands, as the statements speak of them -/

/-- The descriptor has the width (R69). -/
def Desc.hasWidth (w : Width) : Desc → Prop
  | .reg8 _ => w = .w8
  | .reg16 _ => w = .w16
  | .mem _ => True
  | .imm8 _ => w = .w8
  | .imm16 _ => w = .w16

/-- The descriptor can be written through (R68). -/
def Desc.writable : Desc → Prop
  | .reg8 _ => True
  | .reg16 _ => True
  | .mem _ => True
  | .imm8 _ => False
  | .imm16 _ => False

/-- No access at that width raises AddressRange (R54): a word in memory does not start at 0xFFFF, unless accesses
wrap. -/
def State.accessible (s : State) (w : Width) (d : Desc) : Prop :=
  ∀ a, w = .w16 → d = .mem a → a ≠ 0xFFFF#16 ∨ s.cfg.topWrap = true

/-- The value an operand has in a state (R53, R63, R64, R65); 0 where the width does not match. -/
def State.valueAt (s : State) : (w : Width) → Desc → BitVec w.bits
  | .w8, .reg8 r => s.regs.get8 r
  | .w8, .mem a => s.byteAt a
  | .w8, .imm8 v => v
  | .w16, .reg16 r => s.regs.get16 r
  | .w16, .mem a => joinBytes (s.byteAt (a + 1)) (s.byteAt a)
  | .w16, .imm16 v => v
  | .w8, .reg16 _ => 0
  | .w8, .imm16 _ => 0
  | .w16, .reg8 _ => 0
  | .w16, .imm8 _ => 0

/-- The addresses of the bytes a write through the descriptor stores (R53, R54, R67). -/
def Desc.storedBytes : Width → Desc → List Word
  | .w8, .mem a => [a]
  | .w16, .mem a => [a, a + 1]
  | _, .reg8 _ => []
  | _, .reg16 _ => []
  | _, .imm8 _ => []
  | _, .imm16 _ => []

/-- The descriptor names the word register or a half of it (R23). -/
def Desc.touches16 (d : Desc) (r : Reg16) : Prop := d = .reg16 r ∨ ∃ b, d = .reg8 b ∧ parentOf b = r

/-- The descriptor names the byte register or its parent (R23). -/
def Desc.touches8 (d : Desc) (b : Reg8) : Prop := d = .reg8 b ∨ d = .reg16 (parentOf b)

/-- From `s` to `t` no register and no byte of memory changes but through the given descriptors. -/
structure OnlyThrough (ds : List (Width × Desc)) (s t : State) : Prop where
  words : ∀ r, (∀ p ∈ ds, ¬ p.2.touches16 r) → t.regs.get16 r = s.regs.get16 r
  halves : ∀ b, (∀ p ∈ ds, ¬ p.2.touches8 b) → t.regs.get8 b = s.regs.get8 b
  bytes : ∀ a, (∀ p ∈ ds, a ∉ p.2.storedBytes p.1) → t.byteAt a = s.byteAt a

/-- pc, STATUS, phase and parameters are as they were. -/
structure SameControl (s t : State) : Prop where
  pc : t.pc = s.pc
  status : t.status = s.status
  phase : t.phase = s.phase
  cfg : t.cfg = s.cfg

/-- The state stopped by AddressRange, with nothing else changed (R54, R251). -/
def stoppedBeyondTop (s : State) : State := { s with status := .stopped (.addressRange 0x10000) }

/-- The bytes stand at the cursor and can be fetched from there (R56). -/
def State.codeAt (s : State) (bytes : List Byte) : Prop :=
  ∀ (k : Nat) (h : k < bytes.length),
    s.byteAt (s.pc + BitVec.ofNat 16 k) = bytes[k] ∧
      (s.pc + BitVec.ofNat 16 k ≠ 0xFFFF#16 ∨ s.cfg.topWrap = true)

end Sys2Proof.Machine
end

