-- ==== Sys2Proof/Certificates/Slice0/Obligations.lean ====
section
/-! DEFINITION. The statements for the provers. Each docstring names the rule of spec/ the statement formalises; where a
statement rests on one of the spec's own decisions D<n> it says so. -/

open Sys2Proof Sys2Proof.Machine

namespace Sys2Proof.Claims

/-- `target8(d8)`: the cursor plus the byte read as signed, modulo 2^16 (R210). -/
def target8 (pc : Word) (d : Byte) : Word := BitVec.ofInt 16 (pc.toNat + d.toInt)

/-- `target16(d16)`: the cursor plus the word, modulo 2^16 (R210). -/
def target16 (pc : Word) (d : Word) : Word := BitVec.ofInt 16 (pc.toNat + d.toInt)

/-- `ArithOp` (R170): the instruction completes, commits the primitive's four flags, writes the primitive's result to `a`
if `writeback`, and changes nothing else. -/
def ArithEffect (i : Instr) (kind : AluKind) (w : Width) (writeback : Bool) (a b : Desc) (s : State) : Prop :=
  ∃ t, exec i s = .next t ∧ SameControl s t ∧
    t.flags = (alu kind (s.valueAt w a) (s.valueAt w b)).flags ∧
    (if writeback = true then
      t.valueAt w a = (alu kind (s.valueAt w a) (s.valueAt w b)).r ∧ OnlyThrough [(w, a)] s t
    else OnlyThrough [] s t)

/-- A move (R150): the instruction completes, `dst` gets `src`'s value, and nothing else changes, no flag either. -/
def MoveEffect (i : Instr) (w : Width) (dst src : Desc) (s : State) : Prop :=
  ∃ t, exec i s = .next t ∧ SameControl s t ∧ t.flags = s.flags ∧
    t.valueAt w dst = s.valueAt w src ∧ OnlyThrough [(w, dst)] s t

/-- An exchange (R230): the instruction completes, the two operands have swapped values, and nothing else changes. -/
def ExchangeEffect (i : Instr) (w : Width) (x y : Desc) (s : State) : Prop :=
  ∃ t, exec i s = .next t ∧ SameControl s t ∧ t.flags = s.flags ∧
    t.valueAt w x = s.valueAt w y ∧ t.valueAt w y = s.valueAt w x ∧ OnlyThrough [(w, x), (w, y)] s t

/-- A word form with effective operand `e`: it has the effect where the operand can be accessed, and stops with
AddressRange, nothing written, where it cannot (R54). -/
def WordForm (e : RM Reg16) (i : Instr) (effect : State → Prop) : Prop :=
  ∀ s : State,
    (s.accessible .w16 (effective16 e s) → effect s) ∧
    (¬ s.accessible .w16 (effective16 e s) → exec i s = .next (stoppedBeyondTop s))

/-- The destinations of an instruction in the state it executes in: every register it names as a destination, SP for
PUSH, POP, CALL and RET, and the bytes it stores to. -/
def destinations : Instr → State → List (Width × Desc)
  | .addEbGb e _, s => [(.w8, effective8 e s)]
  | .addEvGv e _, s => [(.w16, effective16 e s)]
  | .addGbEb _ g, _ => [(.w8, .reg8 g)]
  | .addGvEv _ g, _ => [(.w16, .reg16 g)]
  | .addAlIb _, _ => [(.w8, .reg8 .al)]
  | .addAxIv _, _ => [(.w16, .reg16 .ax)]
  | .subEbGb e _, s => [(.w8, effective8 e s)]
  | .subEvGv e _, s => [(.w16, effective16 e s)]
  | .subGbEb _ g, _ => [(.w8, .reg8 g)]
  | .subGvEv _ g, _ => [(.w16, .reg16 g)]
  | .subAlIb _, _ => [(.w8, .reg8 .al)]
  | .subAxIv _, _ => [(.w16, .reg16 .ax)]
  | .cmpEbGb _ _, _ => []
  | .cmpEvGv _ _, _ => []
  | .cmpGbEb _ _, _ => []
  | .cmpGvEv _ _, _ => []
  | .cmpAlIb _, _ => []
  | .cmpAxIv _, _ => []
  | .incR16 r, _ => [(.w16, .reg16 r)]
  | .decR16 r, _ => [(.w16, .reg16 r)]
  | .pushR16 _, s => [(.w16, .reg16 .sp), (.w16, .mem (s.regs.sp - 2))]
  | .popR16 r, _ => [(.w16, .reg16 .sp), (.w16, .reg16 r)]
  | .joRel8 _, _ => []
  | .jnoRel8 _, _ => []
  | .jbRel8 _, _ => []
  | .jnbRel8 _, _ => []
  | .jzRel8 _, _ => []
  | .jnzRel8 _, _ => []
  | .jbeRel8 _, _ => []
  | .jaRel8 _, _ => []
  | .jsRel8 _, _ => []
  | .jnsRel8 _, _ => []
  | .addEbIb e _, s => [(.w8, effective8 e s)]
  | .subEbIb e _, s => [(.w8, effective8 e s)]
  | .cmpEbIb _ _, _ => []
  | .addEvIv e _, s => [(.w16, effective16 e s)]
  | .subEvIv e _, s => [(.w16, effective16 e s)]
  | .cmpEvIv _ _, _ => []
  | .xchgEbGb e g, s => [(.w8, effective8 e s), (.w8, .reg8 g)]
  | .xchgEvGv e g, s => [(.w16, effective16 e s), (.w16, .reg16 g)]
  | .movEbGb e _, s => [(.w8, effective8 e s)]
  | .movEvGv e _, s => [(.w16, effective16 e s)]
  | .movGbEb _ g, _ => [(.w8, .reg8 g)]
  | .movGvEv _ g, _ => [(.w16, .reg16 g)]
  | .nop, _ => []
  | .xchgAxR16 r, _ => [(.w16, .reg16 .ax), (.w16, .reg16 r)]
  | .movR8Ib r _, _ => [(.w8, .reg8 r)]
  | .movR16Iv r _, _ => [(.w16, .reg16 r)]
  | .movEbIb e _, s => [(.w8, effective8 e s)]
  | .movEvIv e _, s => [(.w16, effective16 e s)]
  | .ret, _ => [(.w16, .reg16 .sp)]
  | .callRel16 _, s => [(.w16, .reg16 .sp), (.w16, .mem (s.regs.sp - 2))]
  | .jmpRel16 _, _ => []
  | .jmpRel8 _, _ => []
  | .hlt, _ => []

/-- The instruction writes the flags (R31, R142). -/
def writesFlags : Instr → Bool
  | .addEbGb _ _ => true
  | .addEvGv _ _ => true
  | .addGbEb _ _ => true
  | .addGvEv _ _ => true
  | .addAlIb _ => true
  | .addAxIv _ => true
  | .subEbGb _ _ => true
  | .subEvGv _ _ => true
  | .subGbEb _ _ => true
  | .subGvEv _ _ => true
  | .subAlIb _ => true
  | .subAxIv _ => true
  | .cmpEbGb _ _ => true
  | .cmpEvGv _ _ => true
  | .cmpGbEb _ _ => true
  | .cmpGvEv _ _ => true
  | .cmpAlIb _ => true
  | .cmpAxIv _ => true
  | .incR16 _ => true
  | .decR16 _ => true
  | .pushR16 _ => false
  | .popR16 _ => false
  | .joRel8 _ => false
  | .jnoRel8 _ => false
  | .jbRel8 _ => false
  | .jnbRel8 _ => false
  | .jzRel8 _ => false
  | .jnzRel8 _ => false
  | .jbeRel8 _ => false
  | .jaRel8 _ => false
  | .jsRel8 _ => false
  | .jnsRel8 _ => false
  | .addEbIb _ _ => true
  | .subEbIb _ _ => true
  | .cmpEbIb _ _ => true
  | .addEvIv _ _ => true
  | .subEvIv _ _ => true
  | .cmpEvIv _ _ => true
  | .xchgEbGb _ _ => false
  | .xchgEvGv _ _ => false
  | .movEbGb _ _ => false
  | .movEvGv _ _ => false
  | .movGbEb _ _ => false
  | .movGvEv _ _ => false
  | .nop => false
  | .xchgAxR16 _ => false
  | .movR8Ib _ _ => false
  | .movR16Iv _ _ => false
  | .movEbIb _ _ => false
  | .movEvIv _ _ => false
  | .ret => false
  | .callRel16 _ => false
  | .jmpRel16 _ => false
  | .jmpRel8 _ => false
  | .hlt => false

/-- The instruction is a control transfer (44_control.md). -/
def transfersControl : Instr → Bool
  | .addEbGb _ _ => false
  | .addEvGv _ _ => false
  | .addGbEb _ _ => false
  | .addGvEv _ _ => false
  | .addAlIb _ => false
  | .addAxIv _ => false
  | .subEbGb _ _ => false
  | .subEvGv _ _ => false
  | .subGbEb _ _ => false
  | .subGvEv _ _ => false
  | .subAlIb _ => false
  | .subAxIv _ => false
  | .cmpEbGb _ _ => false
  | .cmpEvGv _ _ => false
  | .cmpGbEb _ _ => false
  | .cmpGvEv _ _ => false
  | .cmpAlIb _ => false
  | .cmpAxIv _ => false
  | .incR16 _ => false
  | .decR16 _ => false
  | .pushR16 _ => false
  | .popR16 _ => false
  | .joRel8 _ => true
  | .jnoRel8 _ => true
  | .jbRel8 _ => true
  | .jnbRel8 _ => true
  | .jzRel8 _ => true
  | .jnzRel8 _ => true
  | .jbeRel8 _ => true
  | .jaRel8 _ => true
  | .jsRel8 _ => true
  | .jnsRel8 _ => true
  | .addEbIb _ _ => false
  | .subEbIb _ _ => false
  | .cmpEbIb _ _ => false
  | .addEvIv _ _ => false
  | .subEvIv _ _ => false
  | .cmpEvIv _ _ => false
  | .xchgEbGb _ _ => false
  | .xchgEvGv _ _ => false
  | .movEbGb _ _ => false
  | .movEvGv _ _ => false
  | .movGbEb _ _ => false
  | .movGvEv _ _ => false
  | .nop => false
  | .xchgAxR16 _ => false
  | .movR8Ib _ _ => false
  | .movR16Iv _ _ => false
  | .movEbIb _ _ => false
  | .movEvIv _ _ => false
  | .ret => true
  | .callRel16 _ => true
  | .jmpRel16 _ => true
  | .jmpRel8 _ => true
  | .hlt => false

/-- Where `pc` is after the instruction completes, `p` being the address after its last byte (R30). -/
def nextPc (s : State) (p : Word) : Instr → Word
  | .addEbGb _ _ => p
  | .addEvGv _ _ => p
  | .addGbEb _ _ => p
  | .addGvEv _ _ => p
  | .addAlIb _ => p
  | .addAxIv _ => p
  | .subEbGb _ _ => p
  | .subEvGv _ _ => p
  | .subGbEb _ _ => p
  | .subGvEv _ _ => p
  | .subAlIb _ => p
  | .subAxIv _ => p
  | .cmpEbGb _ _ => p
  | .cmpEvGv _ _ => p
  | .cmpGbEb _ _ => p
  | .cmpGvEv _ _ => p
  | .cmpAlIb _ => p
  | .cmpAxIv _ => p
  | .incR16 _ => p
  | .decR16 _ => p
  | .pushR16 _ => p
  | .popR16 _ => p
  | .joRel8 d => if s.flags.o = true then target8 p d else p
  | .jnoRel8 d => if s.flags.o = false then target8 p d else p
  | .jbRel8 d => if s.flags.c = true then target8 p d else p
  | .jnbRel8 d => if s.flags.c = false then target8 p d else p
  | .jzRel8 d => if s.flags.z = true then target8 p d else p
  | .jnzRel8 d => if s.flags.z = false then target8 p d else p
  | .jbeRel8 d => if (s.flags.c = true ∨ s.flags.z = true) then target8 p d else p
  | .jaRel8 d => if ¬ (s.flags.c = true ∨ s.flags.z = true) then target8 p d else p
  | .jsRel8 d => if s.flags.s = true then target8 p d else p
  | .jnsRel8 d => if s.flags.s = false then target8 p d else p
  | .addEbIb _ _ => p
  | .subEbIb _ _ => p
  | .cmpEbIb _ _ => p
  | .addEvIv _ _ => p
  | .subEvIv _ _ => p
  | .cmpEvIv _ _ => p
  | .xchgEbGb _ _ => p
  | .xchgEvGv _ _ => p
  | .movEbGb _ _ => p
  | .movEvGv _ _ => p
  | .movGbEb _ _ => p
  | .movGvEv _ _ => p
  | .nop => p
  | .xchgAxR16 _ => p
  | .movR8Ib _ _ => p
  | .movR16Iv _ _ => p
  | .movEbIb _ _ => p
  | .movEvIv _ _ => p
  | .ret => s.valueAt .w16 (.mem s.regs.sp)
  | .callRel16 d => target16 p d
  | .jmpRel16 d => target16 p d
  | .jmpRel8 d => target8 p d
  | .hlt => p

/-- `Base(mod, rm)` over the naturals (R85), by the ModR/M byte's own numbers. -/
def baseByRule (x : Regs) (mod rm : Nat) : Nat :=
  match rm with
  | 0 => x.bx.toNat + x.si.toNat
  | 1 => x.bx.toNat + x.di.toNat
  | 2 => x.bp.toNat + x.si.toNat
  | 3 => x.bp.toNat + x.di.toNat
  | 4 => x.si.toNat
  | 5 => x.di.toNat
  | 6 => if mod = 0 then 0 else x.bp.toNat
  | _ => x.bx.toNat

/-- `Disp(mod, rm)` over the integers (R86), from the bytes after the ModR/M byte. -/
def dispByRule (mod rm : Nat) (tail : List Byte) : Int :=
  match mod with
  | 0 => if rm = 6 then (tail.getD 0 0).toNat + 256 * (tail.getD 1 0).toNat else 0
  | 1 => (tail.getD 0 0).toInt
  | _ => (tail.getD 0 0).toNat + 256 * (tail.getD 1 0).toNat

/-- `DispLen(mod, rm)` (R105). -/
def dispLen (mod rm : Nat) : Nat :=
  match mod with
  | 0 => if rm = 6 then 2 else 0
  | 1 => 1
  | 2 => 2
  | _ => 0

/-- `Len(op, m)` (R105), on R97's map; a byte the map leaves out is HLT's, of length 1. -/
def lengthByRule (op m : Byte) : Nat :=
  match mappedCategory op with
  | some .imm8 => 2
  | some .imm16 => 3
  | some .modrm8 => 2 + dispLen (m.toNat / 64) (m.toNat % 8)
  | some .modrm16 => 2 + dispLen (m.toNat / 64) (m.toNat % 8)
  | some .group =>
    2 + dispLen (m.toNat / 64) (m.toNat % 8) + (if op = 0x80#8 ∨ op = 0xC6#8 then 1 else 2)
  | some .noOperand => 1
  | some .special => 1
  | none => 1

/-- The GROUP rows of R101's table. -/
def groupTable : List (Byte × BitVec 3 × Row) :=
  [(0x80#8, 0, .addEbIb), (0x80#8, 5, .subEbIb), (0x80#8, 7, .cmpEbIb),
   (0x81#8, 0, .addEvIv), (0x81#8, 5, .subEvIv), (0x81#8, 7, .cmpEvIv),
   (0xC6#8, 0, .movEbIb), (0xC7#8, 0, .movEvIv)]

/-- How many of the 256 opcode bytes have the category under the default parameters (R97). -/
def bytesOf (cat : Option Category) : Nat :=
  ((List.range 256).filter fun k => decide (categoryAt Config.standard (BitVec.ofNat 8 k) = cat)).length

end Sys2Proof.Claims

open Sys2Proof.Claims

/-! ## Reset and stopping -/

/-- R281, R282: at reset the dispatcher phase is fetch-opcode and STATUS is Running, with no kind. -/
def Obligations.ResetIsRunningAtFetchOpcode : Prop :=
  State.reset.phase = .fetchOpcode ∧ State.reset.status = .running ∧ State.reset.status.kind = none

/-- The invariant holds at reset (derived; its memory clause is about the empty memory of logs 1 and 2). -/
def Obligations.ResetMeetsInvariant : Prop := Inv State.reset

/-- R262: once STATUS is Stopped the core takes no further step. -/
def Obligations.StoppedMachineTakesNoStep : Prop :=
  ∀ s why, s.status = .stopped why → step s = .fault .stopped

/-- R250: a step of a Running machine always has an outcome, a next state; it never faults and is never refused. -/
def Obligations.RunningMachineAlwaysSteps : Prop :=
  ∀ s, s.status = .running → ∃ t, step s = .next t

/-! ## Decoding and encoding -/

/-- Words written out from the spec's encodings decode to the instructions they stand for (R155, R154, R178, R221, R213,
R232, R196, R240, R202, R171). -/
def Obligations.SpecEncodingsDecode : Prop :=
  decode Config.standard [0xB0, 0x05] = .ok (.movR8Ib .al 0x05) [] ∧
  decode Config.standard [0x8B, 0x4E, 0xFE] = .ok (.movGvEv (.disp8 .bp 0xFE) .cx) [] ∧
  decode Config.standard [0x81, 0x47, 0x02, 0x01, 0x00] = .ok (.addEvIv (.disp8 .bx 0x02) 0x0001) [] ∧
  decode Config.standard [0x75, 0xFB] = .ok (.jnzRel8 0xFB) [] ∧
  decode Config.standard [0xE8, 0x05, 0x00] = .ok (.callRel16 0x0005) [] ∧
  decode Config.standard [0x93] = .ok (.xchgAxR16 .bx) [] ∧
  decode Config.standard [0x49] = .ok (.decR16 .cx) [] ∧
  decode Config.standard [0xF4] = .ok .hlt [] ∧
  decode Config.standard [0x50] = .ok (.pushR16 .ax) [] ∧
  decode Config.standard [0x00, 0xD8] = .ok (.addEbGb (.reg .al) .bl) []

/-- R97 on the default parameters: the map's counts, its agreement with the handler table, and no overlapping claim
but among the GROUP rows of one byte, which differ in their sub-selector. -/
def Obligations.CategoryMapMatchesRows : Prop :=
  (bytesOf (some .noOperand) = 41 ∧ bytesOf (some .imm8) = 22 ∧ bytesOf (some .imm16) = 13 ∧
    bytesOf (some .modrm8) = 9 ∧ bytesOf (some .modrm16) = 9 ∧ bytesOf (some .group) = 4 ∧
    bytesOf (some .special) = 1 ∧ bytesOf none = 157) ∧
  (∀ op : Byte, mappedCategory op = none ↔ fixedRowsAt op = []) ∧
  (∀ op : Byte, ∀ r ∈ fixedRowsAt op, mappedCategory op = some r.category) ∧
  (∀ op : Byte, (fixedRowsAt op).Pairwise fun r q => r.sub ≠ q.sub)

/-- Decoding an encoded instruction gives it back, with every operand at every value the encoding admits, under every
setting of the parameters that admits it, and leaves the bytes after it. `admitted` leaves HLT out where another row
claims HALT_OPCODE, the model's DESIGN CHOICE (log 5). -/
def Obligations.DecodeOfEncode : Prop :=
  ∀ (c : Config) (i : Instr) (rest : List Byte), i.wf = true → i.admitted c = true →
    decode c (encode c i ++ rest) = .ok i rest

/-- Every instruction the decoder reads is well-formed and admitted, and the bytes it consumed are that instruction's
encoding: no two encodings of one instruction, and no other byte sequence decodes. That a HALT_OPCODE another row claims
is no encoding of HLT (in `admitted`) is the model's DESIGN CHOICE (log 5). -/
def Obligations.DecodedBytesAreTheEncoding : Prop :=
  ∀ (c : Config) (bytes rest : List Byte) (i : Instr), decode c bytes = .ok i rest →
    i.wf = true ∧ i.admitted c = true ∧ bytes = encode c i ++ rest

/-- R80, R105: the length of an instruction follows from its first two bytes, and is 1 to 6. -/
def Obligations.EncodedLengthByRule : Prop :=
  ∀ (c : Config) (bytes : List Byte) (i : Instr), decode c bytes = .ok i [] →
    bytes.length = lengthByRule (bytes.getD 0 0) (bytes.getD 1 0) ∧ 1 ≤ bytes.length ∧ bytes.length ≤ 6

/-- R82 to R87 (formulas and displacements are the spec's decisions D7, D8): the ModR/M decoder's operand resolves, for
all register values, to the register or address the byte's own `mod` and `rm` numbers select, and the raw `reg` field
is bits 5..3. Width 16 and width 8. -/
def Obligations.ModrmResolvesByRule : Prop :=
  ∀ (c : Config) (op m : Byte) (tail rest : List Byte) (x : Regs) (reg : BitVec 3),
    (∀ e, decodeModrm listStream Reg16.ofNum c op (m :: tail) = .ok (e, reg) rest →
      reg.toNat = m.toNat / 8 % 8 ∧
      resolve .reg16 x e =
        if m.toNat / 64 = 3 then .reg16 (Reg16.ofNum (BitVec.ofNat 3 (m.toNat % 8)))
        else .mem (BitVec.ofInt 16
          (baseByRule x (m.toNat / 64) (m.toNat % 8) + dispByRule (m.toNat / 64) (m.toNat % 8) tail))) ∧
    (∀ e, decodeModrm listStream Reg8.ofNum c op (m :: tail) = .ok (e, reg) rest →
      reg.toNat = m.toNat / 8 % 8 ∧
      resolve .reg8 x e =
        if m.toNat / 64 = 3 then .reg8 (Reg8.ofNum (BitVec.ofNat 3 (m.toNat % 8)))
        else .mem (BitVec.ofInt 16
          (baseByRule x (m.toNat / 64) (m.toNat % 8) + dispByRule (m.toNat / 64) (m.toNat % 8) tail)))

/-- R89: the ModR/M decoder changes no state but pc, by 1 and the displacement's 0, 1 or 2 bytes; where it stops, it has
moved pc alone too. At either width's register naming. -/
def Obligations.ModrmDecoderMovesOnlyCursor : Prop :=
  ∀ (s : State) (c : Config) (op : Byte) (ρ : Type) (regOf : BitVec 3 → ρ),
    match decodeModrm fetchNext regOf c op s with
    | .ok p t => p.1.dispBytes.length ≤ 2 ∧ t = { s with pc := s.pc + BitVec.ofNat 16 (1 + p.1.dispBytes.length) }
    | .error _ t => ∃ k, k ≤ 2 ∧ t = { s with pc := s.pc + BitVec.ofNat 16 k }

/-! ## Registers, memory, operands -/

/-- R25: a write to the 8-bit register numbered i replaces only its half of the parent, word register i or i - 4, and every
other word register keeps its value. -/
def Obligations.ByteRegisterWriteReplacesHalf : Prop :=
  ∀ (x : Regs) (b : Reg8) (v : Byte),
    let parent := if b.num.toNat < 4 then Reg16.ofNum b.num else Reg16.ofNum (b.num - 4)
    ((x.set8 b v).get16 parent).toNat =
      (if b.num.toNat < 4 then 256 * ((x.get16 parent).toNat / 256) + v.toNat
       else 256 * v.toNat + (x.get16 parent).toNat % 256) ∧
    (∀ r, r ≠ parent → (x.set8 b v).get16 r = x.get16 r)

/-- R23: the 8-bit register numbered i is bits 7..0 of word register i for i < 4, and bits 15..8 of word register
i - 4 for i ≥ 4. -/
def Obligations.ByteRegistersAreHalves : Prop :=
  ∀ (x : Regs) (b : Reg8),
    (x.get8 b).toNat =
      if b.num.toNat < 4 then (x.get16 (Reg16.ofNum b.num)).toNat % 256
      else (x.get16 (Reg16.ofNum (b.num - 4))).toNat / 256

/-- R41: the join of two bytes is `hi * 256 + lo`, the split of a word is its low and its high byte, and splitting a join
returns the two bytes. -/
def Obligations.SplitOfJoin : Prop :=
  (∀ hi lo : Byte, (joinBytes hi lo).toNat = 256 * hi.toNat + lo.toNat ∧
    lowByte (joinBytes hi lo) = lo ∧ highByte (joinBytes hi lo) = hi) ∧
  ∀ w : Word, (lowByte w).toNat = w.toNat % 256 ∧ (highByte w).toNat = w.toNat / 256

/-- R52: a byte written is the byte read there, every other address keeps its byte, and a byte access at any address
succeeds. -/
def Obligations.ByteWriteThenRead : Prop :=
  ∀ (s : State) (a : Word) (v : Byte), ∃ t, writeByte a v s = .ok ⟨⟩ t ∧ readByte a t = .ok v t ∧
    ∀ b, b ≠ a → readByte b t = .ok (s.byteAt b) t

/-- R53, R54 (the top of memory is the spec's decision D6): a word access is two byte accesses, low byte first; at 0xFFFF
it wraps under TOP_WRAP and otherwise raises AddressRange with nothing read or written. -/
def Obligations.WordAccessIsLittleEndian : Prop :=
  ∀ (s : State) (a v : Word),
    (a ≠ 0xFFFF#16 ∨ s.cfg.topWrap = true →
      readWord a s = .ok (BitVec.ofNat 16 (256 * (s.byteAt (a + 1)).toNat + (s.byteAt a).toNat)) s ∧
      ∃ t, writeWord a v s = .ok ⟨⟩ t ∧ SameControl s t ∧ t.flags = s.flags ∧ t.regs = s.regs ∧
        (t.byteAt a).toNat = v.toNat % 256 ∧ (t.byteAt (a + 1)).toNat = v.toNat / 256 ∧
        ∀ b, b ≠ a → b ≠ a + 1 → t.byteAt b = s.byteAt b) ∧
    (a = 0xFFFF#16 → s.cfg.topWrap = false →
      readWord a s = .error (.addressRange 0x10000) s ∧ writeWord a v s = .error (.addressRange 0x10000) s)

/-- The canonical form is one: well-formed memories that read alike at every address are equal data (derived). -/
def Obligations.CanonicalMemoriesThatReadAlikeAreEqual : Prop :=
  ∀ m n : Memory, m.wf → n.wf → (∀ a, m.get a = n.get a) → m = n

/-- R68: a write through an immediate descriptor is WriteImmediate at every width, and writes nothing. -/
def Obligations.WriteThroughImmediateIsFatal : Prop :=
  ∀ (s : State) (w : Width) (x : BitVec w.bits),
    (∀ v, writeOperand w (.imm8 v) x s = .error (.writeImmediate (.imm8 v)) s) ∧
    (∀ v, writeOperand w (.imm16 v) x s = .error (.writeImmediate (.imm16 v)) s)

/-- R69, for the reads and the register writes it names: an operand at the wrong width is WidthMismatch (a write through
an immediate is WriteImmediate, R68, log 6). -/
def Obligations.WidthMismatchIsFatal : Prop :=
  ∀ (s : State) (r : Reg8) (q : Reg16) (v8 : Byte) (v16 : Word),
    readOperand .w16 (.reg8 r) s = .error (.widthMismatch (.reg8 r) .w16) s ∧
    readOperand .w16 (.imm8 v8) s = .error (.widthMismatch (.imm8 v8) .w16) s ∧
    readOperand .w8 (.reg16 q) s = .error (.widthMismatch (.reg16 q) .w8) s ∧
    readOperand .w8 (.imm16 v16) s = .error (.widthMismatch (.imm16 v16) .w8) s ∧
    writeOperand .w16 (.reg8 r) v16 s = .error (.widthMismatch (.reg8 r) .w16) s ∧
    writeOperand .w8 (.reg16 q) v8 s = .error (.widthMismatch (.reg16 q) .w8) s

/-! ## The arithmetic primitives -/

/-- R131, R132, R133 at both widths: result, carry and overflow of an addition. -/
def Obligations.AdditionResultAndFlags : Prop :=
  ∀ (w : Width) (a b : BitVec w.bits),
    let res := addN a b
    res.r.toNat = (a.toNat + b.toNat) % 2 ^ w.bits ∧
    (res.flags.c = true ↔ 2 ^ w.bits ≤ a.toNat + b.toNat) ∧
    (res.flags.o = true ↔
      (2 ^ (w.bits - 1) ≤ a.toNat ↔ 2 ^ (w.bits - 1) ≤ b.toNat) ∧
      ¬ (2 ^ (w.bits - 1) ≤ res.r.toNat ↔ 2 ^ (w.bits - 1) ≤ a.toNat))

/-- R134, R136 at both widths: result and overflow of a subtraction, left minus right. -/
def Obligations.SubtractionResultAndFlags : Prop :=
  ∀ (w : Width) (a b : BitVec w.bits),
    let res := subN a b
    res.r.toNat = (a.toNat + 2 ^ w.bits - b.toNat) % 2 ^ w.bits ∧
    (res.flags.o = true ↔
      (a.toNat < 2 ^ (w.bits - 1) ∧ 2 ^ (w.bits - 1) ≤ b.toNat ∧ 2 ^ (w.bits - 1) ≤ res.r.toNat) ∨
      (2 ^ (w.bits - 1) ≤ a.toNat ∧ b.toNat < 2 ^ (w.bits - 1) ∧ res.r.toNat < 2 ^ (w.bits - 1)))

/-- R137, R138 at both widths and for both kinds: sign is the most significant bit of the result, zero is a zero result. -/
def Obligations.SignAndZeroOfResult : Prop :=
  ∀ (kind : AluKind) (w : Width) (a b : BitVec w.bits),
    let res := alu kind a b
    (res.flags.s = true ↔ 2 ^ (w.bits - 1) ≤ res.r.toNat) ∧ (res.flags.z = true ↔ res.r = 0)

/-- R135 and R144 (the spec's own derivations): the carry of a subtraction is a borrow, carries by comparison with the
result, and overflow is exactly the signed result leaving the width's range. -/
def Obligations.CarryAndOverflowCharacterised : Prop :=
  ∀ (w : Width) (a b : BitVec w.bits),
    ((addN a b).flags.c = true ↔ (addN a b).r.toNat < a.toNat) ∧
    ((subN a b).flags.c = true ↔ a.toNat < b.toNat) ∧
    ((addN a b).flags.o = true ↔
      (a.toInt + b.toInt < -(2 ^ (w.bits - 1)) ∨ 2 ^ (w.bits - 1) ≤ a.toInt + b.toInt)) ∧
    ((subN a b).flags.o = true ↔
      (a.toInt - b.toInt < -(2 ^ (w.bits - 1)) ∨ 2 ^ (w.bits - 1) ≤ a.toInt - b.toInt))

/-! ## What each instruction does -/

/-- MOV of bytes (R150, R151, R153, R155, R157): every form completes in every state, copies the value, and changes
nothing else, no flag either. -/
def Obligations.MoveByteForms : Prop :=
  ∀ s : State,
    (∀ e g, MoveEffect (.movEbGb e g) .w8 (effective8 e s) (.reg8 g) s) ∧
    (∀ e g, MoveEffect (.movGbEb e g) .w8 (.reg8 g) (effective8 e s) s) ∧
    (∀ r imm, MoveEffect (.movR8Ib r imm) .w8 (.reg8 r) (.imm8 imm) s) ∧
    (∀ e imm, MoveEffect (.movEbIb e imm) .w8 (effective8 e s) (.imm8 imm) s)

/-- MOV of words (R150, R152, R154, R156, R158): every form completes where its effective operand can be accessed, and
stops with AddressRange, nothing written, where it cannot (R54, the spec's decision D6). -/
def Obligations.MoveWordForms : Prop :=
  (∀ e g, WordForm e (.movEvGv e g) fun s => MoveEffect (.movEvGv e g) .w16 (effective16 e s) (.reg16 g) s) ∧
  (∀ e g, WordForm e (.movGvEv e g) fun s => MoveEffect (.movGvEv e g) .w16 (.reg16 g) (effective16 e s) s) ∧
  (∀ r imm s, MoveEffect (.movR16Iv r imm) .w16 (.reg16 r) (.imm16 imm) s) ∧
  (∀ e imm, WordForm e (.movEvIv e imm) fun s => MoveEffect (.movEvIv e imm) .w16 (effective16 e s) (.imm16 imm) s)

/-- ADD of bytes (R170): every form completes in every state, writes
all four flags, and changes its left operand and nothing else. -/
def Obligations.AddByteForms : Prop :=
  ∀ s : State,
    (∀ e g, ArithEffect (.addEbGb e g) .add .w8 true (effective8 e s) (.reg8 g) s) ∧
    (∀ e g, ArithEffect (.addGbEb e g) .add .w8 true (.reg8 g) (effective8 e s) s) ∧
    (∀ imm, ArithEffect (.addAlIb imm) .add .w8 true (.reg8 .al) (.imm8 imm) s) ∧
    (∀ e imm, ArithEffect (.addEbIb e imm) .add .w8 true (effective8 e s) (.imm8 imm) s)

/-- ADD of words (R170): every form completes where its effective operand can be accessed,
and stops with AddressRange, nothing written, where it cannot (R54, the spec's decision D6). -/
def Obligations.AddWordForms : Prop :=
  (∀ e g, WordForm e (.addEvGv e g) fun s =>
    ArithEffect (.addEvGv e g) .add .w16 true (effective16 e s) (.reg16 g) s) ∧
  (∀ e g, WordForm e (.addGvEv e g) fun s =>
    ArithEffect (.addGvEv e g) .add .w16 true (.reg16 g) (effective16 e s) s) ∧
  (∀ imm s, ArithEffect (.addAxIv imm) .add .w16 true (.reg16 .ax) (.imm16 imm) s) ∧
  (∀ e imm, WordForm e (.addEvIv e imm) fun s =>
    ArithEffect (.addEvIv e imm) .add .w16 true (effective16 e s) (.imm16 imm) s)

/-- SUB of bytes (R170): every form completes in every state, writes
all four flags, and changes its left operand and nothing else. -/
def Obligations.SubByteForms : Prop :=
  ∀ s : State,
    (∀ e g, ArithEffect (.subEbGb e g) .sub .w8 true (effective8 e s) (.reg8 g) s) ∧
    (∀ e g, ArithEffect (.subGbEb e g) .sub .w8 true (.reg8 g) (effective8 e s) s) ∧
    (∀ imm, ArithEffect (.subAlIb imm) .sub .w8 true (.reg8 .al) (.imm8 imm) s) ∧
    (∀ e imm, ArithEffect (.subEbIb e imm) .sub .w8 true (effective8 e s) (.imm8 imm) s)

/-- SUB of words (R170): every form completes where its effective operand can be accessed,
and stops with AddressRange, nothing written, where it cannot (R54, the spec's decision D6). -/
def Obligations.SubWordForms : Prop :=
  (∀ e g, WordForm e (.subEvGv e g) fun s =>
    ArithEffect (.subEvGv e g) .sub .w16 true (effective16 e s) (.reg16 g) s) ∧
  (∀ e g, WordForm e (.subGvEv e g) fun s =>
    ArithEffect (.subGvEv e g) .sub .w16 true (.reg16 g) (effective16 e s) s) ∧
  (∀ imm s, ArithEffect (.subAxIv imm) .sub .w16 true (.reg16 .ax) (.imm16 imm) s) ∧
  (∀ e imm, WordForm e (.subEvIv e imm) fun s =>
    ArithEffect (.subEvIv e imm) .sub .w16 true (effective16 e s) (.imm16 imm) s)

/-- CMP of bytes (R170): every form completes in every state, writes all four flags as SUB does, and changes no register
and no byte of memory. -/
def Obligations.CmpByteForms : Prop :=
  ∀ s : State,
    (∀ e g, ArithEffect (.cmpEbGb e g) .sub .w8 false (effective8 e s) (.reg8 g) s) ∧
    (∀ e g, ArithEffect (.cmpGbEb e g) .sub .w8 false (.reg8 g) (effective8 e s) s) ∧
    (∀ imm, ArithEffect (.cmpAlIb imm) .sub .w8 false (.reg8 .al) (.imm8 imm) s) ∧
    (∀ e imm, ArithEffect (.cmpEbIb e imm) .sub .w8 false (effective8 e s) (.imm8 imm) s)

/-- CMP of words (R170): every form completes where its effective operand can be accessed, writes all four flags as SUB
does and changes nothing else, and stops with AddressRange where it cannot (R54, the spec's decision D6). -/
def Obligations.CmpWordForms : Prop :=
  (∀ e g, WordForm e (.cmpEvGv e g) fun s =>
    ArithEffect (.cmpEvGv e g) .sub .w16 false (effective16 e s) (.reg16 g) s) ∧
  (∀ e g, WordForm e (.cmpGvEv e g) fun s =>
    ArithEffect (.cmpGvEv e g) .sub .w16 false (.reg16 g) (effective16 e s) s) ∧
  (∀ imm s, ArithEffect (.cmpAxIv imm) .sub .w16 false (.reg16 .ax) (.imm16 imm) s) ∧
  (∀ e imm, WordForm e (.cmpEvIv e imm) fun s =>
    ArithEffect (.cmpEvIv e imm) .sub .w16 false (effective16 e s) (.imm16 imm) s)

/-- INC and DEC (R195, R196; that they write C is the spec's decision D24): in every state the register gains or loses 1,
all four flags are those of the word addition or subtraction, and nothing else changes. -/
def Obligations.IncrementAndDecrement : Prop :=
  ∀ (s : State) (r : Reg16),
    ArithEffect (.incR16 r) .add .w16 true (.reg16 r) (.imm16 1) s ∧
    ArithEffect (.decR16 r) .sub .w16 true (.reg16 r) (.imm16 1) s

/-- PUSH r16 (R200, R202; the spec's decisions D16, D25, D6): SP falls by 2 and the register's word stands at the new
SP; of SP itself the old or the decremented value, as PUSH_SP_VALUE says. With the new SP at 0xFFFF and no TOP_WRAP it
stops with AddressRange, SP already decremented and no byte written. -/
def Obligations.PushStoresWord : Prop :=
  ∀ (s : State) (r : Reg16),
    (s.regs.sp - 2 ≠ 0xFFFF#16 ∨ s.cfg.topWrap = true →
      ∃ t, exec (.pushR16 r) s = .next t ∧ SameControl s t ∧ t.flags = s.flags ∧
        t.regs.sp = s.regs.sp - 2 ∧
        t.valueAt .w16 (.mem (s.regs.sp - 2)) =
          (if r = .sp ∧ s.cfg.pushSpValue = .new then s.regs.sp - 2 else s.regs.get16 r) ∧
        OnlyThrough [(.w16, .reg16 .sp), (.w16, .mem (s.regs.sp - 2))] s t) ∧
    (s.regs.sp - 2 = 0xFFFF#16 → s.cfg.topWrap = false →
      exec (.pushR16 r) s =
        .next { s with regs := { s.regs with sp := s.regs.sp - 2 }, status := .stopped (.addressRange 0x10000) })

/-- POP r16 (R201, R203; the spec's decisions D17, D6): the register gets the word at SP and SP rises by 2, POP SP
keeping the word. At SP = 0xFFFF and no TOP_WRAP it stops with AddressRange and nothing changed. -/
def Obligations.PopLoadsWord : Prop :=
  ∀ (s : State) (r : Reg16),
    (s.regs.sp ≠ 0xFFFF#16 ∨ s.cfg.topWrap = true →
      ∃ t, exec (.popR16 r) s = .next t ∧ SameControl s t ∧ t.flags = s.flags ∧
        t.regs.get16 r = s.valueAt .w16 (.mem s.regs.sp) ∧ (r ≠ .sp → t.regs.sp = s.regs.sp + 2) ∧
        OnlyThrough [(.w16, .reg16 .sp), (.w16, .reg16 r)] s t) ∧
    (s.regs.sp = 0xFFFF#16 → s.cfg.topWrap = false → exec (.popR16 r) s = .next (stoppedBeyondTop s))

/-- R201: push then pop with no stack write between returns the exact value pushed and leaves SP where it was. -/
def Obligations.PushThenPopReturnsValue : Prop :=
  ∀ (s : State) (v : Word), s.regs.sp - 2 ≠ 0xFFFF#16 ∨ s.cfg.topWrap = true →
    ∃ t u, push v s = .ok ⟨⟩ t ∧ pop t = .ok v u ∧ u.regs = s.regs

/-- JMP rel8 and rel16 (R210, R211, R212): in every state pc becomes the target computed from the address after the
instruction, modulo 2^16, and nothing else changes. -/
def Obligations.JumpsGoToTarget : Prop :=
  ∀ s : State,
    (∀ d, exec (.jmpRel8 d) s = .next { s with pc := target8 s.pc d }) ∧
    (∀ d, exec (.jmpRel16 d) s = .next { s with pc := target16 s.pc d })

/-- The conditional jumps (R215 to R225; which exist is the spec's decision D11): in every state pc becomes the target
if the condition on the flags holds and stays past the displacement if not; nothing else changes. -/
def Obligations.ConditionalJumpsTestFlags : Prop :=
  ∀ (s : State) (d : Byte),
    let jumped := { s with pc := target8 s.pc d }
    exec (.joRel8 d) s = .next (if s.flags.o = true then jumped else s) ∧
    exec (.jnoRel8 d) s = .next (if s.flags.o = false then jumped else s) ∧
    exec (.jbRel8 d) s = .next (if s.flags.c = true then jumped else s) ∧
    exec (.jnbRel8 d) s = .next (if s.flags.c = false then jumped else s) ∧
    exec (.jzRel8 d) s = .next (if s.flags.z = true then jumped else s) ∧
    exec (.jnzRel8 d) s = .next (if s.flags.z = false then jumped else s) ∧
    exec (.jbeRel8 d) s = .next (if (s.flags.c = true ∨ s.flags.z = true) then jumped else s) ∧
    exec (.jaRel8 d) s = .next (if ¬ (s.flags.c = true ∨ s.flags.z = true) then jumped else s) ∧
    exec (.jsRel8 d) s = .next (if s.flags.s = true then jumped else s) ∧
    exec (.jnsRel8 d) s = .next (if s.flags.s = false then jumped else s)

/-- CALL rel16 (R213; the spec's decisions D25, D6): the address after the instruction is pushed and pc becomes the
target; with the new SP at 0xFFFF and no TOP_WRAP it stops with AddressRange, SP decremented, pc at the return address
and no byte written. -/
def Obligations.CallPushesReturnAddress : Prop :=
  ∀ (s : State) (d : Word),
    (s.regs.sp - 2 ≠ 0xFFFF#16 ∨ s.cfg.topWrap = true →
      ∃ t, exec (.callRel16 d) s = .next t ∧ t.pc = target16 s.pc d ∧ t.flags = s.flags ∧
        t.status = s.status ∧ t.phase = s.phase ∧ t.cfg = s.cfg ∧
        t.regs.sp = s.regs.sp - 2 ∧ t.valueAt .w16 (.mem (s.regs.sp - 2)) = s.pc ∧
        OnlyThrough [(.w16, .reg16 .sp), (.w16, .mem (s.regs.sp - 2))] s t) ∧
    (s.regs.sp - 2 = 0xFFFF#16 → s.cfg.topWrap = false →
      exec (.callRel16 d) s =
        .next { s with regs := { s.regs with sp := s.regs.sp - 2 }, status := .stopped (.addressRange 0x10000) })

/-- RET (R214, R201; the spec's decisions D9, D6): pc becomes the word at SP and SP rises by 2; at SP = 0xFFFF and no
TOP_WRAP it stops with AddressRange and nothing changed. -/
def Obligations.ReturnPopsTarget : Prop :=
  ∀ s : State,
    (s.regs.sp ≠ 0xFFFF#16 ∨ s.cfg.topWrap = true →
      exec .ret s = .next { s with pc := s.valueAt .w16 (.mem s.regs.sp),
                                   regs := { s.regs with sp := s.regs.sp + 2 } }) ∧
    (s.regs.sp = 0xFFFF#16 → s.cfg.topWrap = false → exec .ret s = .next (stoppedBeyondTop s))

/-- A CALL and the RET that follows come back to the address after the CALL with every register and flag as it was
(derived from R213, R214, R201). -/
def Obligations.CallThenReturnComesBack : Prop :=
  ∀ (s : State) (d : Word), s.regs.sp - 2 ≠ 0xFFFF#16 ∨ s.cfg.topWrap = true →
    ∃ t u, exec (.callRel16 d) s = .next t ∧ exec .ret t = .next u ∧
      u.pc = s.pc ∧ u.regs = s.regs ∧ u.flags = s.flags ∧ u.status = s.status

/-- XCHG in its three encodings (R230, R231, R232, R287; the spec's decisions D9, D18, D6): both values are read first
and swapped; the word form stops with AddressRange and nothing written where its effective operand cannot be
accessed. -/
def Obligations.ExchangeForms : Prop :=
  (∀ e g s, ExchangeEffect (.xchgEbGb e g) .w8 (effective8 e s) (.reg8 g) s) ∧
  (∀ e g, WordForm e (.xchgEvGv e g) fun s => ExchangeEffect (.xchgEvGv e g) .w16 (effective16 e s) (.reg16 g) s) ∧
  (∀ r s, ExchangeEffect (.xchgAxR16 r) .w16 (.reg16 .ax) (.reg16 r) s)

/-- NOP (R233): executing it changes nothing, and a step that fetches the byte 90 changes pc alone, by 1. -/
def Obligations.NopChangesOnlyCursor : Prop :=
  (∀ s, exec .nop s = .next s) ∧
  (∀ s : State, s.status = .running → s.phase = .fetchOpcode → s.byteAt s.pc = 0x90#8 →
    s.pc ≠ 0xFFFF#16 ∨ s.cfg.topWrap = true → Row.nop ∉ s.cfg.rowsExcluded →
    step s = .next { s with pc := s.pc + 1 })

/-- HLT (R240, R241, R259; the spec's decisions D10, D30): the run stops with Halt, opcode and pc past it, with no
register, flag or memory byte changed, and the dump is called on that state. As an instruction, and as the step that
fetches HALT_OPCODE where no other row claims it; the premise leaves out the settings of the model's choice in log 5. The
resting phase is the model's reading (log 8). -/
def Obligations.HaltStopsTheRun : Prop :=
  (∀ s : State, exec .hlt s = .next { s with status := .stopped (.halt s.cfg.haltOpcode s.pc) }) ∧
  (∀ s : State, s.status = .running → s.byteAt s.pc = s.cfg.haltOpcode → mappedCategory s.cfg.haltOpcode = none →
    s.pc ≠ 0xFFFF#16 ∨ s.cfg.topWrap = true → Row.hlt ∉ s.cfg.rowsExcluded →
    ∃ t, step s = .next t ∧
      t = { s with pc := s.pc + 1, phase := .execute, status := .stopped (.halt s.cfg.haltOpcode (s.pc + 1)) } ∧
      t.halted ∧ dumpCalled t = some ⟨s.regs, s.flags, s.pc + 1⟩)

/-- R241, R263 (the spec's decision D30): the dump is called, on the registers, flags and pc of the stopped state, when
the run has halted, and is called at no other outcome. -/
def Obligations.DumpIsCalledOnHaltOnly : Prop :=
  ∀ s : State, (s.halted → dumpCalled s = some ⟨s.regs, s.flags, s.pc⟩) ∧ (¬ s.halted → dumpCalled s = none)

/-- R240, R259 (which byte it is: the spec's decision D10): a step ends the run normally only at HALT_OPCODE, with HLT
implemented, and then no register, flag or memory byte has changed. That no other row claims the byte is the model's
DESIGN CHOICE (log 5: a HALT_OPCODE another row claims, even one taken out of IMPLEMENTED, never halts), and the resting
phase is the model's reading (log 8). -/
def Obligations.OnlyTheHaltByteHalts : Prop :=
  ∀ s t : State, s.status = .running → step s = .next t → t.halted →
    s.byteAt s.pc = s.cfg.haltOpcode ∧ mappedCategory s.cfg.haltOpcode = none ∧ Row.hlt ∉ s.cfg.rowsExcluded ∧
    t = { s with pc := s.pc + 1, phase := .execute, status := .stopped (.halt s.cfg.haltOpcode (s.pc + 1)) }

/-! ## Fatal outcomes of fetch and decode -/

/-- R56, R258 (the spec's decision D6): a fetch at 0xFFFF without TOP_WRAP stops the run with AddressRange before any
other check, pc still 0xFFFF and nothing else changed; the phase it rests in is the model's reading (log 8). -/
def Obligations.OpcodeFetchAtTopStops : Prop :=
  ∀ s : State, s.status = .running → s.pc = 0xFFFF#16 → s.cfg.topWrap = false →
    step s = .next { s with phase := .fetchOpcode, status := .stopped (.addressRange 0x10000) }

/-- R56, R260, R261 (D6): an instruction that would need a byte at or past 0xFFFF stops with AddressRange at pc =
0xFFFF, with nothing else changed, if its bytes up to there are a prefix of an admitted instruction; the phase is the
model's reading (log 8). -/
def Obligations.OperandFetchAtTopStops : Prop :=
  ∀ (s : State) (i : Instr) (k : Nat), s.status = .running → s.cfg.topWrap = false → i.wf = true →
    i.admitted s.cfg = true → 0 < k → k < (encode s.cfg i).length → s.pc.toNat + k = 0xFFFF →
    s.codeAt ((encode s.cfg i).take k) →
    step s = .next { s with pc := 0xFFFF#16, phase := .fetchOperandBytes,
                            status := .stopped (.addressRange 0x10000) }

/-- R98: an opcode byte no implemented row has is fetched and then stops the run with UnknownOpcode, pc one past it and
nothing else changed; under the default parameters these are the 157 bytes R97's map leaves out. That a byte whose rows
are all taken out stays without HLT when it is HALT_OPCODE is the model's DESIGN CHOICE (log 5). -/
def Obligations.UnknownOpcodeStops : Prop :=
  (∀ s : State, s.status = .running → s.pc ≠ 0xFFFF#16 ∨ s.cfg.topWrap = true →
    (∀ r ∈ rowsAt s.cfg (s.byteAt s.pc), r.row ∈ s.cfg.rowsExcluded) →
    step s = .next { s with pc := s.pc + 1, phase := .classify,
                            status := .stopped (.unknownOpcode (s.byteAt s.pc)) }) ∧
  (∀ op : Byte, rowsAt Config.standard op = [] ↔ categoryAt Config.standard op = none)

/-- R101, R255 (the order is the spec's decision D12): a GROUP opcode whose `reg` value is no implemented group row stops
the run with GroupSubop, pc past ModR/M and displacement, the immediate not fetched and nothing else changed. -/
def Obligations.GroupSubopStops : Prop :=
  ∀ (s : State) (op m : Byte) (disp : List Byte), s.status = .running →
    (∃ p ∈ groupTable, p.1 = op ∧ p.2.2 ∉ s.cfg.rowsExcluded) →
    (∀ p ∈ groupTable, p.1 = op → p.2.1 = regField m → p.2.2 ∈ s.cfg.rowsExcluded) →
    s.cfg.modrmSupported (modField m) (lowField m) = true →
    disp.length = dispLen (m.toNat / 64) (m.toNat % 8) → s.codeAt (op :: m :: disp) →
    step s = .next { s with pc := s.pc + BitVec.ofNat 16 (2 + disp.length), phase := .fetchOperandBytes,
                            status := .stopped (.groupSubop op (regField m)) }

/-- R88 (D7): an implemented opcode with a ModR/M byte whose mod/rm pair is not supported stops the run with
AddressingMode, pc past the ModR/M byte and nothing else changed. -/
def Obligations.UnsupportedModrmStops : Prop :=
  ∀ (s : State) (op m : Byte), s.status = .running → implemented s.cfg op = true →
    mappedCategory op = some .modrm8 ∨ mappedCategory op = some .modrm16 ∨ mappedCategory op = some .group →
    (modField m, lowField m) ∈ s.cfg.modrmExcluded → s.codeAt [op, m] →
    step s = .next { s with pc := s.pc + 2, phase := .fetchOperandBytes,
                            status := .stopped (.addressingMode op m) }

/-! ## Frames -/

/-- Registers and memory: whatever an instruction's next state is, no register and no byte of memory changes but through
the destinations the instruction names; SP is one for PUSH, POP, CALL and RET. All 55 instructions. -/
def Obligations.ExecChangesOnlyDestinations : Prop :=
  ∀ (i : Instr) (s t : State), exec i s = .next t → OnlyThrough (destinations i s) s t

/-- R142: an instruction that does not use the ALU leaves all four flags as they were, and a step that ends in a fatal
outcome leaves them too. -/
def Obligations.FlagsChangeOnlyByArithmetic : Prop :=
  (∀ (i : Instr) (s t : State), writesFlags i = false → exec i s = .next t → t.flags = s.flags) ∧
  (∀ (s t : State) why, step s = .next t → t.status = .stopped why → t.flags = s.flags)

/-- Every instruction in every state has a next state, with the parameters and the phase as they were; pc is as it was
but for control transfers; and STATUS is as it was or Stopped by Halt (HLT alone) or AddressRange. -/
def Obligations.ExecKeepsControlState : Prop :=
  ∀ (i : Instr) (s : State), ∃ t, exec i s = .next t ∧ t.cfg = s.cfg ∧ t.phase = s.phase ∧
    (transfersControl i = false → t.pc = s.pc) ∧
    (t.status = s.status ∨ t.status = .stopped (.addressRange 0x10000) ∨
      (i = .hlt ∧ t.status = .stopped (.halt s.cfg.haltOpcode s.pc)))

/-! ## The whole machine -/

/-- When the bytes at the cursor decode to an instruction, a step is the execution of that instruction with the cursor
past its bytes and the phase at execute; a completed step's phase is fetch-opcode again, a stopped one's stays
(R95, R96, R104). -/
def Obligations.StepRunsDecodedInstruction : Prop :=
  ∀ (s : State) (bytes : List Byte) (i : Instr), s.status = .running → decode s.cfg bytes = .ok i [] →
    s.codeAt bytes →
    ∃ t, exec i { s with pc := s.pc + BitVec.ofNat 16 bytes.length, phase := .execute } = .next t ∧
      step s = .next { t with phase := if t.status = .running then .fetchOpcode else t.phase }

/-- R30: after an instruction that completes, pc is the address after its last byte, or for a taken control transfer its
target. -/
def Obligations.CursorAfterStep : Prop :=
  ∀ (s t : State) (bytes : List Byte) (i : Instr), s.status = .running → decode s.cfg bytes = .ok i [] →
    s.codeAt bytes → step s = .next t → t.status = .running →
    t.pc = nextPc s (s.pc + BitVec.ofNat 16 bytes.length) i

/-- The invariant: memory canonical and inside the address space, the phase fetch-opcode between instructions, and a
stopped run in the phase that raised a reachable fatal outcome. Every step keeps it, from every state that has it. -/
def Obligations.StepKeepsInvariant : Prop :=
  ∀ s t : State, Inv s → step s = .next t → Inv t

/-- R254, R256, R257: under the admitted tables no program reaches Miscategorized, WriteImmediate or WidthMismatch,
whatever the parameters and the state. -/
def Obligations.ContractViolationsAreUnreachable : Prop :=
  ∀ (s t : State) (why : Fatal), s.status = .running → step s = .next t → t.status = .stopped why →
    why.kind ≠ .miscategorized ∧ why.kind ≠ .writeImmediate ∧ why.kind ≠ .widthMismatch

/-- R261 (the spec's decision D15): a step that ends in a fatal outcome leaves memory, flags and every register but SP
as they were; SP differs only by the decrement of a PUSH or CALL whose stack write raised AddressRange. -/
def Obligations.FatalStepKeepsState : Prop :=
  ∀ (s t : State) (why : Fatal), s.status = .running → step s = .next t → t.status = .stopped why →
    t.mem = s.mem ∧ t.flags = s.flags ∧ (∀ r, r ≠ .sp → t.regs.get16 r = s.regs.get16 r) ∧
    (t.regs.sp ≠ s.regs.sp →
      why = .addressRange 0x10000 ∧ t.regs.sp = s.regs.sp - 2 ∧
      ∃ i u, decodeFrom fetchNext s.cfg s = .ok i u ∧ (i.row = .pushR16 ∨ i.row = .callRel16))

/-- No step changes a parameter of R5 (derived; log 4). -/
def Obligations.StepKeepsParameters : Prop :=
  ∀ s t : State, step s = .next t → t.cfg = s.cfg

/-- R72, R288 (the spec's own derivation): a byte stored by an instruction is the byte the next fetch from that address
reads. -/
def Obligations.StoredByteIsFetched : Prop :=
  ∀ (s : State) (a : Word) (v : Byte), a ≠ 0xFFFF#16 ∨ s.cfg.topWrap = true →
    ∃ t, exec (.movEbIb (.direct a) v) s = .next t ∧
      fetchNext { t with pc := a } = some (v, { t with pc := a + 1 })
end

