-- ==== Sys2Proof/Laws/State.lean ====
section
/-! SUPPORT. One lemma per field per named update of the state, true by unfolding, so that no later proof unfolds a
record update; and applying the operations' monad. -/

namespace Sys2Proof.Machine

/-! ## Applying an operation -/

@[simp] theorem bind_apply {ε σ α β : Type} (x : EStateM ε σ α) (f : α → EStateM ε σ β) (s : σ) :
    (x >>= f) s = match x s with
      | .ok a t => f a t
      | .error e t => .error e t := rfl

@[simp] theorem pure_apply {ε σ α : Type} (a : α) (s : σ) : (pure a : EStateM ε σ α) s = .ok a s := rfl

@[simp] theorem throw_apply {ε σ α : Type} (e : ε) (s : σ) : (throw e : EStateM ε σ α) s = .error e s := rfl

@[simp] theorem get_apply {ε σ : Type} (s : σ) : (get : EStateM ε σ σ) s = .ok s s := rfl

@[simp] theorem set_apply {ε σ : Type} (t s : σ) : (set t : EStateM ε σ PUnit) s = .ok ⟨⟩ t := rfl

@[simp] theorem modify_apply {ε σ : Type} (f : σ → σ) (s : σ) : (modify f : EStateM ε σ PUnit) s = .ok ⟨⟩ (f s) := rfl

@[simp] theorem map_apply {ε σ α β : Type} (f : α → β) (x : EStateM ε σ α) (s : σ) :
    (f <$> x) s = match x s with
      | .ok a t => .ok (f a) t
      | .error e t => .error e t := rfl

theorem ite_op_apply {ε σ α : Type} (p : Prop) [Decidable p] (x y : EStateM ε σ α) (s : σ) :
    (if p then x else y) s = if p then x s else y s := by split <;> rfl

/-! ## The primitives over registers, cursor and flags -/

@[simp] theorem readReg16_apply (r : Reg16) (s : State) : readReg16 r s = .ok (s.regs.get16 r) s := rfl
@[simp] theorem writeReg16_apply (r : Reg16) (v : Word) (s : State) :
    writeReg16 r v s = .ok ⟨⟩ { s with regs := s.regs.set16 r v } := rfl
@[simp] theorem readReg8_apply (r : Reg8) (s : State) : readReg8 r s = .ok (s.regs.get8 r) s := rfl
@[simp] theorem writeReg8_apply (r : Reg8) (v : Byte) (s : State) :
    writeReg8 r v s = .ok ⟨⟩ { s with regs := s.regs.set8 r v } := rfl
@[simp] theorem readPc_apply (s : State) : readPc s = .ok s.pc s := rfl
@[simp] theorem writePc_apply (v : Word) (s : State) : writePc v s = .ok ⟨⟩ { s with pc := v } := rfl
@[simp] theorem readFlags_apply (s : State) : readFlags s = .ok s.flags s := rfl
@[simp] theorem setFlags_apply (f : Flags) (s : State) : setFlags f s = .ok ⟨⟩ { s with flags := f } := rfl
@[simp] theorem readByte_apply (a : Word) (s : State) : readByte a s = .ok (s.byteAt a) s := rfl
@[simp] theorem writeByte_apply (a : Word) (v : Byte) (s : State) : writeByte a v s = .ok ⟨⟩ (s.setByte a v) := rfl

theorem readWord_apply (a : Word) (s : State) :
    readWord a s = if s.canAdvance a then .ok (joinBytes (s.byteAt (a + 1)) (s.byteAt a)) s
      else .error beyondTop s := by
  simp only [readWord, bind_apply, get_apply]; split <;> rfl

theorem writeWord_apply (a : Word) (v : Word) (s : State) :
    writeWord a v s = if s.canAdvance a then .ok ⟨⟩ ((s.setByte a (lowByte v)).setByte (a + 1) (highByte v))
      else .error beyondTop s := by
  simp only [writeWord, bind_apply, get_apply]; split <;> rfl

/-! ## The byte write -/

@[simp] theorem setByte_regs (s : State) (a : Word) (v : Byte) : (s.setByte a v).regs = s.regs := rfl
@[simp] theorem setByte_pc (s : State) (a : Word) (v : Byte) : (s.setByte a v).pc = s.pc := rfl
@[simp] theorem setByte_flags (s : State) (a : Word) (v : Byte) : (s.setByte a v).flags = s.flags := rfl
@[simp] theorem setByte_status (s : State) (a : Word) (v : Byte) : (s.setByte a v).status = s.status := rfl
@[simp] theorem setByte_phase (s : State) (a : Word) (v : Byte) : (s.setByte a v).phase = s.phase := rfl
@[simp] theorem setByte_cfg (s : State) (a : Word) (v : Byte) : (s.setByte a v).cfg = s.cfg := rfl
@[simp] theorem setByte_mem (s : State) (a : Word) (v : Byte) : (s.setByte a v).mem = s.mem.set a.toNat v := rfl

/-! ## Raising a fatal outcome -/

@[simp] theorem raise_regs (why : Fatal) (s : State) : (raise why s).regs = s.regs := rfl
@[simp] theorem raise_pc (why : Fatal) (s : State) : (raise why s).pc = s.pc := rfl
@[simp] theorem raise_flags (why : Fatal) (s : State) : (raise why s).flags = s.flags := rfl
@[simp] theorem raise_mem (why : Fatal) (s : State) : (raise why s).mem = s.mem := rfl
@[simp] theorem raise_status (why : Fatal) (s : State) : (raise why s).status = .stopped why := rfl
@[simp] theorem raise_phase (why : Fatal) (s : State) : (raise why s).phase = s.phase := rfl
@[simp] theorem raise_cfg (why : Fatal) (s : State) : (raise why s).cfg = s.cfg := rfl

/-! ## The phases of a step -/

@[simp] theorem rejectAt_regs (why : Reject) (s : State) : (rejectAt why s).regs = s.regs := rfl
@[simp] theorem rejectAt_pc (why : Reject) (s : State) : (rejectAt why s).pc = s.pc := rfl
@[simp] theorem rejectAt_flags (why : Reject) (s : State) : (rejectAt why s).flags = s.flags := rfl
@[simp] theorem rejectAt_mem (why : Reject) (s : State) : (rejectAt why s).mem = s.mem := rfl
@[simp] theorem rejectAt_status (why : Reject) (s : State) : (rejectAt why s).status = .stopped (fatalOf why) := rfl
@[simp] theorem rejectAt_phase (why : Reject) (s : State) : (rejectAt why s).phase = phaseOf why := rfl
@[simp] theorem rejectAt_cfg (why : Reject) (s : State) : (rejectAt why s).cfg = s.cfg := rfl

@[simp] theorem beginExecute_regs (s : State) : (beginExecute s).regs = s.regs := rfl
@[simp] theorem beginExecute_pc (s : State) : (beginExecute s).pc = s.pc := rfl
@[simp] theorem beginExecute_flags (s : State) : (beginExecute s).flags = s.flags := rfl
@[simp] theorem beginExecute_mem (s : State) : (beginExecute s).mem = s.mem := rfl
@[simp] theorem beginExecute_status (s : State) : (beginExecute s).status = s.status := rfl
@[simp] theorem beginExecute_phase (s : State) : (beginExecute s).phase = .execute := rfl
@[simp] theorem beginExecute_cfg (s : State) : (beginExecute s).cfg = s.cfg := rfl

/-- R104 in one equation. -/
theorem endExecute_eq (s : State) :
    endExecute s = { s with phase := if s.status = .running then .fetchOpcode else s.phase } := by
  obtain ⟨regs, pc, flags, mem, status, phase, cfg⟩ := s
  cases status <;> simp [endExecute]

@[simp] theorem endExecute_regs (s : State) : (endExecute s).regs = s.regs := by rw [endExecute_eq]
@[simp] theorem endExecute_pc (s : State) : (endExecute s).pc = s.pc := by rw [endExecute_eq]
@[simp] theorem endExecute_flags (s : State) : (endExecute s).flags = s.flags := by rw [endExecute_eq]
@[simp] theorem endExecute_mem (s : State) : (endExecute s).mem = s.mem := by rw [endExecute_eq]
@[simp] theorem endExecute_status (s : State) : (endExecute s).status = s.status := by rw [endExecute_eq]
@[simp] theorem endExecute_cfg (s : State) : (endExecute s).cfg = s.cfg := by rw [endExecute_eq]
theorem endExecute_phase (s : State) :
    (endExecute s).phase = if s.status = .running then .fetchOpcode else s.phase := by rw [endExecute_eq]

end Sys2Proof.Machine
end

