-- ==== Sys2Proof/Laws/Registers.lean ====
section
/-! SUPPORT. The laws of bytes and words and of the register file (10_state.md R21-R26, R41). -/

namespace Sys2Proof

@[simp] theorem lowByte_joinBytes (hi lo : Byte) : lowByte (joinBytes hi lo) = lo := by
  apply BitVec.eq_of_getLsbD_eq
  intro i hi'
  simp only [lowByte, joinBytes, BitVec.getLsbD_extractLsb', BitVec.getLsbD_append]
  simp [hi']

@[simp] theorem highByte_joinBytes (hi lo : Byte) : highByte (joinBytes hi lo) = hi := by
  apply BitVec.eq_of_getLsbD_eq
  intro i hi'
  simp only [highByte, joinBytes, BitVec.getLsbD_extractLsb', BitVec.getLsbD_append]
  simp [hi']

@[simp] theorem joinBytes_split (w : Word) : joinBytes (highByte w) (lowByte w) = w := by
  apply BitVec.eq_of_getLsbD_eq
  intro i hi
  simp only [joinBytes, highByte, lowByte, BitVec.getLsbD_append, BitVec.getLsbD_extractLsb']
  by_cases h : i < 8
  · simp [h]
  · have h8 : i - 8 < 8 := by omega
    have : 8 + (i - 8) = i := by omega
    simp [h, h8, this]

/-- The join as a number (R41). -/
theorem joinBytes_toNat (hi lo : Byte) : (joinBytes hi lo).toNat = 256 * hi.toNat + lo.toNat := by
  unfold joinBytes
  rw [BitVec.toNat_append, Nat.shiftLeft_eq, Nat.mul_comm, ← Nat.two_pow_add_eq_or_of_lt lo.isLt]

theorem lowByte_toNat (w : Word) : (lowByte w).toNat = w.toNat % 256 := by
  simp [lowByte, BitVec.extractLsb'_toNat]

theorem highByte_toNat (w : Word) : (highByte w).toNat = w.toNat / 256 := by
  have := w.isLt
  simp [highByte, BitVec.extractLsb'_toNat, Nat.shiftRight_eq_div_pow]
  omega

namespace Machine

@[simp] theorem get16_set16_self (x : Regs) (r : Reg16) (v : Word) : (x.set16 r v).get16 r = v := by
  cases r <;> rfl

theorem get16_set16_other (x : Regs) {r q : Reg16} (v : Word) (h : q ≠ r) : (x.set16 r v).get16 q = x.get16 q := by
  cases r <;> cases q <;> first | rfl | exact absurd rfl h

/-- A word register after a word write (R26). -/
theorem get16_set16 (x : Regs) (r q : Reg16) (v : Word) :
    (x.set16 r v).get16 q = if q = r then v else x.get16 q := by
  by_cases h : q = r
  · subst h; simp
  · rw [if_neg h, get16_set16_other x v h]

/-- A byte register after a word write (R23, R26). -/
theorem get8_set16_other (x : Regs) (r : Reg16) (b : Reg8) (v : Word) (h : parentOf b ≠ r) :
    (x.set16 r v).get8 b = x.get8 b := by
  unfold Regs.get8; rw [get16_set16_other x v h]

@[simp] theorem get8_set8_self (x : Regs) (b : Reg8) (v : Byte) : (x.set8 b v).get8 b = v := by
  cases b <;> simp [Regs.get8, Regs.set8, isHighHalf]

/-- Another byte register after a byte write: the sibling half keeps its value too (R25). -/
theorem get8_set8_other (x : Regs) {b q : Reg8} (v : Byte) (h : q ≠ b) : (x.set8 b v).get8 q = x.get8 q := by
  cases b <;> cases q <;>
    first
    | exact absurd rfl h
    | simp [Regs.get8, Regs.set8, isHighHalf, parentOf, Regs.set16, Regs.get16]

/-- A word register after a byte write elsewhere (R25). -/
theorem get16_set8_other (x : Regs) (b : Reg8) (q : Reg16) (v : Byte) (h : parentOf b ≠ q) :
    (x.set8 b v).get16 q = x.get16 q := by
  unfold Regs.set8; exact get16_set16_other x _ (Ne.symm h)

/-- Two register files whose registers read alike are equal. -/
theorem regs_ext {x y : Regs} (h : ∀ r, x.get16 r = y.get16 r) : x = y := by
  obtain ⟨a, b, c, d, e, f, g, i⟩ := x
  obtain ⟨a', b', c', d', e', f', g', i'⟩ := y
  have h0 := h .ax; have h1 := h .cx; have h2 := h .dx; have h3 := h .bx
  have h4 := h .sp; have h5 := h .bp; have h6 := h .si; have h7 := h .di
  simp only [Regs.get16] at h0 h1 h2 h3 h4 h5 h6 h7
  subst h0 h1 h2 h3 h4 h5 h6 h7
  rfl

end Machine
end Sys2Proof
end

