-- ==== Sys2Proof/Laws/Decode.lean ====
section
/-! SUPPORT. The laws of the encoding's numbers and bit fields, and the decoder's independence of the byte stream it
reads: what it does on a list of bytes it does on any stream that yields the same bytes. -/

namespace Sys2Proof

/-! ## Numbers and fields -/

@[simp] theorem reg16_ofNum_num (r : Reg16) : Reg16.ofNum r.num = r := by cases r <;> rfl
@[simp] theorem reg8_ofNum_num (r : Reg8) : Reg8.ofNum r.num = r := by cases r <;> rfl
@[simp] theorem baseForm_ofNum_num (b : BaseForm) : BaseForm.ofNum b.num = b := by cases b <;> rfl
@[simp] theorem reg16_num_ofNum (n : BitVec 3) : (Reg16.ofNum n).num = n := by revert n; decide
@[simp] theorem reg8_num_ofNum (n : BitVec 3) : (Reg8.ofNum n).num = n := by revert n; decide
@[simp] theorem baseForm_num_ofNum (n : BitVec 3) : (BaseForm.ofNum n).num = n := by revert n; decide

@[simp] theorem modField_modrmByte (mod : BitVec 2) (reg rm : BitVec 3) : modField (modrmByte mod reg rm) = mod := by
  revert mod reg rm; decide
@[simp] theorem regField_modrmByte (mod : BitVec 2) (reg rm : BitVec 3) : regField (modrmByte mod reg rm) = reg := by
  revert mod reg rm; decide
@[simp] theorem lowField_modrmByte (mod : BitVec 2) (reg rm : BitVec 3) : lowField (modrmByte mod reg rm) = rm := by
  revert mod reg rm; decide
@[simp] theorem modrmByte_fields (m : Byte) : modrmByte (modField m) (regField m) (lowField m) = m := by
  revert m; decide
@[simp] theorem lowField_opcodeWith (top : BitVec 5) (r : BitVec 3) : lowField (opcodeWith top r) = r := by
  revert top r; decide

/-! ## The decoder over related streams -/

/-- The rejections that say the stream ended. -/
def Reject.isEnd : Reject → Bool
  | .noOpcodeByte => true
  | .noOperandByte => true
  | .unknownOpcode _ => false
  | .miscategorized _ _ => false
  | .groupSubop _ _ => false
  | .addressingMode _ _ => false

variable {σ τ : Type}

/-- From related streams the first's bytes are the second's; where `strict`, they end together. -/
def StreamSim (strict : Bool) (R : σ → τ → Prop) (next : Stream σ) (next' : Stream τ) : Prop :=
  ∀ s t, R s t → match next s with
    | some (b, s') => ∃ t', next' t = some (b, t') ∧ R s' t'
    | none => strict = true → next' t = none

/-- From related streams the second decoder does what the first does, unless the first stream ended (and the relation
is not strict). -/
def DecoderSim (strict : Bool) (R : σ → τ → Prop) {α : Type} (x : Decoder σ α) (y : Decoder τ α) : Prop :=
  ∀ s t, R s t → match x s with
    | .ok a s' => ∃ t', y t = .ok a t' ∧ R s' t'
    | .error e s' => (e.isEnd = true ∧ strict = false) ∨ ∃ t', y t = .error e t' ∧ R s' t'

variable {strict : Bool} {R : σ → τ → Prop} {α β : Type}

theorem DecoderSim.pure (a : α) : DecoderSim strict R (pure a : Decoder σ α) (pure a : Decoder τ α) :=
  fun _ t h => ⟨t, rfl, h⟩

theorem DecoderSim.throw (e : Reject) : DecoderSim strict R (throw e : Decoder σ α) (throw e : Decoder τ α) :=
  fun _ t h => .inr ⟨t, rfl, h⟩

theorem DecoderSim.bind {x : Decoder σ α} {y : Decoder τ α} {f : α → Decoder σ β} {g : α → Decoder τ β}
    (h : DecoderSim strict R x y) (hf : ∀ a, DecoderSim strict R (f a) (g a)) :
    DecoderSim strict R (x >>= f) (y >>= g) := by
  intro s t hr
  have h := h s t hr
  simp only [Machine.bind_apply]
  cases hx : x s with
  | ok a s' =>
    rw [hx] at h
    obtain ⟨t', hy, hr'⟩ := h
    rw [hy]
    exact hf a s' t' hr'
  | error e s' =>
    rw [hx] at h
    rcases h with h | ⟨t', hy, hr'⟩
    · exact .inl h
    · exact .inr ⟨t', by rw [hy], hr'⟩

theorem DecoderSim.takeByte {next : Stream σ} {next' : Stream τ} (h : StreamSim strict R next next') {e : Reject}
    (he : e.isEnd = true) : DecoderSim strict R (takeByte next e) (takeByte next' e) := by
  intro s t hr
  have h := h s t hr
  simp only [Sys2Proof.takeByte]
  cases hn : next s with
  | none =>
    rw [hn] at h
    cases strict with
    | false => exact .inl ⟨he, rfl⟩
    | true => exact .inr ⟨t, by rw [h rfl], hr⟩
  | some p =>
    rw [hn] at h
    obtain ⟨t', ht, hr'⟩ := h
    exact ⟨t', by rw [ht], hr'⟩

section
variable {next : Stream σ} {next' : Stream τ} (h : StreamSim strict R next next')
include h

theorem operandByte_sim : DecoderSim strict R (operandByte next) (operandByte next') := .takeByte h rfl

theorem operandWord_sim : DecoderSim strict R (operandWord next) (operandWord next') :=
  .bind (operandByte_sim h) fun _ => .bind (operandByte_sim h) fun _ => .pure _

theorem effectiveOperand_sim {ρ : Type} (regOf : BitVec 3 → ρ) (mod : BitVec 2) (rm : BitVec 3) :
    DecoderSim strict R (effectiveOperand next regOf mod rm) (effectiveOperand next' regOf mod rm) := by
  unfold effectiveOperand
  split
  · split
    · exact .bind (operandWord_sim h) fun _ => .pure _
    · exact .pure _
  · exact .bind (operandByte_sim h) fun _ => .pure _
  · exact .bind (operandWord_sim h) fun _ => .pure _
  · exact .pure _

theorem decodeModrm_sim {ρ : Type} (regOf : BitVec 3 → ρ) (c : Config) (op : Byte) :
    DecoderSim strict R (decodeModrm next regOf c op) (decodeModrm next' regOf c op) := by
  refine .bind (operandByte_sim h) fun m => ?_
  split
  · exact .bind (effectiveOperand_sim h _ _ _) fun _ => .pure _
  · exact .throw _

omit h in
theorem orMiscategorized_sim (op : Byte) (cat : Category) (o : Option Instr) :
    DecoderSim strict R (orMiscategorized op cat o) (orMiscategorized op cat o) := by
  cases o
  · exact .throw _
  · exact .pure _

theorem fetchGroup_sim (c : Config) (op : Byte) :
    DecoderSim strict R (fetchGroup next c op) (fetchGroup next' c op) := by
  unfold fetchGroup
  split
  · refine .bind (decodeModrm_sim h _ _ _) fun p => ?_
    obtain ⟨e, sub⟩ := p
    dsimp only
    split
    · exact .throw _
    · exact .bind (operandByte_sim h) fun _ => orMiscategorized_sim _ _ _
  · refine .bind (decodeModrm_sim h _ _ _) fun p => ?_
    obtain ⟨e, sub⟩ := p
    dsimp only
    split
    · exact .throw _
    · exact .bind (operandWord_sim h) fun _ => orMiscategorized_sim _ _ _

theorem fetchOperands_sim (c : Config) (op : Byte) (cat : Category) (row : Row) :
    DecoderSim strict R (fetchOperands next c op cat row) (fetchOperands next' c op cat row) := by
  unfold fetchOperands
  split
  · exact orMiscategorized_sim _ _ _
  · exact orMiscategorized_sim _ _ _
  · exact .bind (operandByte_sim h) fun _ => orMiscategorized_sim _ _ _
  · exact .bind (operandWord_sim h) fun _ => orMiscategorized_sim _ _ _
  · exact .bind (decodeModrm_sim h _ _ _) fun _ => orMiscategorized_sim _ _ _
  · exact .bind (decodeModrm_sim h _ _ _) fun _ => orMiscategorized_sim _ _ _
  · exact fetchGroup_sim h _ _

omit h in
theorem classify_sim (c : Config) (op : Byte) :
    DecoderSim strict R (classify c op) (classify c op) := by
  unfold classify
  split
  · split
    · exact .throw _
    · split
      · exact .throw _
      · exact .pure _
  · exact .throw _

/-- The decoder does on the second stream what it does on the first. -/
theorem decodeFrom_sim (c : Config) : DecoderSim strict R (decodeFrom next c) (decodeFrom next' c) :=
  .bind (.takeByte h rfl) fun _ => .bind (classify_sim _ _) fun _ => fetchOperands_sim h _ _ _ _

end

end Sys2Proof
end

