-- ==== Sys2Proof/Laws/Encoding.lean ====
section
/-! SUPPORT. What each part of the decoder answers on a list of bytes, in both directions: on the bytes the encoder
writes, and, from an answer, which bytes it read (30_encoding.md R80-R106). -/

namespace Sys2Proof

open Machine

/-! ## Peeling a decoder apart -/

theorem decoder_bind_ok {σ α β : Type} {x : Decoder σ α} {f : α → Decoder σ β} {s t : σ} {b : β}
    (h : (x >>= f) s = .ok b t) : ∃ a u, x s = .ok a u ∧ f a u = .ok b t := by
  rw [bind_apply] at h
  cases hx : x s with
  | ok a u => rw [hx] at h; exact ⟨a, u, rfl, h⟩
  | error e u => rw [hx] at h; cases h

theorem decoder_bind_error {σ α β : Type} {x : Decoder σ α} {f : α → Decoder σ β} {s t : σ} {e : Reject}
    (h : (x >>= f) s = .error e t) : x s = .error e t ∨ ∃ a u, x s = .ok a u ∧ f a u = .error e t := by
  rw [bind_apply] at h
  cases hx : x s with
  | ok a u => rw [hx] at h; exact .inr ⟨a, u, rfl, h⟩
  | error e u => rw [hx] at h; cases h; exact .inl rfl

/-! ## Operand bytes and words -/

theorem operandByte_cons (b : Byte) (bs : List Byte) : operandByte listStream (b :: bs) = .ok b bs := rfl

theorem operandWord_bytes (w : Word) (bs : List Byte) : operandWord listStream (wordBytes w ++ bs) = .ok w bs := by
  show EStateM.Result.ok (joinBytes (highByte w) (lowByte w)) bs = _
  rw [joinBytes_split]

theorem operandByte_read {bs rest : List Byte} {v : Byte} (h : operandByte listStream bs = .ok v rest) :
    bs = v :: rest := by
  cases bs with
  | nil => cases h
  | cons b bs => cases h; rfl

theorem operandWord_read {bs rest : List Byte} {v : Word} (h : operandWord listStream bs = .ok v rest) :
    bs = wordBytes v ++ rest := by
  match bs, h with
  | [], h => cases h
  | [_], h => cases h
  | a :: b :: bs, h =>
    have h : EStateM.Result.ok (joinBytes b a) bs = EStateM.Result.ok (ε := Reject) v rest := h
    cases h
    simp [wordBytes]

/-! ## The effective operand and the ModR/M byte -/

theorem effectiveOperand_encoded {ρ : Type} {regOf : BitVec 3 → ρ} {num : ρ → BitVec 3} (hn : ∀ r, regOf (num r) = r)
    {e : RM ρ} (he : e.wf = true) (rest : List Byte) :
    effectiveOperand listStream regOf e.modBits (e.rmBits num) (e.dispBytes ++ rest) = .ok e rest := by
  cases e with
  | reg r => simp [effectiveOperand, RM.modBits, RM.rmBits, RM.dispBytes, hn]
  | base b =>
    cases b <;> simp [RM.wf] at he <;>
      simp [effectiveOperand, RM.modBits, RM.rmBits, RM.dispBytes, BaseForm.num, BaseForm.ofNum]
  | direct a => simp [effectiveOperand, RM.modBits, RM.rmBits, RM.dispBytes, operandWord_bytes]
  | disp8 b d => simp [effectiveOperand, RM.modBits, RM.rmBits, RM.dispBytes, operandByte_cons]
  | disp16 b d => simp [effectiveOperand, RM.modBits, RM.rmBits, RM.dispBytes, operandWord_bytes]

theorem decodeModrm_encoded {ρ : Type} {regOf : BitVec 3 → ρ} {num : ρ → BitVec 3} (hn : ∀ r, regOf (num r) = r)
    {c : Config} {op : Byte} {e : RM ρ} {reg : BitVec 3} (he : e.wf = true)
    (hs : c.modrmSupported e.modBits (e.rmBits num) = true) (rest : List Byte) :
    decodeModrm listStream regOf c op (modrmBytes num e reg ++ rest) = .ok (e, reg) rest := by
  simp [decodeModrm, modrmBytes, operandByte_cons, hs, effectiveOperand_encoded hn he]

theorem effectiveOperand_read {ρ : Type} {regOf : BitVec 3 → ρ} {num : ρ → BitVec 3} (hn : ∀ n, num (regOf n) = n)
    {mod : BitVec 2} {rm : BitVec 3} {bs rest : List Byte} {e : RM ρ}
    (h : effectiveOperand listStream regOf mod rm bs = .ok e rest) :
    e.wf = true ∧ e.modBits = mod ∧ e.rmBits num = rm ∧ bs = e.dispBytes ++ rest := by
  unfold effectiveOperand at h
  have hm : mod = 0 ∨ mod = 1 ∨ mod = 2 ∨ mod = 3 := by clear h; revert mod; decide
  rcases hm with rfl | rfl | rfl | rfl
  · simp only [show (0 : BitVec 2).toNat = 0 from rfl] at h
    by_cases hr : rm = 0b110#3
    · rw [if_pos hr] at h
      obtain ⟨v, u, h1, h2⟩ := decoder_bind_ok h
      cases h2
      exact ⟨rfl, rfl, hr.symm, operandWord_read h1⟩
    · rw [if_neg hr] at h
      cases h
      refine ⟨?_, rfl, by simp [RM.rmBits], rfl⟩
      have hb : BaseForm.ofNum rm ≠ .bp := fun hb => hr (by rw [← baseForm_num_ofNum rm, hb]; rfl)
      generalize BaseForm.ofNum rm = b at hb ⊢
      cases b <;> first | rfl | exact absurd rfl hb
  · obtain ⟨v, u, h1, h2⟩ := decoder_bind_ok
      (show (operandByte listStream >>= fun v => pure (RM.disp8 (.ofNum rm) v)) bs = _ from h)
    cases h2
    exact ⟨rfl, rfl, by simp [RM.rmBits], operandByte_read h1⟩
  · obtain ⟨v, u, h1, h2⟩ := decoder_bind_ok
      (show (operandWord listStream >>= fun v => pure (RM.disp16 (.ofNum rm) v)) bs = _ from h)
    cases h2
    exact ⟨rfl, rfl, by simp [RM.rmBits], operandWord_read h1⟩
  · have h : EStateM.Result.ok (RM.reg (regOf rm)) bs = EStateM.Result.ok (ε := Reject) e rest := h
    cases h
    exact ⟨rfl, rfl, hn rm, rfl⟩

theorem decodeModrm_read {ρ : Type} {regOf : BitVec 3 → ρ} {num : ρ → BitVec 3} (hn : ∀ n, num (regOf n) = n)
    {c : Config} {op : Byte} {bs rest : List Byte} {e : RM ρ} {reg : BitVec 3}
    (h : decodeModrm listStream regOf c op bs = .ok (e, reg) rest) :
    e.wf = true ∧ c.modrmSupported e.modBits (e.rmBits num) = true ∧ bs = modrmBytes num e reg ++ rest := by
  obtain ⟨m, u, h1, h2⟩ := decoder_bind_ok h
  have hb := operandByte_read h1
  by_cases hs : c.modrmSupported (modField m) (lowField m) = true
  · rw [if_pos hs] at h2
    obtain ⟨e', u', h3, h4⟩ := decoder_bind_ok h2
    cases h4
    obtain ⟨hw, hmod, hrm, hd⟩ := effectiveOperand_read hn h3
    exact ⟨hw, by rw [hmod, hrm]; exact hs, by rw [hb, hd, modrmBytes, hmod, hrm]; simp⟩
  · rw [if_neg hs] at h2; cases h2

/-! ## Classifying an opcode byte -/

/-- A byte one fixed row claims is classified as that row's, if the row is implemented. -/
theorem classify_single {σ : Type} {c : Config} {op : Byte} {r : OpRow} (h1 : fixedRowsAt op = [r])
    (h2 : mappedCategory op = some r.category) (h3 : c.implements r.row = true) (s : σ) :
    classify c op s = .ok (r.category, r.row) s := by
  simp [classify, implemented, rowsAt, h1, h3, categoryAt, h2, handlerAt]

/-- Where classification succeeds, it names an implemented row of the byte and moves nothing. -/
theorem classify_read {σ : Type} {c : Config} {op : Byte} {s t : σ} {cat : Category} {row : Row}
    (h : classify c op s = .ok (cat, row) t) :
    t = s ∧ ∃ r ∈ rowsAt c op, r.category = cat ∧ r.row = row ∧ c.implements row = true := by
  unfold classify at h
  by_cases hi : implemented c op = true
  · rw [if_pos hi] at h
    cases hk : categoryAt c op with
    | none => rw [hk] at h; cases h
    | some k =>
      rw [hk] at h
      cases hq : handlerAt c k op with
      | none => simp only [hq] at h; cases h
      | some q =>
        simp only [hq] at h
        cases h
        have hp := List.find?_some hq
        simp only [Bool.and_eq_true, decide_eq_true_eq] at hp
        exact ⟨rfl, q, List.mem_of_find?_eq_some hq, hp.1, rfl, hp.2⟩
  · rw [if_neg hi] at h; cases h

theorem orMiscategorized_read {σ : Type} {op : Byte} {cat : Category} {o : Option Instr} {i : Instr} {s t : σ}
    (h : orMiscategorized op cat o s = .ok i t) : o = some i ∧ t = s := by
  cases o with
  | none => cases h
  | some j => cases h; exact ⟨rfl, rfl⟩

theorem admitted_implements {c : Config} {i : Instr} (h : i.admitted c = true) : c.implements i.row = true := by
  simp only [Instr.admitted, Bool.and_eq_true] at h; exact h.1.1

theorem admitted_supported {c : Config} {i : Instr} {mod : BitVec 2} {rm : BitVec 3} (h : i.admitted c = true)
    (hp : i.modrmPair = some (mod, rm)) : c.modrmSupported mod rm = true := by
  simp only [Instr.admitted, hp, Bool.and_eq_true] at h; exact h.1.2

end Sys2Proof
end

