-- ==== Sys2Proof/Laws/Memory.lean ====
section
/-! SUPPORT. The laws of the memory operations: read after write, the canonical form is kept, and canonical memories
that read alike are equal. -/

namespace Sys2Proof.Machine

@[simp] theorem get_nil (a : Nat) : Memory.get [] a = unlistedByte := rfl

theorem get_cons (cell : Host.Cell) (m : Memory) (a : Nat) :
    Memory.get (cell :: m) a = if cell.1 = a then cell.2 else Memory.get m a := rfl

theorem erase_cons (cell : Host.Cell) (m : Memory) (a : Nat) :
    Memory.erase (cell :: m) a = if cell.1 = a then m.erase a else cell :: m.erase a := by
  by_cases h : cell.1 = a <;> simp [Memory.erase, h]

theorem mem_erase {m : Memory} {a : Nat} {cell : Host.Cell} : cell ∈ m.erase a ↔ cell ∈ m ∧ cell.1 ≠ a := by
  simp [Memory.erase]

theorem get_erase (m : Memory) (a b : Nat) : (m.erase a).get b = if a = b then unlistedByte else m.get b := by
  induction m with
  | nil => simp [Memory.erase]
  | cons cell m ih =>
    rw [erase_cons]
    by_cases h : cell.1 = a
    · rw [if_pos h, ih, get_cons]
      by_cases hb : a = b <;> simp [hb, h]
    · rw [if_neg h, get_cons, ih, get_cons]
      by_cases hb : cell.1 = b
      · have : a ≠ b := fun hab => h (hb.trans hab.symm)
        simp [hb, this]
      · simp [hb]

theorem mem_insert {m : Memory} {a : Nat} {v : Byte} {cell : Host.Cell} :
    cell ∈ m.insert a v ↔ cell = (a, v) ∨ cell ∈ m := by
  induction m with
  | nil => simp [Memory.insert]
  | cons hd m ih =>
    obtain ⟨k, w⟩ := hd
    by_cases h : a < k
    · simp [Memory.insert, h]
    · simp only [Memory.insert, if_neg h, List.mem_cons, ih]
      tauto

theorem get_insert (m : Memory) (a b : Nat) (v : Byte) (h : ∀ cell ∈ m, cell.1 ≠ a) :
    (m.insert a v).get b = if a = b then v else m.get b := by
  induction m with
  | nil => rfl
  | cons hd m ih =>
    obtain ⟨k, w⟩ := hd
    have hk : k ≠ a := h (k, w) List.mem_cons_self
    by_cases hlt : a < k
    · simp [Memory.insert, hlt, get_cons]
    · rw [Memory.insert, if_neg hlt, get_cons, ih fun cell hc => h cell (List.mem_cons_of_mem _ hc), get_cons]
      by_cases hb : k = b
      · have : a ≠ b := fun hab => hk (hb.trans hab.symm)
        simp [hb, this]
      · simp [hb]

/-- Read after write, at every pair of addresses (R52, R59). -/
theorem get_set (m : Memory) (a b : Nat) (v : Byte) : (m.set a v).get b = if a = b then v else m.get b := by
  unfold Memory.set
  by_cases hv : v = unlistedByte
  · rw [if_pos hv, get_erase, hv]
  · rw [if_neg hv, get_insert _ _ _ _ fun cell hc => (mem_erase.1 hc).2, get_erase]
    by_cases hb : a = b <;> simp [hb]

theorem wf_nil : Memory.wf [] := ⟨List.Pairwise.nil, by simp⟩

theorem wf_erase {m : Memory} (a : Nat) (h : m.wf) : (m.erase a).wf :=
  ⟨h.1.filter _, fun cell hc => h.2 cell (mem_erase.1 hc).1⟩

theorem pairwise_insert {m : Memory} {a : Nat} {v : Byte} (h : m.Pairwise fun x y => x.1 < y.1)
    (ha : ∀ cell ∈ m, cell.1 ≠ a) : (m.insert a v).Pairwise fun x y => x.1 < y.1 := by
  induction m with
  | nil => simp [Memory.insert]
  | cons hd m ih =>
    obtain ⟨k, w⟩ := hd
    obtain ⟨hhd, htl⟩ := List.pairwise_cons.1 h
    have hk : k ≠ a := ha (k, w) List.mem_cons_self
    by_cases hlt : a < k
    · rw [Memory.insert, if_pos hlt]
      refine List.pairwise_cons.2 ⟨fun cell hc => ?_, h⟩
      rcases List.mem_cons.1 hc with rfl | hc
      · exact hlt
      · exact hlt.trans (hhd cell hc)
    · rw [Memory.insert, if_neg hlt]
      refine List.pairwise_cons.2 ⟨fun cell hc => ?_, ih htl fun cell hc => ha cell (List.mem_cons_of_mem _ hc)⟩
      rcases mem_insert.1 hc with rfl | hc
      · exact lt_of_le_of_ne (Nat.le_of_not_lt hlt) hk
      · exact hhd cell hc

/-- Every write inside the address space keeps the canonical form. -/
theorem wf_set {m : Memory} {a : Nat} {v : Byte} (h : m.wf) (ha : a < Config.memBytes) : (m.set a v).wf := by
  unfold Memory.set
  by_cases hv : v = unlistedByte
  · rw [if_pos hv]; exact wf_erase a h
  · rw [if_neg hv]
    refine ⟨pairwise_insert (wf_erase a h).1 fun cell hc => (mem_erase.1 hc).2, fun cell hc => ?_⟩
    rcases mem_insert.1 hc with rfl | hc
    · exact ⟨ha, hv⟩
    · exact (wf_erase a h).2 cell hc

/-- The state's byte write keeps the canonical form. -/
theorem setByte_wf {s : State} (a : Word) (v : Byte) (h : s.mem.wf) : (s.setByte a v).mem.wf :=
  wf_set h a.isLt

/-- The state's byte read after a byte write (R52). -/
theorem byteAt_setByte (s : State) (a b : Word) (v : Byte) :
    (s.setByte a v).byteAt b = if a = b then v else s.byteAt b := by
  unfold State.byteAt State.setByte
  simp only [get_set, BitVec.toNat_inj]

/-- The byte read depends on memory alone. -/
theorem byteAt_congr {s t : State} (h : t.mem = s.mem) (a : Word) : t.byteAt a = s.byteAt a := by
  unfold State.byteAt; rw [h]

end Sys2Proof.Machine
end

