-- ==== Sys2Proof/Laws/Operands.lean ====
section
/-! SUPPORT. What each shared operation can do, said once: reading and writing operands, the stack primitives, and the
common operations of the move, arithmetic and exchange families. -/

namespace Sys2Proof.Machine

theorem canAdvance_iff (s : State) (a : Word) : s.canAdvance a = true ↔ a ≠ 0xFFFF#16 ∨ s.cfg.topWrap = true := by
  simp [State.canAdvance]

theorem accessible_w8 (s : State) (d : Desc) : s.accessible .w8 d := fun _ h => nomatch h

theorem accessible_mem (s : State) (a : Word) : s.accessible .w16 (.mem a) ↔ s.canAdvance a = true := by
  rw [canAdvance_iff]
  exact ⟨fun h => h a rfl rfl, fun h b _ hb => by cases hb; exact h⟩

theorem accessible_reg8 (s : State) (w : Width) (r : Reg8) : s.accessible w (.reg8 r) := fun _ _ h => nomatch h
theorem accessible_reg16 (s : State) (w : Width) (r : Reg16) : s.accessible w (.reg16 r) := fun _ _ h => nomatch h
theorem accessible_imm8 (s : State) (w : Width) (v : Byte) : s.accessible w (.imm8 v) := fun _ _ h => nomatch h
theorem accessible_imm16 (s : State) (w : Width) (v : Word) : s.accessible w (.imm16 v) := fun _ _ h => nomatch h

/-- Accessibility depends on the parameters alone. -/
theorem accessible_congr {s t : State} (h : t.cfg = s.cfg) (w : Width) (d : Desc) :
    t.accessible w d ↔ s.accessible w d := by
  unfold State.accessible; rw [h]

/-- The descriptor of an effective operand has the width its register naming has. -/
theorem effective8_hasWidth (e : RM Reg8) (s : State) : (effective8 e s).hasWidth .w8 := by
  cases e <;> simp [effective8, resolve, Desc.hasWidth]

theorem effective16_hasWidth (e : RM Reg16) (s : State) : (effective16 e s).hasWidth .w16 := by
  cases e <;> simp [effective16, resolve, Desc.hasWidth]

theorem effective8_writable (e : RM Reg8) (s : State) : (effective8 e s).writable := by
  cases e <;> simp [effective8, resolve, Desc.writable]

theorem effective16_writable (e : RM Reg16) (s : State) : (effective16 e s).writable := by
  cases e <;> simp [effective16, resolve, Desc.writable]

/-! ## Reading and writing an operand -/

theorem readOperand_ok {s : State} {w : Width} {d : Desc} (hw : d.hasWidth w) (ha : s.accessible w d) :
    readOperand w d s = .ok (s.valueAt w d) s := by
  cases w <;> cases d <;> simp_all [Desc.hasWidth] <;> try rfl
  rw [accessible_mem] at ha
  simp [readOperand, readWord_apply, ha, State.valueAt]

theorem readOperand_fault {s : State} {w : Width} {d : Desc} (ha : ¬ s.accessible w d) :
    readOperand w d s = .error beyondTop s := by
  cases w
  · exact absurd (accessible_w8 s d) ha
  · cases d with
    | mem a =>
      rw [accessible_mem] at ha
      simp [readOperand, readWord_apply, ha]
    | reg8 r => exact absurd (accessible_reg8 s _ r) ha
    | reg16 r => exact absurd (accessible_reg16 s _ r) ha
    | imm8 r => exact absurd (accessible_imm8 s _ r) ha
    | imm16 r => exact absurd (accessible_imm16 s _ r) ha

/-- The state after a write through a descriptor, where the write succeeds. -/
def putAt (s : State) : (w : Width) → Desc → BitVec w.bits → State
  | .w8, .reg8 r, v => { s with regs := s.regs.set8 r v }
  | .w8, .mem a, v => s.setByte a v
  | .w16, .reg16 r, v => { s with regs := s.regs.set16 r v }
  | .w16, .mem a, v => (s.setByte a (lowByte v)).setByte (a + 1) (highByte v)
  | .w8, .reg16 _, _ => s
  | .w8, .imm8 _, _ => s
  | .w8, .imm16 _, _ => s
  | .w16, .reg8 _, _ => s
  | .w16, .imm8 _, _ => s
  | .w16, .imm16 _, _ => s

theorem writeOperand_ok {s : State} {w : Width} {d : Desc} (hw : d.hasWidth w) (hd : d.writable)
    (ha : s.accessible w d) (v : BitVec w.bits) : writeOperand w d v s = .ok ⟨⟩ (putAt s w d v) := by
  cases w <;> cases d <;> simp_all [Desc.hasWidth, Desc.writable] <;> try rfl
  rw [accessible_mem] at ha
  simp [writeOperand, writeWord_apply, ha, putAt]

theorem writeOperand_fault {s : State} {w : Width} {d : Desc} (ha : ¬ s.accessible w d) (v : BitVec w.bits) :
    writeOperand w d v s = .error beyondTop s := by
  cases w
  · exact absurd (accessible_w8 s d) ha
  · cases d with
    | mem a =>
      rw [accessible_mem] at ha
      simp [writeOperand, writeWord_apply, ha]
    | reg8 r => exact absurd (accessible_reg8 s _ r) ha
    | reg16 r => exact absurd (accessible_reg16 s _ r) ha
    | imm8 r => exact absurd (accessible_imm8 s _ r) ha
    | imm16 r => exact absurd (accessible_imm16 s _ r) ha

@[simp] theorem putAt_pc (s : State) (w : Width) (d : Desc) (v : BitVec w.bits) : (putAt s w d v).pc = s.pc := by
  cases w <;> cases d <;> rfl
@[simp] theorem putAt_flags (s : State) (w : Width) (d : Desc) (v : BitVec w.bits) :
    (putAt s w d v).flags = s.flags := by cases w <;> cases d <;> rfl
@[simp] theorem putAt_status (s : State) (w : Width) (d : Desc) (v : BitVec w.bits) :
    (putAt s w d v).status = s.status := by cases w <;> cases d <;> rfl
@[simp] theorem putAt_phase (s : State) (w : Width) (d : Desc) (v : BitVec w.bits) :
    (putAt s w d v).phase = s.phase := by cases w <;> cases d <;> rfl
@[simp] theorem putAt_cfg (s : State) (w : Width) (d : Desc) (v : BitVec w.bits) :
    (putAt s w d v).cfg = s.cfg := by cases w <;> cases d <;> rfl

theorem putAt_sameControl (s : State) (w : Width) (d : Desc) (v : BitVec w.bits) : SameControl s (putAt s w d v) := by
  constructor <;> simp

/-- The value written is read back (R53, R63, R64). -/
theorem valueAt_putAt {s : State} {w : Width} {d : Desc} (hw : d.hasWidth w) (hd : d.writable) (v : BitVec w.bits) :
    (putAt s w d v).valueAt w d = v := by
  cases w <;> cases d <;> simp_all [Desc.hasWidth, Desc.writable, putAt, State.valueAt, byteAt_setByte]

/-- A write changes nothing but through its descriptor. -/
theorem putAt_only (s : State) (w : Width) (d : Desc) (v : BitVec w.bits) : OnlyThrough [(w, d)] s (putAt s w d v) := by
  refine ⟨fun r h => ?_, fun b h => ?_, fun a h => ?_⟩
  · have h := h (w, d) (by simp)
    cases w <;> cases d <;> simp_all [putAt, Desc.touches16]
    · exact get16_set8_other _ _ _ _ h
    · exact get16_set16_other _ _ (Ne.symm h)
  · have h := h (w, d) (by simp)
    cases w <;> cases d <;> simp_all [putAt, Desc.touches8]
    · exact get8_set8_other _ _ (Ne.symm h)
    · exact get8_set16_other _ _ _ _ (Ne.symm h)
  · have h := h (w, d) (by simp)
    cases w <;> cases d <;> simp_all [putAt, Desc.storedBytes, byteAt_setByte] <;> try rfl
    · intro hab; exact absurd hab.symm h
    · rw [if_neg (Ne.symm h.2), if_neg (Ne.symm h.1)]

/-- Frames compose. -/
theorem onlyThrough_trans {ds ds' : List (Width × Desc)} {s t u : State} (h : OnlyThrough ds s t)
    (h' : OnlyThrough ds' t u) : OnlyThrough (ds ++ ds') s u :=
  ⟨fun r hr => (h'.words r fun p hp => hr p (by simp [hp])).trans (h.words r fun p hp => hr p (by simp [hp])),
   fun r hr => (h'.halves r fun p hp => hr p (by simp [hp])).trans (h.halves r fun p hp => hr p (by simp [hp])),
   fun r hr => (h'.bytes r fun p hp => hr p (by simp [hp])).trans (h.bytes r fun p hp => hr p (by simp [hp]))⟩

/-- A frame through fewer descriptors is a frame through more. -/
theorem onlyThrough_mono {ds ds' : List (Width × Desc)} {s t : State} (h : OnlyThrough ds s t)
    (hs : ∀ p ∈ ds, p ∈ ds') : OnlyThrough ds' s t :=
  ⟨fun r hr => h.words r fun p hp => hr p (hs p hp), fun r hr => h.halves r fun p hp => hr p (hs p hp),
   fun r hr => h.bytes r fun p hp => hr p (hs p hp)⟩

/-- Registers and memory alone decide what an operand reads. -/
theorem valueAt_congr {s t : State} (h1 : t.regs = s.regs) (h2 : t.mem = s.mem) (w : Width) (d : Desc) :
    t.valueAt w d = s.valueAt w d := by
  cases w <;> cases d <;> simp [State.valueAt, h1, State.byteAt, h2]

/-- Registers and memory alone decide what changed. -/
theorem onlyThrough_congr {ds : List (Width × Desc)} {s t u : State} (h : OnlyThrough ds s t)
    (h1 : u.regs = t.regs) (h2 : u.mem = t.mem) : OnlyThrough ds s u :=
  ⟨fun r hr => by rw [h1]; exact h.words r hr, fun r hr => by rw [h1]; exact h.halves r hr,
   fun a ha => (byteAt_congr h2 a).trans (h.bytes a ha)⟩

theorem onlyThrough_refl (ds : List (Width × Desc)) (s : State) : OnlyThrough ds s s :=
  ⟨fun _ _ => rfl, fun _ _ => rfl, fun _ _ => rfl⟩

/-- A change of neither registers nor memory goes through no descriptor. -/
theorem onlyThrough_nil {s t : State} (h1 : t.regs = s.regs) (h2 : t.mem = s.mem) : OnlyThrough [] s t :=
  ⟨fun _ _ => by rw [h1], fun _ _ => by rw [h1], fun _ _ => byteAt_congr h2 _⟩

theorem putAt_wf {s : State} {w : Width} {d : Desc} (v : BitVec w.bits) (h : s.mem.wf) : (putAt s w d v).mem.wf := by
  cases w <;> cases d <;> simp only [putAt] <;> try exact h
  · exact setByte_wf _ _ h
  · exact setByte_wf _ _ (setByte_wf _ _ h)

end Sys2Proof.Machine
end

