-- ==== Sys2Proof/Laws/Exec.lean ====
section
/-! SUPPORT. What each shared operation of the instruction families answers, said once: its next state where every
access succeeds, and the stopped state where one raises AddressRange. The meanings are one line over these. -/

namespace Sys2Proof.Machine

theorem perform_ok {op : Op Unit} {s t : State} (h : op s = .ok ⟨⟩ t) : perform op s = .next t := by
  simp only [perform, h]

theorem perform_error {op : Op Unit} {s t : State} {why : Fatal} (h : op s = .error why t) :
    perform op s = .next (raise why t) := by
  simp only [perform, h]

theorem raise_beyondTop (s : State) : raise beyondTop s = stoppedBeyondTop s := rfl

/-! ## Move (R150) -/

theorem moveOp_ok {s : State} {w : Width} {dst src : Desc} (h1 : dst.hasWidth w) (h2 : src.hasWidth w)
    (h3 : dst.writable) (h4 : s.accessible w src) (h5 : s.accessible w dst) :
    perform (moveOp w dst src) s = .next (putAt s w dst (s.valueAt w src)) := by
  apply perform_ok
  simp [moveOp, readOperand_ok h2 h4, writeOperand_ok h1 h3 h5]

theorem moveOp_fault {s : State} {w : Width} {dst src : Desc} (h2 : src.hasWidth w)
    (h : ¬ (s.accessible w src ∧ s.accessible w dst)) :
    perform (moveOp w dst src) s = .next (stoppedBeyondTop s) := by
  rw [← raise_beyondTop]
  apply perform_error
  by_cases h4 : s.accessible w src
  · have h5 : ¬ s.accessible w dst := fun h5 => h ⟨h4, h5⟩
    simp [moveOp, readOperand_ok h2 h4, writeOperand_fault h5]
  · simp [moveOp, readOperand_fault h4]

/-! ## Arithmetic (R170) -/

/-- The state after an arithmetic operation that writes its result back. -/
def afterArith (s : State) (kind : AluKind) (w : Width) (a b : Desc) : State :=
  let res := alu kind (s.valueAt w a) (s.valueAt w b)
  { putAt s w a res.r with flags := res.flags }

theorem arithOp_ok {s : State} {kind : AluKind} {w : Width} {a b : Desc} (h1 : a.hasWidth w) (h2 : b.hasWidth w)
    (h3 : a.writable) (h4 : s.accessible w a) (h5 : s.accessible w b) :
    perform (arithOp kind w a a b true) s = .next (afterArith s kind w a b) := by
  apply perform_ok
  simp [arithOp, readOperand_ok h1 h4, readOperand_ok h2 h5, writeOperand_ok h1 h3 h4, afterArith]

theorem compareOp_ok {s : State} {kind : AluKind} {w : Width} {a b : Desc} (h1 : a.hasWidth w) (h2 : b.hasWidth w)
    (h4 : s.accessible w a) (h5 : s.accessible w b) :
    perform (arithOp kind w a a b false) s =
      .next { s with flags := (alu kind (s.valueAt w a) (s.valueAt w b)).flags } := by
  apply perform_ok
  simp [arithOp, readOperand_ok h1 h4, readOperand_ok h2 h5]

theorem arithOp_fault {s : State} {kind : AluKind} {w : Width} {a b : Desc} {wb : Bool} (h1 : a.hasWidth w)
    (h : ¬ (s.accessible w a ∧ s.accessible w b)) :
    perform (arithOp kind w a a b wb) s = .next (stoppedBeyondTop s) := by
  rw [← raise_beyondTop]
  apply perform_error
  by_cases h4 : s.accessible w a
  · have h5 : ¬ s.accessible w b := fun h5 => h ⟨h4, h5⟩
    simp [arithOp, readOperand_ok h1 h4, readOperand_fault h5]
  · simp [arithOp, readOperand_fault h4]

/-! ## Exchange (R230, R231, R232) -/

theorem exchangeOp_ok {s : State} {w : Width} {x y : Desc} (h1 : x.hasWidth w) (h2 : y.hasWidth w)
    (h3 : x.writable) (h4 : y.writable) (h5 : s.accessible w x) (h6 : s.accessible w y) :
    perform (exchangeOp w x y) s = .next (putAt (putAt s w x (s.valueAt w y)) w y (s.valueAt w x)) := by
  apply perform_ok
  have h7 : (putAt s w x (s.valueAt w y)).accessible w y := (accessible_congr (putAt_cfg _ _ _ _) w y).2 h6
  simp [exchangeOp, readOperand_ok h1 h5, readOperand_ok h2 h6, writeOperand_ok h1 h3 h5, writeOperand_ok h2 h4 h7]

theorem exchangeOp_fault {s : State} {w : Width} {x y : Desc} (h : ¬ s.accessible w x) :
    perform (exchangeOp w x y) s = .next (stoppedBeyondTop s) := by
  rw [← raise_beyondTop]
  apply perform_error
  simp [exchangeOp, readOperand_fault h]

/-! ## Stack (R200, R201) -/

/-- SP moved to `v`. -/
def withSp (s : State) (v : Word) : State := { s with regs := s.regs.set16 .sp v }

@[simp] theorem withSp_pc (s : State) (v : Word) : (withSp s v).pc = s.pc := rfl
@[simp] theorem withSp_flags (s : State) (v : Word) : (withSp s v).flags = s.flags := rfl
@[simp] theorem withSp_mem (s : State) (v : Word) : (withSp s v).mem = s.mem := rfl
@[simp] theorem withSp_status (s : State) (v : Word) : (withSp s v).status = s.status := rfl
@[simp] theorem withSp_phase (s : State) (v : Word) : (withSp s v).phase = s.phase := rfl
@[simp] theorem withSp_cfg (s : State) (v : Word) : (withSp s v).cfg = s.cfg := rfl

theorem withSp_only (s : State) (v : Word) : OnlyThrough [(.w16, .reg16 .sp)] s (withSp s v) :=
  putAt_only s .w16 (.reg16 .sp) v

theorem push_apply (v : Word) (s : State) :
    push v s = writeWord (s.regs.sp - 2) v (withSp s (s.regs.sp - 2)) := rfl

theorem push_ok {s : State} (v : Word) (h : s.accessible .w16 (.mem (s.regs.sp - 2))) :
    push v s = .ok ⟨⟩ (putAt (withSp s (s.regs.sp - 2)) .w16 (.mem (s.regs.sp - 2)) v) := by
  have h' : (withSp s (s.regs.sp - 2)).canAdvance (s.regs.sp - 2) = true :=
    (accessible_mem _ _).1 ((accessible_congr (withSp_cfg _ _) _ _).2 h)
  rw [push_apply, writeWord_apply, if_pos h']
  rfl

theorem push_fault {s : State} (v : Word) (h : ¬ s.accessible .w16 (.mem (s.regs.sp - 2))) :
    push v s = .error beyondTop (withSp s (s.regs.sp - 2)) := by
  have h' : ¬ (withSp s (s.regs.sp - 2)).canAdvance (s.regs.sp - 2) = true := fun hc =>
    h ((accessible_congr (withSp_cfg _ _) _ _).1 ((accessible_mem _ _).2 hc))
  rw [push_apply, writeWord_apply, if_neg h']

theorem pop_ok {s : State} (h : s.accessible .w16 (.mem s.regs.sp)) :
    pop s = .ok (s.valueAt .w16 (.mem s.regs.sp)) (withSp s (s.regs.sp + 2)) := by
  have h' := (accessible_mem _ _).1 h
  simp [pop, readWord_apply, Regs.get16, withSp, h', State.valueAt]

theorem pop_fault {s : State} (h : ¬ s.accessible .w16 (.mem s.regs.sp)) : pop s = .error beyondTop s := by
  have h' : ¬ s.canAdvance s.regs.sp = true := fun hc => h ((accessible_mem _ _).2 hc)
  simp [pop, readWord_apply, Regs.get16, h']

/-! ## Control transfer -/

/-- The cursor moved to `target`. -/
def withPc (s : State) (target : Word) : State := { s with pc := target }

@[simp] theorem withPc_regs (s : State) (v : Word) : (withPc s v).regs = s.regs := rfl
@[simp] theorem withPc_pc (s : State) (v : Word) : (withPc s v).pc = v := rfl
@[simp] theorem withPc_flags (s : State) (v : Word) : (withPc s v).flags = s.flags := rfl
@[simp] theorem withPc_mem (s : State) (v : Word) : (withPc s v).mem = s.mem := rfl
@[simp] theorem withPc_status (s : State) (v : Word) : (withPc s v).status = s.status := rfl
@[simp] theorem withPc_phase (s : State) (v : Word) : (withPc s v).phase = s.phase := rfl
@[simp] theorem withPc_cfg (s : State) (v : Word) : (withPc s v).cfg = s.cfg := rfl

theorem jumpBy_ok (s : State) (d : Word) : perform (jumpBy d) s = .next (withPc s (s.pc + d)) := rfl

theorem jumpIf_ok (s : State) (cond : Flags → Bool) (d : Byte) :
    perform (jumpIf cond d) s = .next (if cond s.flags then withPc s (s.pc + sextByte d) else s) := by
  by_cases h : cond s.flags <;> simp [perform, jumpIf, jumpBy, withPc, h]

theorem callOp_ok {s : State} (d : Word) (h : s.accessible .w16 (.mem (s.regs.sp - 2))) :
    perform (callOp d) s =
      .next (withPc (putAt (withSp s (s.regs.sp - 2)) .w16 (.mem (s.regs.sp - 2)) s.pc) (s.pc + d)) := by
  apply perform_ok
  simp [callOp, push_ok s.pc h, withPc]

theorem callOp_fault {s : State} (d : Word) (h : ¬ s.accessible .w16 (.mem (s.regs.sp - 2))) :
    perform (callOp d) s = .next (stoppedBeyondTop (withSp s (s.regs.sp - 2))) := by
  rw [← raise_beyondTop]
  apply perform_error
  simp [callOp, push_fault s.pc h]

theorem retOp_ok {s : State} (h : s.accessible .w16 (.mem s.regs.sp)) :
    perform retOp s = .next (withPc (withSp s (s.regs.sp + 2)) (s.valueAt .w16 (.mem s.regs.sp))) := by
  apply perform_ok
  simp [retOp, pop_ok h, withPc]

theorem retOp_fault {s : State} (h : ¬ s.accessible .w16 (.mem s.regs.sp)) :
    perform retOp s = .next (stoppedBeyondTop s) := by
  rw [← raise_beyondTop]
  apply perform_error
  simp [retOp, pop_fault h]

theorem popOp_ok {s : State} (r : Reg16) (h : s.accessible .w16 (.mem s.regs.sp)) :
    perform (popOp r) s =
      .next (putAt (withSp s (s.regs.sp + 2)) .w16 (.reg16 r) (s.valueAt .w16 (.mem s.regs.sp))) := by
  apply perform_ok
  simp [popOp, pop_ok h, putAt]

theorem popOp_fault {s : State} (r : Reg16) (h : ¬ s.accessible .w16 (.mem s.regs.sp)) :
    perform (popOp r) s = .next (stoppedBeyondTop s) := by
  rw [← raise_beyondTop]
  apply perform_error
  simp [popOp, pop_fault h]

theorem haltOp_ok (s : State) : perform haltOp s = .next (raise (.halt s.cfg.haltOpcode s.pc) s) := rfl

end Sys2Proof.Machine
end

