-- ==== Sys2Proof/Laws/Fetch.lean ====
section
/-! SUPPORT. Fetching at the cursor: decoding the bytes that stand there is decoding them as a list, with the cursor
past exactly the bytes consumed (20_memory.md R56, 30_encoding.md R89). -/

namespace Sys2Proof.Machine

theorem fetchNext_some {s : State} (h : s.pc ≠ 0xFFFF#16 ∨ s.cfg.topWrap = true) :
    fetchNext s = some (s.byteAt s.pc, withPc s (s.pc + 1)) := by
  unfold fetchNext
  rw [if_pos ((canAdvance_iff s s.pc).2 h)]
  rfl

theorem fetchNext_none {s : State} (h : s.pc = 0xFFFF#16) (hw : s.cfg.topWrap = false) : fetchNext s = none := by
  unfold fetchNext
  rw [if_neg]
  simp [State.canAdvance, h, hw]

/-- The list is what is left of `n` bytes that stand at `s`'s cursor, and the state is `s` with the cursor advanced past
the others. -/
def AtCursor (s : State) (n : Nat) (bs : List Byte) (t : State) : Prop :=
  ∃ k, t = withPc s (s.pc + BitVec.ofNat 16 k) ∧ k + bs.length = n ∧ t.codeAt bs

theorem atCursor_start {s : State} {bs : List Byte} (h : s.codeAt bs) : AtCursor s bs.length bs s :=
  ⟨0, by simp [withPc], by simp, h⟩

theorem ofNat_succ (k : Nat) (w : Word) : w + BitVec.ofNat 16 (k + 1) = w + 1 + BitVec.ofNat 16 k := by
  rw [BitVec.ofNat_add, BitVec.add_assoc, BitVec.add_comm (1 : Word)]
  rfl

theorem codeAt_cons {s : State} {b : Byte} {bs : List Byte} (h : s.codeAt (b :: bs)) :
    s.byteAt s.pc = b ∧ (s.pc ≠ 0xFFFF#16 ∨ s.cfg.topWrap = true) ∧ (withPc s (s.pc + 1)).codeAt bs := by
  have h0 := h 0 (by simp)
  simp only [BitVec.add_zero, List.getElem_cons_zero] at h0
  refine ⟨h0.1, h0.2, fun k hk => ?_⟩
  have h1 := h (k + 1) (by simp only [List.length_cons]; omega)
  rw [ofNat_succ] at h1
  exact h1

/-- The bytes at the cursor come off the machine's code stream as they come off the list. -/
theorem fetch_sim (s : State) (n : Nat) : StreamSim false (AtCursor s n) listStream fetchNext := by
  rintro bs t ⟨k, ht, hn, hc⟩
  cases bs with
  | nil => intro h; cases h
  | cons b bs =>
    obtain ⟨hb, ha, hc'⟩ := codeAt_cons hc
    refine ⟨withPc t (t.pc + 1), by rw [fetchNext_some ha, hb], k + 1, ?_, ?_, hc'⟩
    · subst ht
      simp only [withPc, BitVec.ofNat_add, BitVec.add_assoc]
      rfl
    · simp only [List.length_cons] at hn; omega

/-- An instruction that stands at the cursor is fetched and decoded there. -/
theorem decodeFrom_cursor_ok {s : State} {bs rest : List Byte} {c : Config} {i : Instr} (hc : s.codeAt bs)
    (hd : decode c bs = .ok i rest) :
    decodeFrom fetchNext c s = .ok i (withPc s (s.pc + BitVec.ofNat 16 (bs.length - rest.length))) := by
  have h := decodeFrom_sim (fetch_sim s bs.length) c bs s (atCursor_start hc)
  unfold decode at hd
  cases hx : decodeFrom listStream c bs with
  | error e r => rw [hx] at hd; cases hd
  | ok j r =>
    rw [hx] at hd h
    cases hd
    obtain ⟨t, ht, k, hk, hn, -⟩ := h
    rw [ht, hk, ← hn, Nat.add_sub_cancel]

/-- An encoding that is rejected before its bytes run out is rejected at the cursor, which is then past exactly the bytes
consumed (R261). -/
theorem decodeFrom_cursor_rejected {s : State} {bs rest : List Byte} {c : Config} {why : Reject} (hc : s.codeAt bs)
    (hd : decode c bs = .rejected why rest) (he : why.isEnd = false) :
    decodeFrom fetchNext c s = .error why (withPc s (s.pc + BitVec.ofNat 16 (bs.length - rest.length))) := by
  have h := decodeFrom_sim (fetch_sim s bs.length) c bs s (atCursor_start hc)
  unfold decode at hd
  cases hx : decodeFrom listStream c bs with
  | ok j r => rw [hx] at hd; cases hd
  | error e r =>
    rw [hx] at hd h
    cases hd
    rcases h with h | ⟨t, ht, k, hk, hn, -⟩
    · rw [he] at h; cases h.1
    · rw [ht, hk, ← hn, Nat.add_sub_cancel]

/-- The relation under which a stream of states moves its cursor only. -/
def SameButCursor (s t : State) : Prop := ∃ p, t = withPc s p

theorem sameButCursor_refl (s : State) : SameButCursor s s := ⟨s.pc, rfl⟩

theorem fetch_moves_cursor (s : State) :
    StreamSim true (fun t u => t = u ∧ SameButCursor s t) fetchNext fetchNext := by
  rintro t u ⟨rfl, p, rfl⟩
  unfold fetchNext
  split
  · next heq =>
    by_cases hc : (withPc s p).canAdvance (withPc s p).pc = true
    · rw [if_pos hc] at heq ⊢
      cases heq
      exact ⟨_, rfl, rfl, _, rfl⟩
    · rw [if_neg hc] at heq; cases heq
  · next heq => intro _; exact heq

/-- Decoding at the cursor changes the cursor only (R89). -/
theorem decodeFrom_keeps_state (s : State) (c : Config) :
    match decodeFrom fetchNext c s with
    | .ok _ t => SameButCursor s t
    | .error _ t => SameButCursor s t := by
  have h := decodeFrom_sim (fetch_moves_cursor s) c s s ⟨rfl, sameButCursor_refl s⟩
  cases hx : decodeFrom fetchNext c s with
  | ok i t =>
    rw [hx] at h
    obtain ⟨t', ht, heq, hs⟩ := h
    exact hs
  | error e t =>
    rw [hx] at h
    rcases h with h | ⟨t', ht, heq, hs⟩
    · cases h.2
    · exact hs

end Sys2Proof.Machine
end

