-- ==== Sys2Proof/Laws/PerInstr.lean ====
section
/-! SUPPORT. Per instruction: the opcode byte of an admitted instruction's encoding is one its own row of the opcode table
claims, with the category that row has (30_encoding.md R97, R112). -/

namespace Sys2Proof.Laws.Opcode

/-- The first byte of a well-formed, admitted instruction's encoding is claimed by its own row, and R97's map gives it
that row's category. -/
def Statement (i : Instr) : Prop :=
  ∀ c : Config, i.wf = true → i.admitted c = true → ∃ op tail r, encode c i = op :: tail ∧ r ∈ rowsAt c op ∧
    r.row = i.row ∧ categoryAt c op = some r.category

theorem rowsAt_of_fixed {c : Config} {op : Byte} {r : OpRow} (h : r ∈ fixedRowsAt op) : r ∈ rowsAt c op := by
  unfold rowsAt
  cases hf : fixedRowsAt op with
  | nil => rw [hf] at h; cases h
  | cons q qs => rw [hf] at h; exact h

theorem categoryAt_of_mapped {c : Config} {op : Byte} {k : Category} (h : mappedCategory op = some k) :
    categoryAt c op = some k := by
  unfold categoryAt; rw [h]

theorem of_fixed {i : Instr} {op : Byte} (tail : List Byte) (r : OpRow) (he : ∀ c, encode c i = op :: tail)
    (hr : r ∈ fixedRowsAt op) (hi : r.row = i.row) (hk : mappedCategory op = some r.category) : Statement i :=
  fun c _ _ => ⟨op, tail, r, he c, rowsAt_of_fixed hr, hi, categoryAt_of_mapped hk⟩

/-- A byte R97's map leaves out is claimed by no fixed row. -/
theorem fixedRowsAt_of_unmapped (op : Byte) (h : mappedCategory op = none) : fixedRowsAt op = [] := by
  revert op; decide +kernel

theorem addEbGb (e : RM Reg8) (g : Reg8) : Statement (.addEbGb e g) :=
  of_fixed _ ⟨.addEbGb, .modrm8, 0x00#8, 0x00#8, none⟩ (fun _ => rfl) (by decide) rfl (by decide)

theorem addEvGv (e : RM Reg16) (g : Reg16) : Statement (.addEvGv e g) :=
  of_fixed _ ⟨.addEvGv, .modrm16, 0x01#8, 0x01#8, none⟩ (fun _ => rfl) (by decide) rfl (by decide)

theorem addGbEb (e : RM Reg8) (g : Reg8) : Statement (.addGbEb e g) :=
  of_fixed _ ⟨.addGbEb, .modrm8, 0x02#8, 0x02#8, none⟩ (fun _ => rfl) (by decide) rfl (by decide)

theorem addGvEv (e : RM Reg16) (g : Reg16) : Statement (.addGvEv e g) :=
  of_fixed _ ⟨.addGvEv, .modrm16, 0x03#8, 0x03#8, none⟩ (fun _ => rfl) (by decide) rfl (by decide)

theorem addAlIb (imm : Byte) : Statement (.addAlIb imm) :=
  of_fixed _ ⟨.addAlIb, .imm8, 0x04#8, 0x04#8, none⟩ (fun _ => rfl) (by decide) rfl (by decide)

theorem addAxIv (imm : Word) : Statement (.addAxIv imm) :=
  of_fixed _ ⟨.addAxIv, .imm16, 0x05#8, 0x05#8, none⟩ (fun _ => rfl) (by decide) rfl (by decide)

theorem subEbGb (e : RM Reg8) (g : Reg8) : Statement (.subEbGb e g) :=
  of_fixed _ ⟨.subEbGb, .modrm8, 0x28#8, 0x28#8, none⟩ (fun _ => rfl) (by decide) rfl (by decide)

theorem subEvGv (e : RM Reg16) (g : Reg16) : Statement (.subEvGv e g) :=
  of_fixed _ ⟨.subEvGv, .modrm16, 0x29#8, 0x29#8, none⟩ (fun _ => rfl) (by decide) rfl (by decide)

theorem subGbEb (e : RM Reg8) (g : Reg8) : Statement (.subGbEb e g) :=
  of_fixed _ ⟨.subGbEb, .modrm8, 0x2A#8, 0x2A#8, none⟩ (fun _ => rfl) (by decide) rfl (by decide)

theorem subGvEv (e : RM Reg16) (g : Reg16) : Statement (.subGvEv e g) :=
  of_fixed _ ⟨.subGvEv, .modrm16, 0x2B#8, 0x2B#8, none⟩ (fun _ => rfl) (by decide) rfl (by decide)

theorem subAlIb (imm : Byte) : Statement (.subAlIb imm) :=
  of_fixed _ ⟨.subAlIb, .imm8, 0x2C#8, 0x2C#8, none⟩ (fun _ => rfl) (by decide) rfl (by decide)

theorem subAxIv (imm : Word) : Statement (.subAxIv imm) :=
  of_fixed _ ⟨.subAxIv, .imm16, 0x2D#8, 0x2D#8, none⟩ (fun _ => rfl) (by decide) rfl (by decide)

theorem cmpEbGb (e : RM Reg8) (g : Reg8) : Statement (.cmpEbGb e g) :=
  of_fixed _ ⟨.cmpEbGb, .modrm8, 0x38#8, 0x38#8, none⟩ (fun _ => rfl) (by decide) rfl (by decide)

theorem cmpEvGv (e : RM Reg16) (g : Reg16) : Statement (.cmpEvGv e g) :=
  of_fixed _ ⟨.cmpEvGv, .modrm16, 0x39#8, 0x39#8, none⟩ (fun _ => rfl) (by decide) rfl (by decide)

theorem cmpGbEb (e : RM Reg8) (g : Reg8) : Statement (.cmpGbEb e g) :=
  of_fixed _ ⟨.cmpGbEb, .modrm8, 0x3A#8, 0x3A#8, none⟩ (fun _ => rfl) (by decide) rfl (by decide)

theorem cmpGvEv (e : RM Reg16) (g : Reg16) : Statement (.cmpGvEv e g) :=
  of_fixed _ ⟨.cmpGvEv, .modrm16, 0x3B#8, 0x3B#8, none⟩ (fun _ => rfl) (by decide) rfl (by decide)

theorem cmpAlIb (imm : Byte) : Statement (.cmpAlIb imm) :=
  of_fixed _ ⟨.cmpAlIb, .imm8, 0x3C#8, 0x3C#8, none⟩ (fun _ => rfl) (by decide) rfl (by decide)

theorem cmpAxIv (imm : Word) : Statement (.cmpAxIv imm) :=
  of_fixed _ ⟨.cmpAxIv, .imm16, 0x3D#8, 0x3D#8, none⟩ (fun _ => rfl) (by decide) rfl (by decide)

theorem incR16 (r : Reg16) : Statement (.incR16 r) := by
  cases r <;> exact of_fixed _ ⟨.incR16, .noOperand, 0x40#8, 0x47#8, none⟩ (fun _ => rfl) (by decide) rfl (by decide)

theorem decR16 (r : Reg16) : Statement (.decR16 r) := by
  cases r <;> exact of_fixed _ ⟨.decR16, .noOperand, 0x48#8, 0x4F#8, none⟩ (fun _ => rfl) (by decide) rfl (by decide)

theorem pushR16 (r : Reg16) : Statement (.pushR16 r) := by
  cases r <;> exact of_fixed _ ⟨.pushR16, .noOperand, 0x50#8, 0x57#8, none⟩ (fun _ => rfl) (by decide) rfl (by decide)

theorem popR16 (r : Reg16) : Statement (.popR16 r) := by
  cases r <;> exact of_fixed _ ⟨.popR16, .noOperand, 0x58#8, 0x5F#8, none⟩ (fun _ => rfl) (by decide) rfl (by decide)

theorem joRel8 (d : Byte) : Statement (.joRel8 d) :=
  of_fixed _ ⟨.joRel8, .imm8, 0x70#8, 0x70#8, none⟩ (fun _ => rfl) (by decide) rfl (by decide)

theorem jnoRel8 (d : Byte) : Statement (.jnoRel8 d) :=
  of_fixed _ ⟨.jnoRel8, .imm8, 0x71#8, 0x71#8, none⟩ (fun _ => rfl) (by decide) rfl (by decide)

theorem jbRel8 (d : Byte) : Statement (.jbRel8 d) :=
  of_fixed _ ⟨.jbRel8, .imm8, 0x72#8, 0x72#8, none⟩ (fun _ => rfl) (by decide) rfl (by decide)

theorem jnbRel8 (d : Byte) : Statement (.jnbRel8 d) :=
  of_fixed _ ⟨.jnbRel8, .imm8, 0x73#8, 0x73#8, none⟩ (fun _ => rfl) (by decide) rfl (by decide)

theorem jzRel8 (d : Byte) : Statement (.jzRel8 d) :=
  of_fixed _ ⟨.jzRel8, .imm8, 0x74#8, 0x74#8, none⟩ (fun _ => rfl) (by decide) rfl (by decide)

theorem jnzRel8 (d : Byte) : Statement (.jnzRel8 d) :=
  of_fixed _ ⟨.jnzRel8, .imm8, 0x75#8, 0x75#8, none⟩ (fun _ => rfl) (by decide) rfl (by decide)

theorem jbeRel8 (d : Byte) : Statement (.jbeRel8 d) :=
  of_fixed _ ⟨.jbeRel8, .imm8, 0x76#8, 0x76#8, none⟩ (fun _ => rfl) (by decide) rfl (by decide)

theorem jaRel8 (d : Byte) : Statement (.jaRel8 d) :=
  of_fixed _ ⟨.jaRel8, .imm8, 0x77#8, 0x77#8, none⟩ (fun _ => rfl) (by decide) rfl (by decide)

theorem jsRel8 (d : Byte) : Statement (.jsRel8 d) :=
  of_fixed _ ⟨.jsRel8, .imm8, 0x78#8, 0x78#8, none⟩ (fun _ => rfl) (by decide) rfl (by decide)

theorem jnsRel8 (d : Byte) : Statement (.jnsRel8 d) :=
  of_fixed _ ⟨.jnsRel8, .imm8, 0x79#8, 0x79#8, none⟩ (fun _ => rfl) (by decide) rfl (by decide)

theorem addEbIb (e : RM Reg8) (imm : Byte) : Statement (.addEbIb e imm) :=
  of_fixed _ ⟨.addEbIb, .group, 0x80#8, 0x80#8, some 0#3⟩ (fun _ => rfl) (by decide) rfl (by decide)

theorem subEbIb (e : RM Reg8) (imm : Byte) : Statement (.subEbIb e imm) :=
  of_fixed _ ⟨.subEbIb, .group, 0x80#8, 0x80#8, some 5#3⟩ (fun _ => rfl) (by decide) rfl (by decide)

theorem cmpEbIb (e : RM Reg8) (imm : Byte) : Statement (.cmpEbIb e imm) :=
  of_fixed _ ⟨.cmpEbIb, .group, 0x80#8, 0x80#8, some 7#3⟩ (fun _ => rfl) (by decide) rfl (by decide)

theorem addEvIv (e : RM Reg16) (imm : Word) : Statement (.addEvIv e imm) :=
  of_fixed _ ⟨.addEvIv, .group, 0x81#8, 0x81#8, some 0#3⟩ (fun _ => rfl) (by decide) rfl (by decide)

theorem subEvIv (e : RM Reg16) (imm : Word) : Statement (.subEvIv e imm) :=
  of_fixed _ ⟨.subEvIv, .group, 0x81#8, 0x81#8, some 5#3⟩ (fun _ => rfl) (by decide) rfl (by decide)

theorem cmpEvIv (e : RM Reg16) (imm : Word) : Statement (.cmpEvIv e imm) :=
  of_fixed _ ⟨.cmpEvIv, .group, 0x81#8, 0x81#8, some 7#3⟩ (fun _ => rfl) (by decide) rfl (by decide)

theorem xchgEbGb (e : RM Reg8) (g : Reg8) : Statement (.xchgEbGb e g) :=
  of_fixed _ ⟨.xchgEbGb, .modrm8, 0x86#8, 0x86#8, none⟩ (fun _ => rfl) (by decide) rfl (by decide)

theorem xchgEvGv (e : RM Reg16) (g : Reg16) : Statement (.xchgEvGv e g) :=
  of_fixed _ ⟨.xchgEvGv, .modrm16, 0x87#8, 0x87#8, none⟩ (fun _ => rfl) (by decide) rfl (by decide)

theorem movEbGb (e : RM Reg8) (g : Reg8) : Statement (.movEbGb e g) :=
  of_fixed _ ⟨.movEbGb, .modrm8, 0x88#8, 0x88#8, none⟩ (fun _ => rfl) (by decide) rfl (by decide)

theorem movEvGv (e : RM Reg16) (g : Reg16) : Statement (.movEvGv e g) :=
  of_fixed _ ⟨.movEvGv, .modrm16, 0x89#8, 0x89#8, none⟩ (fun _ => rfl) (by decide) rfl (by decide)

theorem movGbEb (e : RM Reg8) (g : Reg8) : Statement (.movGbEb e g) :=
  of_fixed _ ⟨.movGbEb, .modrm8, 0x8A#8, 0x8A#8, none⟩ (fun _ => rfl) (by decide) rfl (by decide)

theorem movGvEv (e : RM Reg16) (g : Reg16) : Statement (.movGvEv e g) :=
  of_fixed _ ⟨.movGvEv, .modrm16, 0x8B#8, 0x8B#8, none⟩ (fun _ => rfl) (by decide) rfl (by decide)

theorem nop : Statement .nop :=
  of_fixed _ ⟨.nop, .noOperand, 0x90#8, 0x90#8, none⟩ (fun _ => rfl) (by decide) rfl (by decide)

theorem xchgAxR16 (r : Reg16) : Statement (.xchgAxR16 r) := by
  cases r
  case ax => exact fun _ hw => nomatch hw
  all_goals exact of_fixed _ ⟨.xchgAxR16, .noOperand, 0x91#8, 0x97#8, none⟩ (fun _ => rfl) (by decide) rfl (by decide)

theorem movR8Ib (r : Reg8) (imm : Byte) : Statement (.movR8Ib r imm) := by
  cases r <;> exact of_fixed _ ⟨.movR8Ib, .imm8, 0xB0#8, 0xB7#8, none⟩ (fun _ => rfl) (by decide) rfl (by decide)

theorem movR16Iv (r : Reg16) (imm : Word) : Statement (.movR16Iv r imm) := by
  cases r <;> exact of_fixed _ ⟨.movR16Iv, .imm16, 0xB8#8, 0xBF#8, none⟩ (fun _ => rfl) (by decide) rfl (by decide)

theorem movEbIb (e : RM Reg8) (imm : Byte) : Statement (.movEbIb e imm) :=
  of_fixed _ ⟨.movEbIb, .group, 0xC6#8, 0xC6#8, some 0#3⟩ (fun _ => rfl) (by decide) rfl (by decide)

theorem movEvIv (e : RM Reg16) (imm : Word) : Statement (.movEvIv e imm) :=
  of_fixed _ ⟨.movEvIv, .group, 0xC7#8, 0xC7#8, some 0#3⟩ (fun _ => rfl) (by decide) rfl (by decide)

theorem ret : Statement .ret :=
  of_fixed _ ⟨.ret, .noOperand, 0xC3#8, 0xC3#8, none⟩ (fun _ => rfl) (by decide) rfl (by decide)

theorem callRel16 (d : Word) : Statement (.callRel16 d) :=
  of_fixed _ ⟨.callRel16, .imm16, 0xE8#8, 0xE8#8, none⟩ (fun _ => rfl) (by decide) rfl (by decide)

theorem jmpRel16 (d : Word) : Statement (.jmpRel16 d) :=
  of_fixed _ ⟨.jmpRel16, .imm16, 0xE9#8, 0xE9#8, none⟩ (fun _ => rfl) (by decide) rfl (by decide)

theorem jmpRel8 (d : Byte) : Statement (.jmpRel8 d) :=
  of_fixed _ ⟨.jmpRel8, .imm8, 0xEB#8, 0xEB#8, none⟩ (fun _ => rfl) (by decide) rfl (by decide)

theorem hlt : Statement .hlt := by
  intro c _ h
  have hm : mappedCategory c.haltOpcode = none := by
    simp only [Instr.admitted, Instr.row, Bool.and_eq_true, Bool.or_eq_true, decide_eq_true_eq] at h
    exact h.2.resolve_left (by decide)
  refine ⟨c.haltOpcode, [], ⟨.hlt, .special, c.haltOpcode, c.haltOpcode, none⟩, rfl, ?_, rfl, ?_⟩
  · unfold rowsAt; rw [fixedRowsAt_of_unmapped _ hm]; simp
  · unfold categoryAt; rw [hm]; simp

end Sys2Proof.Laws.Opcode
end

