-- ==== Sys2Proof/Laws/Step.lean ====
section
/-! SUPPORT. What a step can do, said once (30_encoding.md R95, R103, R104; 60_exceptions.md R261, R262). -/

namespace Sys2Proof.Machine

/-- A step that answers a next state started Running, and either the decoder rejected what stands at the cursor, or it
read an instruction whose execution answered the next state; in both cases decoding moved the cursor only. -/
theorem step_next {s t : State} (h : step s = .next t) : s.status = .running ∧
    ((∃ why p, decodeFrom fetchNext s.cfg s = .error why (withPc s p) ∧ t = rejectAt why (withPc s p)) ∨
     (∃ i p u, decodeFrom fetchNext s.cfg s = .ok i (withPc s p) ∧
       exec i (beginExecute (withPc s p)) = .next u ∧ t = endExecute u)) := by
  unfold step at h
  cases hs : s.status with
  | stopped w => rw [hs] at h; cases h
  | running =>
    rw [hs] at h
    refine ⟨rfl, ?_⟩
    have hk := decodeFrom_keeps_state s s.cfg
    cases hd : decodeFrom fetchNext s.cfg s with
    | error e v =>
      rw [hd] at hk h
      obtain ⟨p, rfl⟩ := hk
      cases h
      exact .inl ⟨e, p, rfl, rfl⟩
    | ok i v =>
      rw [hd] at hk h
      obtain ⟨p, rfl⟩ := hk
      cases hx : exec i (beginExecute (withPc s p)) with
      | next u =>
        simp only [hx, afterExecute] at h
        cases h
        exact .inr ⟨i, p, u, rfl, hx, rfl⟩
      | fault f => simp only [hx, afterExecute] at h; cases h
      | refused f => simp only [hx, afterExecute] at h; cases h

/-- An encoding at the cursor that is rejected before its bytes run out stops the run (R261). -/
theorem step_rejected {s : State} {bs rest : List Byte} {why : Reject} (hs : s.status = .running) (hc : s.codeAt bs)
    (hd : decode s.cfg bs = .rejected why rest) (he : why.isEnd = false) :
    step s = .next (rejectAt why (withPc s (s.pc + BitVec.ofNat 16 (bs.length - rest.length)))) := by
  simp [step, hs, decodeFrom_cursor_rejected hc hd he]

end Sys2Proof.Machine
end

