-- ==== Sys2Proof/Tests/Slice0.lean ====
section
/-! SUPPORT. The model's own tests. Expected results are the spec's: the encodings of opcode_table.json and the vectors
of 95_test_vectors.md, whose section each group names. The last part gives, for every statement with hypotheses, a
concrete case that meets them. -/

open Sys2Proof Sys2Proof.Machine Sys2Proof.Claims

namespace Sys2Proof.Tests

/-! ## Helpers -/

/-- All registers zero. -/
def zeroRegs : Regs := ⟨0, 0, 0, 0, 0, 0, 0, 0⟩

/-- The flags, as 95_test_vectors.md writes them: C O S Z, each 0 or 1. -/
def cosz (c o s z : Nat) : Flags := ⟨c == 1, o == 1, s == 1, z == 1⟩

/-- A state at pc = 0x0100 with the given registers, flags and memory. -/
def start (x : Regs) (f : Flags := cosz 0 0 0 0) (m : Memory := []) : State :=
  { State.reset with pc := 0x0100, regs := x, flags := f, mem := m }

/-- The state one step leaves when the bytes stand at the cursor. -/
def after (s : State) (bytes : List Byte) : Option State :=
  match step (s.storeBytes s.pc bytes) with
  | .next t => some t
  | .fault _ => none
  | .refused _ => none

/-- The decoder under the default parameters. -/
def reads (bytes : List Byte) (i : Instr) : Prop := decode Config.standard bytes = .ok i []

/-! ## WellFormed: the ill-formed terms are refused -/

/-- BP alone is no base form of mod = 00 (R85): the form is refused in every position. -/
theorem test_wf_refuses_bp_base :
    (Instr.addEbGb (.base .bp) .al).wf = false ∧ (Instr.movGvEv (.base .bp) .ax).wf = false ∧
    (Instr.cmpEvIv (.base .bp) 0).wf = false ∧ (Instr.xchgEvGv (.base .bp) .ax).wf = false := by decide

/-- XCHG AX, AX has no encoding of its own (R232). -/
theorem test_wf_refuses_xchg_ax_ax : (Instr.xchgAxR16 .ax).wf = false := by decide

/-- The neighbours of the ill-formed terms are accepted. -/
theorem test_wf_accepts_neighbours :
    (Instr.addEbGb (.disp8 .bp 0) .al).wf = true ∧ (Instr.movGvEv (.direct 0) .ax).wf = true ∧
    (Instr.movGvEv (.base .si) .ax).wf = true ∧ (Instr.xchgAxR16 .bx).wf = true := by decide

/-- The parameters refuse a row, a mod/rm pair, and a halt byte another row claims (R5, R88, R98, log 5). -/
theorem test_admitted_refuses :
    Instr.nop.admitted { Config.standard with rowsExcluded := [.nop] } = false ∧
    (Instr.movGvEv (.direct 0) .ax).admitted { Config.standard with modrmExcluded := [(0, 6)] } = false ∧
    Instr.hlt.admitted { Config.standard with haltOpcode := 0x90 } = false ∧
    Instr.hlt.admitted Config.standard = true := by decide

/-! ## Decoding: words written out from the encodings (30_encoding.md, 95_test_vectors.md 2.3 to 2.10) -/

theorem test_decode_add :
    reads [0x00, 0xC4] (.addEbGb (.reg .ah) .al) ∧
    reads [0x01, 0x47, 0x02] (.addEvGv (.disp8 .bx 0x02) .ax) ∧
    reads [0x02, 0x07] (.addGbEb (.base .bx) .al) ∧
    reads [0x03, 0x87, 0x00, 0x10] (.addGvEv (.disp16 .bx 0x1000) .ax) ∧
    reads [0x04, 0x01] (.addAlIb 0x01) ∧
    reads [0x05, 0x00, 0x80] (.addAxIv 0x8000) ∧
    reads [0x80, 0x47, 0x02, 0x01] (.addEbIb (.disp8 .bx 0x02) 0x01) ∧
    reads [0x81, 0x87, 0x00, 0x10, 0x01, 0x00] (.addEvIv (.disp16 .bx 0x1000) 0x0001) := by
  unfold reads; decide

theorem test_decode_sub :
    reads [0x28, 0xC4] (.subEbGb (.reg .ah) .al) ∧
    reads [0x29, 0xD8] (.subEvGv (.reg .ax) .bx) ∧
    reads [0x2A, 0xC4] (.subGbEb (.reg .ah) .al) ∧
    reads [0x2B, 0xC0] (.subGvEv (.reg .ax) .ax) ∧
    reads [0x2C, 0x01] (.subAlIb 0x01) ∧
    reads [0x2D, 0xFF, 0xFF] (.subAxIv 0xFFFF) ∧
    reads [0x80, 0xEB, 0x01] (.subEbIb (.reg .bl) 0x01) ∧
    reads [0x81, 0x2F, 0x01, 0x00] (.subEvIv (.base .bx) 0x0001) := by
  unfold reads; decide

theorem test_decode_cmp :
    reads [0x38, 0xC4] (.cmpEbGb (.reg .ah) .al) ∧
    reads [0x39, 0xD8] (.cmpEvGv (.reg .ax) .bx) ∧
    reads [0x3A, 0xE0] (.cmpGbEb (.reg .al) .ah) ∧
    reads [0x3B, 0xC3] (.cmpGvEv (.reg .bx) .ax) ∧
    reads [0x3C, 0x05] (.cmpAlIb 0x05) ∧
    reads [0x3D, 0x00, 0x80] (.cmpAxIv 0x8000) ∧
    reads [0x80, 0xFB, 0x10] (.cmpEbIb (.reg .bl) 0x10) ∧
    reads [0x81, 0x3F, 0x34, 0x12] (.cmpEvIv (.base .bx) 0x1234) := by
  unfold reads; decide

theorem test_decode_inc_dec_stack :
    reads [0x40] (.incR16 .ax) ∧
    reads [0x47] (.incR16 .di) ∧
    reads [0x48] (.decR16 .ax) ∧
    reads [0x4B] (.decR16 .bx) ∧
    reads [0x50] (.pushR16 .ax) ∧
    reads [0x54] (.pushR16 .sp) ∧
    reads [0x58] (.popR16 .ax) ∧
    reads [0x5C] (.popR16 .sp) := by
  unfold reads; decide

theorem test_decode_jumps :
    reads [0x70, 0x10] (.joRel8 0x10) ∧
    reads [0x71, 0x10] (.jnoRel8 0x10) ∧
    reads [0x72, 0x10] (.jbRel8 0x10) ∧
    reads [0x73, 0x10] (.jnbRel8 0x10) ∧
    reads [0x74, 0x10] (.jzRel8 0x10) ∧
    reads [0x75, 0x10] (.jnzRel8 0x10) ∧
    reads [0x76, 0x10] (.jbeRel8 0x10) ∧
    reads [0x77, 0x10] (.jaRel8 0x10) ∧
    reads [0x78, 0x10] (.jsRel8 0x10) ∧
    reads [0x79, 0x10] (.jnsRel8 0x10) ∧
    reads [0xEB, 0xFE] (.jmpRel8 0xFE) ∧
    reads [0xE9, 0x00, 0x10] (.jmpRel16 0x1000) ∧
    reads [0xE8, 0x05, 0x00] (.callRel16 0x0005) ∧
    reads [0xC3] .ret := by
  unfold reads; decide

theorem test_decode_move :
    reads [0x88, 0x07] (.movEbGb (.base .bx) .al) ∧
    reads [0x89, 0x06, 0xFF, 0xFF] (.movEvGv (.direct 0xFFFF) .ax) ∧
    reads [0x8A, 0x26, 0x00, 0x03] (.movGbEb (.direct 0x0300) .ah) ∧
    reads [0x8B, 0x4E, 0xFE] (.movGvEv (.disp8 .bp 0xFE) .cx) ∧
    reads [0xB4, 0x7F] (.movR8Ib .ah 0x7F) ∧
    reads [0xBF, 0xFF, 0xFF] (.movR16Iv .di 0xFFFF) ∧
    reads [0xC6, 0x06, 0x00, 0x05, 0xAB] (.movEbIb (.direct 0x0500) 0xAB) ∧
    reads [0xC7, 0x07, 0xCD, 0xAB] (.movEvIv (.base .bx) 0xABCD) := by
  unfold reads; decide

theorem test_decode_exchange_halt :
    reads [0x86, 0xE0] (.xchgEbGb (.reg .al) .ah) ∧
    reads [0x87, 0x0F] (.xchgEvGv (.base .bx) .cx) ∧
    reads [0x93] (.xchgAxR16 .bx) ∧
    reads [0x97] (.xchgAxR16 .di) ∧
    reads [0x90] .nop ∧
    reads [0xF4] .hlt := by
  unfold reads; decide

/-- The `mod`, `reg` and `rm` fields one by one: every base formula, the direct form, both displacements, a register
(95_test_vectors.md 2.3). -/
theorem test_decode_modrm_forms :
    reads [0x8B, 0x00] (.movGvEv (.base .bxSi) .ax) ∧
    reads [0x8B, 0x01] (.movGvEv (.base .bxDi) .ax) ∧
    reads [0x8B, 0x02] (.movGvEv (.base .bpSi) .ax) ∧
    reads [0x8B, 0x03] (.movGvEv (.base .bpDi) .ax) ∧
    reads [0x8B, 0x04] (.movGvEv (.base .si) .ax) ∧
    reads [0x8B, 0x05] (.movGvEv (.base .di) .ax) ∧
    reads [0x8B, 0x06, 0x34, 0x12] (.movGvEv (.direct 0x1234) .ax) ∧
    reads [0x8B, 0x07] (.movGvEv (.base .bx) .ax) ∧
    reads [0x8B, 0x40, 0x7F] (.movGvEv (.disp8 .bxSi 0x7F) .ax) ∧
    reads [0x8B, 0x46, 0xFE] (.movGvEv (.disp8 .bp 0xFE) .ax) ∧
    reads [0x8B, 0x86, 0x00, 0x01] (.movGvEv (.disp16 .bp 0x0100) .ax) ∧
    reads [0x8B, 0x87, 0x00, 0xF0] (.movGvEv (.disp16 .bx 0xF000) .ax) ∧
    reads [0x8B, 0xC3] (.movGvEv (.reg .bx) .ax) := by
  unfold reads; decide

/-- Encodings that are no instruction are refused by name (95_test_vectors.md 2.10). -/
theorem test_decode_refuses :
    decode Config.standard [0xFE, 0xC0] = .rejected (.unknownOpcode 0xFE) [0xC0] ∧
    decode Config.standard [0x80, 0xC8, 0x01] = .rejected (.groupSubop 0x80 1) [0x01] ∧
    decode Config.standard [0x81, 0xF0, 0x01, 0x00] = .rejected (.groupSubop 0x81 6) [0x01, 0x00] ∧
    decode { Config.standard with modrmExcluded := [(0, 6)] } [0x8B, 0x06, 0x34, 0x12] =
      .rejected (.addressingMode 0x8B 0x06) [0x34, 0x12] ∧
    decode Config.standard [] = .rejected .noOpcodeByte [] ∧
    decode Config.standard [0xB8, 0x34] = .rejected .noOperandByte [] := by decide

/-- The encoder writes the same bytes (95_test_vectors.md 2.3 to 2.6). -/
theorem test_encode :
    encode Config.standard (.movGvEv (.disp8 .bp 0xFE) .cx) = [0x8B, 0x4E, 0xFE] ∧
    encode Config.standard (.addEvIv (.disp16 .bx 0x1000) 0x0001) = [0x81, 0x87, 0x00, 0x10, 0x01, 0x00] ∧
    encode Config.standard (.subEbIb (.reg .bl) 0x01) = [0x80, 0xEB, 0x01] ∧
    encode Config.standard .hlt = [0xF4] := by decide

/-- opcode_table.json's own words: a row of one byte, and a GROUP row, whose opcode stands in bits 15..8 (log 9). -/
theorem test_table_words :
    decodeTableWord 8 0x40 = some (.incR16 .ax) ∧ decodeTableWord 16 0x8028 = some (.subEbIb (.base .bxSi) 0) ∧
    decodeTableWord 16 0xC700 = some (.movEvIv (.base .bxSi) 0) ∧ decodeTableWord 8 0x28 = some (.subEbGb (.base .bxSi) .al) ∧
    decodeTableWord 8 0x0F = none := by decide

/-! ## One step of each instruction -/

/-! Arithmetic: 95_test_vectors.md 2.6. -/

theorem test_add_eb_gb :
    (after (start { zeroRegs with ax := 0x8080 }) [0x00, 0xC4]).map (fun t => (t.regs.ax, t.flags)) =
      some (0x0080, cosz 1 1 0 1) := by decide

theorem test_add_ev_gv :
    (after (start { zeroRegs with ax := 0x0001, bx := 0x0600 } (cosz 0 0 0 0) [(0x0600, 0xFF), (0x0601, 0xFF)]) [0x01, 0x07]).map (fun t => (t.byteAt 0x0600, t.byteAt 0x0601, t.regs.ax, t.flags)) =
      some (0x00, 0x00, 0x0001, cosz 1 0 0 1) := by decide

theorem test_add_gb_eb :
    (after (start { zeroRegs with ax := 0x0001, bx := 0x0600 } (cosz 0 0 0 0) [(0x0600, 0x7F)]) [0x02, 0x07]).map (fun t => (t.regs.ax, t.flags)) =
      some (0x0080, cosz 0 1 1 0) := by decide

theorem test_add_gv_ev :
    (after (start { zeroRegs with ax := 0x0001, bx := 0x0600 } (cosz 0 0 0 0) [(0x0600, 0xFF), (0x0601, 0x7F)]) [0x03, 0x07]).map (fun t => (t.regs.ax, t.flags)) =
      some (0x8000, cosz 0 1 1 0) := by decide

theorem test_add_al_ib :
    (after (start { zeroRegs with ax := 0x00FF }) [0x04, 0x01]).map (fun t => (t.regs.ax, t.flags, t.pc)) =
      some (0x0000, cosz 1 0 0 1, 0x0102) := by decide

theorem test_add_ax_iv :
    (after (start { zeroRegs with ax := 0x8000 }) [0x05, 0x00, 0x80]).map (fun t => (t.regs.ax, t.flags, t.pc)) =
      some (0x0000, cosz 1 1 0 1, 0x0103) := by decide

theorem test_add_eb_ib :
    (after (start { zeroRegs with bx := 0x0080 }) [0x80, 0xC3, 0x80]).map (fun t => (t.regs.bx, t.flags, t.pc)) =
      some (0x0000, cosz 1 1 0 1, 0x0103) := by decide

theorem test_add_ev_iv :
    (after (start { zeroRegs with cx := 0x7FFF }) [0x81, 0xC1, 0x01, 0x00]).map (fun t => (t.regs.cx, t.flags, t.pc)) =
      some (0x8000, cosz 0 1 1 0, 0x0104) := by decide

theorem test_sub_eb_gb :
    (after (start { zeroRegs with ax := 0x0001 }) [0x28, 0xC4]).map (fun t => (t.regs.ax, t.flags)) =
      some (0xFF01, cosz 1 0 1 0) := by decide

theorem test_sub_ev_gv :
    (after (start { zeroRegs with ax := 0x8000, bx := 0x0001 }) [0x29, 0xD8]).map (fun t => (t.regs.ax, t.flags)) =
      some (0x7FFF, cosz 0 1 0 0) := by decide

theorem test_sub_gb_eb :
    (after (start { zeroRegs with ax := 0x0102 }) [0x2A, 0xC4]).map (fun t => (t.regs.ax, t.flags)) =
      some (0x0101, cosz 0 0 0 0) := by decide

theorem test_sub_gv_ev :
    (after (start { zeroRegs with ax := 0x1234 }) [0x2B, 0xC0]).map (fun t => (t.regs.ax, t.flags)) =
      some (0x0000, cosz 0 0 0 1) := by decide

theorem test_sub_al_ib :
    (after (start zeroRegs) [0x2C, 0x01]).map (fun t => (t.regs.ax, t.flags)) =
      some (0x00FF, cosz 1 0 1 0) := by decide

theorem test_sub_ax_iv :
    (after (start { zeroRegs with ax := 0x7FFF }) [0x2D, 0xFF, 0xFF]).map (fun t => (t.regs.ax, t.flags)) =
      some (0x8000, cosz 1 1 1 0) := by decide

theorem test_sub_eb_ib :
    (after (start { zeroRegs with bx := 0x0080 }) [0x80, 0xEB, 0x01]).map (fun t => (t.regs.bx, t.flags)) =
      some (0x007F, cosz 0 1 0 0) := by decide

theorem test_sub_ev_iv :
    (after (start { zeroRegs with bx := 0x0700 }) [0x81, 0x2F, 0x01, 0x00]).map (fun t => (t.byteAt 0x0700, t.byteAt 0x0701, t.flags)) =
      some (0xFF, 0xFF, cosz 1 0 1 0) := by decide

theorem test_cmp_eb_gb :
    (after (start { zeroRegs with ax := 0x0505 }) [0x38, 0xC4]).map (fun t => (t.regs.ax, t.flags)) =
      some (0x0505, cosz 0 0 0 1) := by decide

theorem test_cmp_ev_gv :
    (after (start { zeroRegs with ax := 0x0001, bx := 0x0002 }) [0x39, 0xD8]).map (fun t => (t.regs.ax, t.flags)) =
      some (0x0001, cosz 1 0 1 0) := by decide

theorem test_cmp_gb_eb :
    (after (start { zeroRegs with ax := 0x0180 }) [0x3A, 0xE0]).map (fun t => (t.regs.ax, t.flags)) =
      some (0x0180, cosz 1 1 1 0) := by decide

theorem test_cmp_gv_ev :
    (after (start { zeroRegs with ax := 0x8000, bx := 0x0001 }) [0x3B, 0xC3]).map (fun t => (t.regs.ax, t.flags)) =
      some (0x8000, cosz 0 1 0 0) := by decide

theorem test_cmp_al_ib :
    (after (start { zeroRegs with ax := 0x0005 }) [0x3C, 0x05]).map (fun t => (t.regs.ax, t.flags)) =
      some (0x0005, cosz 0 0 0 1) := by decide

theorem test_cmp_ax_iv :
    (after (start zeroRegs) [0x3D, 0x00, 0x80]).map (fun t => (t.regs.ax, t.flags)) =
      some (0x0000, cosz 1 1 1 0) := by decide

theorem test_cmp_eb_ib :
    (after (start { zeroRegs with bx := 0x000F }) [0x80, 0xFB, 0x10]).map (fun t => (t.regs.bx, t.flags)) =
      some (0x000F, cosz 1 0 1 0) := by decide

theorem test_cmp_ev_iv :
    (after (start { zeroRegs with bx := 0x0700 } (cosz 0 0 0 0) [(0x0700, 0x34), (0x0701, 0x12)]) [0x81, 0x3F, 0x34, 0x12]).map (fun t => (t.byteAt 0x0700, t.byteAt 0x0701, t.flags)) =
      some (0x34, 0x12, cosz 0 0 0 1) := by decide

/-- INC clears C (C6, D24). -/
theorem test_inc_r16 :
    (after (start zeroRegs (cosz 1 1 1 1)) [0x47]).map (fun t => (t.regs.di, t.flags)) =
      some (0x0001, cosz 0 0 0 0) := by decide

theorem test_dec_r16 :
    (after (start { zeroRegs with bx := 0x0001 } (cosz 1 0 0 0)) [0x4B]).map (fun t => (t.regs.bx, t.flags)) =
      some (0x0000, cosz 0 0 0 1) := by decide

/-! Stack: 95_test_vectors.md 2.7. -/

theorem test_push_sp_old :
    (after (start { zeroRegs with sp := 0x1000 }) [0x54]).map (fun t => (t.regs.sp, t.byteAt 0x0FFE, t.byteAt 0x0FFF)) =
      some (0x0FFE, 0x00, 0x10) := by decide

theorem test_push_beyond_top :
    (after (start { zeroRegs with sp := 0x0001, ax := 0xBEEF }) [0x50]).map (fun t => (t.regs.sp, t.byteAt 0xFFFF, t.byteAt 0x0000, t.pc, t.status)) =
      some (0xFFFF, 0x00, 0x00, 0x0101, .stopped (.addressRange 0x10000)) := by decide

theorem test_pop_sp :
    (after (start { zeroRegs with sp := 0x0FFE } (cosz 0 0 0 0) [(0x0FFE, 0x00), (0x0FFF, 0x20)]) [0x5C]).map (fun t => (t.regs.sp, t.pc)) =
      some (0x2000, 0x0101) := by decide

theorem test_pop_at_top :
    (after (start { zeroRegs with sp := 0xFFFE } (cosz 0 0 0 0) [(0xFFFE, 0x11), (0xFFFF, 0x22)]) [0x58]).map (fun t => (t.regs.ax, t.regs.sp)) =
      some (0x2211, 0x0000) := by decide

/-! Control transfer: 95_test_vectors.md 2.8. -/

theorem test_jmp_rel8 :
    (after (start zeroRegs) [0xEB, 0x80]).map (fun t => t.pc) =
      some 0x0082 := by decide

theorem test_jmp_rel16_wraps :
    (after { start zeroRegs with pc := 0x0050 } [0xE9, 0x00, 0xFF]).map (fun t => t.pc) =
      some 0xFF53 := by decide

theorem test_call_rel16 :
    (after { start { zeroRegs with sp := 0x0FFE } with pc := 0x0107 } [0xE8, 0x05, 0x00]).map (fun t => (t.byteAt 0x0FFC, t.byteAt 0x0FFD, t.regs.sp, t.pc)) =
      some (0x0A, 0x01, 0x0FFC, 0x010F) := by decide

theorem test_call_beyond_top :
    (after (start { zeroRegs with sp := 0x0001 }) [0xE8, 0x00, 0x00]).map (fun t => (t.regs.sp, t.pc, t.status)) =
      some (0xFFFF, 0x0103, .stopped (.addressRange 0x10000)) := by decide

theorem test_ret :
    (after (start { zeroRegs with sp := 0x0FFC } (cosz 0 0 0 0) [(0x0FFC, 0x0A), (0x0FFD, 0x01)]) [0xC3]).map (fun t => (t.pc, t.regs.sp)) =
      some (0x010A, 0x0FFE) := by decide

/-- Where a conditional jump `op 10` at 0x0100 goes with no flag set, then with C, O, S, Z alone; T is 0x0112. -/
def jumpsTo (op : Byte) : List (Option Word) :=
  [cosz 0 0 0 0, cosz 1 0 0 0, cosz 0 1 0 0, cosz 0 0 1 0, cosz 0 0 0 1].map fun f =>
    (after (start zeroRegs f) [op, 0x10]).map (·.pc)

/-- The jump is taken in the cases marked true, and falls through to 0x0102 in the others. -/
def takenIn (cases : List Bool) : List (Option Word) := cases.map fun t => some (if t then 0x0112 else 0x0102)

theorem test_jo_rel8 : jumpsTo 0x70 = takenIn [false, false, true, false, false] := by decide
theorem test_jno_rel8 : jumpsTo 0x71 = takenIn [true, true, false, true, true] := by decide
theorem test_jb_rel8 : jumpsTo 0x72 = takenIn [false, true, false, false, false] := by decide
theorem test_jnb_rel8 : jumpsTo 0x73 = takenIn [true, false, true, true, true] := by decide
theorem test_jz_rel8 : jumpsTo 0x74 = takenIn [false, false, false, false, true] := by decide
theorem test_jnz_rel8 : jumpsTo 0x75 = takenIn [true, true, true, true, false] := by decide
theorem test_jbe_rel8 : jumpsTo 0x76 = takenIn [false, true, false, false, true] := by decide
theorem test_ja_rel8 : jumpsTo 0x77 = takenIn [true, false, true, true, false] := by decide
theorem test_js_rel8 : jumpsTo 0x78 = takenIn [false, false, false, true, false] := by decide
theorem test_jns_rel8 : jumpsTo 0x79 = takenIn [true, true, true, false, true] := by decide

/-! Move: 95_test_vectors.md 2.5 and 2.3. -/

theorem test_mov_eb_gb :
    (after (start { zeroRegs with ax := 0x0055 }) [0x88, 0xC4]).map (fun t => (t.regs.ax, t.pc)) =
      some (0x5555, 0x0102) := by decide

theorem test_mov_ev_gv :
    (after (start { zeroRegs with ax := 0xA1B2, bx := 0x0400 }) [0x89, 0x07]).map (fun t => (t.byteAt 0x0400, t.byteAt 0x0401)) =
      some (0xB2, 0xA1) := by decide

theorem test_mov_ev_gv_beyond_top :
    (after (start { zeroRegs with ax := 0x1234 }) [0x89, 0x06, 0xFF, 0xFF]).map (fun t => (t.byteAt 0xFFFF, t.byteAt 0x0000, t.pc, t.status)) =
      some (0x00, 0x00, 0x0104, .stopped (.addressRange 0x10000)) := by decide

theorem test_mov_gb_eb :
    (after (start { zeroRegs with ax := 0x0055 } (cosz 0 0 0 0) [(0x0300, 0xAB)]) [0x8A, 0x26, 0x00, 0x03]).map (fun t => (t.regs.ax, t.pc)) =
      some (0xAB55, 0x0104) := by decide

/-- The effective address uses BX before the write (R286). -/
theorem test_mov_gv_ev :
    (after (start { zeroRegs with bx := 0x0300 } (cosz 0 0 0 0) [(0x0300, 0x00), (0x0301, 0x04)]) [0x8B, 0x1F]).map (fun t => t.regs.bx) =
      some 0x0400 := by decide

/-- disp8 0x80 is -128. -/
theorem test_mov_gv_ev_disp8 :
    (after (start { zeroRegs with bx := 0x1000, si := 0x0020 } (cosz 0 0 0 0) [(0x0FA0, 0x34), (0x0FA1, 0x12)]) [0x8B, 0x40, 0x80]).map (fun t => t.regs.ax) =
      some 0x1234 := by decide

theorem test_mov_r8_ib :
    (after (start { zeroRegs with ax := 0xFFFF } (cosz 1 1 1 1)) [0xB0, 0x05]).map (fun t => (t.regs.ax, t.flags)) =
      some (0xFF05, cosz 1 1 1 1) := by decide

theorem test_mov_r16_iv :
    (after (start zeroRegs) [0xBF, 0xFF, 0xFF]).map (fun t => t.regs.di) =
      some 0xFFFF := by decide

theorem test_mov_eb_ib :
    (after (start zeroRegs) [0xC6, 0x06, 0x00, 0x05, 0xAB]).map (fun t => (t.byteAt 0x0500, t.pc)) =
      some (0xAB, 0x0105) := by decide

theorem test_mov_ev_iv :
    (after (start { zeroRegs with bx := 0x0500 }) [0xC7, 0x07, 0xCD, 0xAB]).map (fun t => (t.byteAt 0x0500, t.byteAt 0x0501, t.pc)) =
      some (0xCD, 0xAB, 0x0104) := by decide

/-! Exchange and no-op: 95_test_vectors.md 2.9. -/

theorem test_xchg_eb_gb :
    (after (start { zeroRegs with ax := 0x12AB }) [0x86, 0xE0]).map (fun t => t.regs.ax) =
      some 0xAB12 := by decide

theorem test_xchg_ev_gv :
    (after (start { zeroRegs with bx := 0x0200, cx := 0x1111 } (cosz 0 0 0 0) [(0x0200, 0xCD), (0x0201, 0xAB)]) [0x87, 0x0F]).map (fun t => (t.regs.cx, t.byteAt 0x0200, t.byteAt 0x0201)) =
      some (0xABCD, 0x11, 0x11) := by decide

theorem test_xchg_ax_r16 :
    (after (start { zeroRegs with sp := 0x1000 }) [0x94]).map (fun t => (t.regs.ax, t.regs.sp)) =
      some (0x1000, 0x0000) := by decide

theorem test_nop :
    (after (start { zeroRegs with ax := 0x1234 } (cosz 1 0 1 0)) [0x90]).map (fun t => (t.regs, t.flags, t.pc, t.status)) =
      some ({ zeroRegs with ax := 0x1234 }, cosz 1 0 1 0, 0x0101, .running) := by decide

/-! Halt and faults: 95_test_vectors.md 2.10. -/

theorem test_hlt :
    (after { start zeroRegs with pc := 0x0109 } [0xF4]).map (fun t => (t.status, t.pc)) =
      some (.stopped (.halt 0xF4 0x010A), 0x010A) := by decide

theorem test_halt_opcode_moved :
    (after { start zeroRegs with cfg := { Config.standard with haltOpcode := 0xCC } } [0xCC]).map (fun t => t.status) =
      some (.stopped (.halt 0xCC 0x0101)) := by decide

theorem test_unknown_opcode :
    (after (start zeroRegs) [0x26, 0x90]).map (fun t => (t.status, t.pc, t.regs, t.flags)) =
      some (.stopped (.unknownOpcode 0x26), 0x0101, zeroRegs, cosz 0 0 0 0) := by decide

theorem test_group_subop_before_immediate :
    (after { start zeroRegs with pc := 0xFFFD } [0x80, 0xC8]).map (fun t => (t.status, t.pc)) =
      some (.stopped (.groupSubop 0x80 1), 0xFFFF) := by decide

theorem test_immediate_fetch_at_top :
    (after { start { zeroRegs with ax := 0x00FF } with pc := 0xFFFE } [0x04, 0x01]).map (fun t => (t.status, t.pc, t.regs.ax, t.flags)) =
      some (.stopped (.addressRange 0x10000), 0xFFFF, 0x00FF, cosz 0 0 0 0) := by decide

theorem test_opcode_fetch_at_top :
    (after { start zeroRegs with pc := 0xFFFF } [0xFE]).map (fun t => (t.status, t.pc)) =
      some (.stopped (.addressRange 0x10000), 0xFFFF) := by decide

theorem test_fetch_wraps :
    (after { start zeroRegs with pc := 0xFFFF, cfg := { Config.standard with topWrap := true } } [0x90]).map (fun t => (t.status, t.pc)) =
      some (.running, 0x0000) := by decide

theorem test_word_read_wraps :
    (after { start { zeroRegs with bx := 0xFFFF } (cosz 0 0 0 0) [(0x0000, 0x12), (0xFFFF, 0x34)] with cfg := { Config.standard with topWrap := true } } [0x8B, 0x07]).map (fun t => t.regs.ax) =
      some 0x1234 := by decide

/-- withFetchWord stores the word where the next step fetches: a one-byte row and a GROUP row, from reset. -/
theorem test_with_fetch_word :
    (match step (State.reset.withFetchWord 8 0x40) with
      | .next t => some t.regs.ax | .fault _ => none | .refused _ => none) = some 0x0001 ∧
    (match step (State.reset.withFetchWord 16 0x8028) with
      | .next t => some t.pc | .fault _ => none | .refused _ => none) = some 0x0003 := by decide

/-! ## Witnesses: for every statement with hypotheses a concrete case that meets them, each clause at a boundary -/

/-- A reset state with SP moved. -/
def spAt (v : Word) : State := { State.reset with regs := { zeroRegs with sp := v } }

/-- The state under TOP_WRAP. -/
def wrapping (s : State) : State := { s with cfg := { s.cfg with topWrap := true } }

/-- The reset state with pc moved and bytes there. -/
def codeAtPc (p : Word) (bytes : List Byte) : State := { State.reset with pc := p }.storeBytes p bytes

/-- A stopped state. -/
def stoppedState : State := { State.reset with status := .stopped (.halt 0xF4 0x0001) }

theorem test_witness_StoppedMachineTakesNoStep : stoppedState.status = .stopped (.halt 0xF4 0x0001) := by decide

theorem test_witness_RunningMachineAlwaysSteps : State.reset.status = .running := by decide

/-- The longest instruction, and HLT where HALT_OPCODE has moved. -/
theorem test_witness_DecodeOfEncode :
    ((Instr.addEvIv (.disp16 .bx 0xFFFF) 0xFFFF).wf = true ∧
      (Instr.addEvIv (.disp16 .bx 0xFFFF) 0xFFFF).admitted Config.standard = true) ∧
    Instr.hlt.wf = true ∧ Instr.hlt.admitted { Config.standard with haltOpcode := 0xCC } = true := by decide

theorem test_witness_DecodedBytesAreTheEncoding :
    decode Config.standard [0x81, 0x87, 0xFF, 0xFF, 0xFF, 0xFF, 0x90] =
      .ok (.addEvIv (.disp16 .bx 0xFFFF) 0xFFFF) [0x90] := by decide

/-- Lengths 1 and 6. -/
theorem test_witness_EncodedLengthByRule :
    decode Config.standard [0x90] = .ok .nop [] ∧
    decode Config.standard [0x81, 0x87, 0x00, 0x10, 0x01, 0x00] = .ok (.addEvIv (.disp16 .bx 0x1000) 0x0001) [] := by decide

/-- A register and a memory form at both widths, displacement 0xFE. -/
theorem test_witness_ModrmResolvesByRule :
    decodeModrm listStream Reg16.ofNum Config.standard 0x8B [0x46, 0xFE] = .ok (.disp8 .bp 0xFE, 0) [] ∧
    decodeModrm listStream Reg16.ofNum Config.standard 0x8B [0xFF] = .ok (.reg .di, 7) [] ∧
    decodeModrm listStream Reg8.ofNum Config.standard 0x8A [0x06, 0x34, 0x12] = .ok (.direct 0x1234, 0) [] ∧
    decodeModrm listStream Reg8.ofNum Config.standard 0x8A [0xC3] = .ok (.reg .bl, 0) [] := ⟨rfl, rfl, rfl, rfl⟩

/-- A low half (number 3) and a high half (number 4), with a word register that is not the parent. -/
theorem test_witness_ByteRegisterWriteReplacesHalf :
    (Reg8.bl.num.toNat < 4 ∧ Reg16.sp ≠ Reg16.ofNum Reg8.bl.num) ∧
    (¬ Reg8.ah.num.toNat < 4 ∧ Reg16.sp ≠ Reg16.ofNum (Reg8.ah.num - 4)) := by decide

theorem test_witness_ByteWriteThenRead : (0xFFFF : Word) ≠ 0x0000 := by decide

/-- Below the top; at the top under TOP_WRAP; at the top without it; and bytes outside the two stored. -/
theorem test_witness_WordAccessIsLittleEndian :
    ((0xFFFE#16 : Word) ≠ 0xFFFF#16 ∨ State.reset.cfg.topWrap = true) ∧
    ((0xFFFF#16 : Word) ≠ 0xFFFF#16 ∨ (wrapping State.reset).cfg.topWrap = true) ∧
    ((0xFFFF#16 : Word) = 0xFFFF#16 ∧ State.reset.cfg.topWrap = false) ∧
    ((0xFFFD : Word) ≠ 0xFFFE ∧ (0xFFFD : Word) ≠ 0xFFFE + 1) := by decide

/-- Two canonical memories that read alike: one cell at the top, written by two different orders of writes. -/
theorem test_witness_CanonicalMemoriesThatReadAlikeAreEqual :
    (Memory.set [] 0xFFFF 0x12).wf ∧ (Memory.set (Memory.set [(0, 1)] 0xFFFF 0x12) 0 0).wf ∧
    ∀ a, (Memory.set [] 0xFFFF 0x12).get a = (Memory.set (Memory.set [(0, 1)] 0xFFFF 0x12) 0 0).get a :=
  ⟨by decide, by decide, fun _ => rfl⟩

/-- Both cases of WordForm, for MoveWordForms, AddWordForms, SubWordForms, CmpWordForms and ExchangeForms: an operand
that can be accessed (a register, a word ending at the top, a word at the top under TOP_WRAP) and one that cannot. -/
theorem test_witness_WordForms :
    State.reset.accessible .w16 (effective16 (.reg .ax) State.reset) ∧
    State.reset.accessible .w16 (effective16 (.direct 0xFFFE) State.reset) ∧
    (wrapping State.reset).accessible .w16 (effective16 (.direct 0xFFFF) (wrapping State.reset)) ∧
    ¬ State.reset.accessible .w16 (effective16 (.direct 0xFFFF) State.reset) :=
  ⟨accessible_reg16 _ _ _, (accessible_mem _ _).2 (by decide), (accessible_mem _ _).2 (by decide),
   fun h => absurd ((accessible_mem _ _).1 h) (by decide)⟩

/-- PUSH and CALL (also PushThenPopReturnsValue and CallThenReturnComesBack): SP = 0, whose new word ends at the top;
SP = 1 under TOP_WRAP; SP = 1 without it. PUSH SP under both values of PUSH_SP_VALUE. -/
theorem test_witness_PushStoresWord :
    ((spAt 0).regs.sp - 2 ≠ 0xFFFF#16 ∨ (spAt 0).cfg.topWrap = true) ∧
    ((wrapping (spAt 1)).regs.sp - 2 ≠ 0xFFFF#16 ∨ (wrapping (spAt 1)).cfg.topWrap = true) ∧
    ((spAt 1).regs.sp - 2 = 0xFFFF#16 ∧ (spAt 1).cfg.topWrap = false) ∧
    (Reg16.sp = .sp ∧ { (spAt 0).cfg with pushSpValue := .new }.pushSpValue = .new) ∧
    ¬ (Reg16.sp = .sp ∧ (spAt 0).cfg.pushSpValue = .new) := by decide

theorem test_witness_CallPushesReturnAddress :
    ((spAt 0).regs.sp - 2 ≠ 0xFFFF#16 ∨ (spAt 0).cfg.topWrap = true) ∧
    ((spAt 1).regs.sp - 2 = 0xFFFF#16 ∧ (spAt 1).cfg.topWrap = false) := by decide

theorem test_witness_PushThenPopReturnsValue :
    ((spAt 2).regs.sp - 2 ≠ 0xFFFF#16 ∨ (spAt 2).cfg.topWrap = true) ∧
    ((wrapping (spAt 1)).regs.sp - 2 ≠ 0xFFFF#16 ∨ (wrapping (spAt 1)).cfg.topWrap = true) := by decide

theorem test_witness_CallThenReturnComesBack :
    ((spAt 2).regs.sp - 2 ≠ 0xFFFF#16 ∨ (spAt 2).cfg.topWrap = true) ∧
    ((wrapping (spAt 1)).regs.sp - 2 ≠ 0xFFFF#16 ∨ (wrapping (spAt 1)).cfg.topWrap = true) := by decide

/-- POP and RET: SP = 0xFFFE, whose word ends at the top; SP = 0xFFFF with TOP_WRAP and without. -/
theorem test_witness_PopLoadsWord :
    ((spAt 0xFFFE).regs.sp ≠ 0xFFFF#16 ∨ (spAt 0xFFFE).cfg.topWrap = true) ∧
    ((wrapping (spAt 0xFFFF)).regs.sp ≠ 0xFFFF#16 ∨ (wrapping (spAt 0xFFFF)).cfg.topWrap = true) ∧
    ((spAt 0xFFFF).regs.sp = 0xFFFF#16 ∧ (spAt 0xFFFF).cfg.topWrap = false) := by decide

theorem test_witness_ReturnPopsTarget :
    ((spAt 0xFFFE).regs.sp ≠ 0xFFFF#16 ∨ (spAt 0xFFFE).cfg.topWrap = true) ∧
    ((spAt 0xFFFF).regs.sp = 0xFFFF#16 ∧ (spAt 0xFFFF).cfg.topWrap = false) := by decide

theorem test_witness_NopChangesOnlyCursor :
    let s := codeAtPc 0xFFFE [0x90]
    s.status = .running ∧ s.phase = .fetchOpcode ∧ s.byteAt s.pc = 0x90#8 ∧
      (s.pc ≠ 0xFFFF#16 ∨ s.cfg.topWrap = true) ∧ Row.nop ∉ s.cfg.rowsExcluded := by decide

theorem test_witness_HaltStopsTheRun :
    let s := wrapping (codeAtPc 0xFFFF [0xF4])
    s.status = .running ∧ s.byteAt s.pc = s.cfg.haltOpcode ∧ mappedCategory s.cfg.haltOpcode = none ∧
      (s.pc ≠ 0xFFFF#16 ∨ s.cfg.topWrap = true) ∧ Row.hlt ∉ s.cfg.rowsExcluded := by decide

/-- A halted state, and one that is not. -/
theorem test_witness_DumpIsCalledOnHaltOnly : stoppedState.halted ∧ ¬ State.reset.halted :=
  ⟨⟨_, _, rfl⟩, fun ⟨_, _, h⟩ => nomatch h⟩

theorem test_witness_OnlyTheHaltByteHalts :
    ∃ t, (codeAtPc 0 [0xF4]).status = .running ∧ step (codeAtPc 0 [0xF4]) = .next t ∧ t.halted :=
  ⟨_, rfl, rfl, _, _, rfl⟩

theorem test_witness_OpcodeFetchAtTopStops :
    let s := codeAtPc 0xFFFF [0x90]
    s.status = .running ∧ s.pc = 0xFFFF#16 ∧ s.cfg.topWrap = false := by decide

/-- One byte of a two-byte instruction, and five of a six-byte one, below the top. -/
theorem test_witness_OperandFetchAtTopStops :
    (let s := codeAtPc 0xFFFE [0x04]
     let i := Instr.addAlIb 0x01
     s.status = .running ∧ s.cfg.topWrap = false ∧ i.wf = true ∧ i.admitted s.cfg = true ∧ 0 < 1 ∧
      1 < (encode s.cfg i).length ∧ s.pc.toNat + 1 = 0xFFFF ∧ s.codeAt ((encode s.cfg i).take 1)) ∧
    (let s := codeAtPc 0xFFFA [0x81, 0x87, 0x00, 0x10, 0x01]
     let i := Instr.addEvIv (.disp16 .bx 0x1000) 0x0001
     s.status = .running ∧ s.cfg.topWrap = false ∧ i.wf = true ∧ i.admitted s.cfg = true ∧ 0 < 5 ∧
      5 < (encode s.cfg i).length ∧ s.pc.toNat + 5 = 0xFFFF ∧ s.codeAt ((encode s.cfg i).take 5)) := by
  unfold State.codeAt; decide

/-- A byte no row has, and a byte whose row IMPLEMENTED leaves out. -/
theorem test_witness_UnknownOpcodeStops :
    (let s := codeAtPc 0xFFFE [0xFE]
     s.status = .running ∧ (s.pc ≠ 0xFFFF#16 ∨ s.cfg.topWrap = true) ∧
      ∀ r ∈ rowsAt s.cfg (s.byteAt s.pc), r.row ∈ s.cfg.rowsExcluded) ∧
    (let s := { codeAtPc 0 [0x90] with cfg := { Config.standard with rowsExcluded := [.nop] } }
     s.status = .running ∧ (s.pc ≠ 0xFFFF#16 ∨ s.cfg.topWrap = true) ∧
      ∀ r ∈ rowsAt s.cfg (s.byteAt s.pc), r.row ∈ s.cfg.rowsExcluded) := by decide

/-- A sub-selector no row has, after a one-byte displacement; and one whose row IMPLEMENTED leaves out. -/
theorem test_witness_GroupSubopStops :
    (let s := codeAtPc 0x0100 [0x80, 0x4F, 0x10]
     s.status = .running ∧ (∃ p ∈ groupTable, p.1 = 0x80#8 ∧ p.2.2 ∉ s.cfg.rowsExcluded) ∧
      (∀ p ∈ groupTable, p.1 = 0x80#8 → p.2.1 = regField 0x4F → p.2.2 ∈ s.cfg.rowsExcluded) ∧
      s.cfg.modrmSupported (modField 0x4F) (lowField 0x4F) = true ∧
      [0x10#8].length = dispLen ((0x4F#8).toNat / 64) ((0x4F#8).toNat % 8) ∧ s.codeAt [0x80, 0x4F, 0x10]) ∧
    (let s := { codeAtPc 0xFFFD [0x80, 0xC0] with cfg := { Config.standard with rowsExcluded := [.addEbIb] } }
     s.status = .running ∧ (∃ p ∈ groupTable, p.1 = 0x80#8 ∧ p.2.2 ∉ s.cfg.rowsExcluded) ∧
      (∀ p ∈ groupTable, p.1 = 0x80#8 → p.2.1 = regField 0xC0 → p.2.2 ∈ s.cfg.rowsExcluded) ∧
      s.cfg.modrmSupported (modField 0xC0) (lowField 0xC0) = true ∧
      ([] : List Byte).length = dispLen ((0xC0#8).toNat / 64) ((0xC0#8).toNat % 8) ∧ s.codeAt [0x80, 0xC0]) := by
  unfold State.codeAt; decide

theorem test_witness_UnsupportedModrmStops :
    let s := { codeAtPc 0xFFFD [0x8B, 0x06] with cfg := { Config.standard with modrmExcluded := [(0, 6)] } }
    s.status = .running ∧ implemented s.cfg 0x8B = true ∧
      (mappedCategory 0x8B = some .modrm8 ∨ mappedCategory 0x8B = some .modrm16 ∨ mappedCategory 0x8B = some .group) ∧
      (modField 0x06, lowField 0x06) ∈ s.cfg.modrmExcluded ∧ s.codeAt [0x8B, 0x06] := by
  unfold State.codeAt; decide

theorem test_witness_ExecChangesOnlyDestinations :
    ∃ t, exec (.movEbGb (.direct 0x0500) .al) State.reset = .next t := ⟨_, rfl⟩

/-- A move; and a step stopped by AddressRange. -/
theorem test_witness_FlagsChangeOnlyByArithmetic :
    (∃ t, Claims.writesFlags (.movEbGb (.direct 0x0500) .al) = false ∧
      exec (.movEbGb (.direct 0x0500) .al) State.reset = .next t) ∧
    ∃ t, step (codeAtPc 0xFFFF [0x90]) = .next t ∧ t.status = .stopped (.addressRange 0x10000) :=
  ⟨⟨_, rfl, rfl⟩, _, rfl, rfl⟩

theorem test_witness_ExecKeepsControlState : Claims.transfersControl .hlt = false := rfl

/-- An instruction whose last byte stands at 0xFFFE; it completes, and pc ends at 0xFFFF. -/
theorem test_witness_StepRunsDecodedInstruction :
    let s := codeAtPc 0xFFFD [0xB0, 0x05]
    s.status = .running ∧ decode s.cfg [0xB0, 0x05] = .ok (.movR8Ib .al 0x05) [] ∧ s.codeAt [0xB0, 0x05] := by
  unfold State.codeAt; decide

theorem test_witness_CursorAfterStep :
    (codeAtPc 0xFFFD [0xB0, 0x05]).status = .running ∧
    decode (codeAtPc 0xFFFD [0xB0, 0x05]).cfg [0xB0, 0x05] = .ok (.movR8Ib .al 0x05) [] ∧
    (codeAtPc 0xFFFD [0xB0, 0x05]).codeAt [0xB0, 0x05] ∧
    ∃ t, step (codeAtPc 0xFFFD [0xB0, 0x05]) = .next t ∧ t.status = .running :=
  ⟨by decide, by decide, by unfold State.codeAt; decide, _, rfl, rfl⟩

theorem test_witness_StepKeepsInvariant : ∃ t, Inv (codeAtPc 0 [0x40]) ∧ step (codeAtPc 0 [0x40]) = .next t :=
  ⟨_, ⟨by decide, fun _ => rfl, fun _ h => nomatch h⟩, rfl⟩

theorem test_witness_ContractViolationsAreUnreachable :
    ∃ t, (codeAtPc 0 [0x0F]).status = .running ∧ step (codeAtPc 0 [0x0F]) = .next t ∧
      t.status = .stopped (.unknownOpcode 0x0F) := ⟨_, rfl, rfl, rfl⟩

/-- PUSH AX at SP = 1: the stack write raises AddressRange after SP has moved. -/
theorem test_witness_FatalStepKeepsState :
    ∃ t, ((spAt 1).storeBytes 0 [0x50]).status = .running ∧ step ((spAt 1).storeBytes 0 [0x50]) = .next t ∧
      t.status = .stopped (.addressRange 0x10000) ∧ t.regs.sp ≠ (spAt 1).regs.sp :=
  ⟨_, rfl, rfl, rfl, by decide⟩

theorem test_witness_StepKeepsParameters : ∃ t, step (codeAtPc 0 [0x90]) = .next t := ⟨_, rfl⟩

theorem test_witness_StoredByteIsFetched :
    ((0xFFFE#16 : Word) ≠ 0xFFFF#16 ∨ State.reset.cfg.topWrap = true) ∧
    ((0xFFFF#16 : Word) ≠ 0xFFFF#16 ∨ (wrapping State.reset).cfg.topWrap = true) := by decide

end Sys2Proof.Tests
end

section
/-! PROOFS for 00_scope.md. An instruction's operation writes registers, cursor, flags and memory only; STATUS and phase
belong to the dispatcher, and the parameters of R5 to nobody. -/

namespace Sys2Proof.Machine

/-- What no operation of an instruction writes: STATUS, phase and parameters are as they were. -/
structure SameMode (s t : State) : Prop where
  status : t.status = s.status
  phase : t.phase = s.phase
  cfg : t.cfg = s.cfg

theorem SameMode.refl (s : State) : SameMode s s := ⟨rfl, rfl, rfl⟩

theorem SameMode.trans {s t u : State} (h : SameMode s t) (h' : SameMode t u) : SameMode s u :=
  ⟨h'.status.trans h.status, h'.phase.trans h.phase, h'.cfg.trans h.cfg⟩

/-- The operation leaves STATUS, phase and parameters as they were, whether it completes or raises a fatal outcome. -/
def KeepsMode {α : Type} (op : Op α) : Prop :=
  ∀ s, match op s with
    | .ok _ t => SameMode s t
    | .error _ t => SameMode s t

/-! ## Building blocks -/

theorem keepsMode_pure {α : Type} (a : α) : KeepsMode (pure a : Op α) := SameMode.refl

theorem keepsMode_throw {α : Type} (why : Fatal) : KeepsMode (throw why : Op α) := SameMode.refl

theorem keepsMode_get : KeepsMode (get : Op State) := SameMode.refl

theorem keepsMode_bind {α β : Type} {x : Op α} {f : α → Op β} (hx : KeepsMode x) (hf : ∀ a, KeepsMode (f a)) :
    KeepsMode (x >>= f) := by
  intro s
  have hxs := hx s
  rw [bind_apply]
  cases h : x s with
  | error why t => rw [h] at hxs; exact hxs
  | ok a t =>
    rw [h] at hxs
    have hft := hf a t
    cases h' : f a t with
    | ok b u => simp only [h'] at hft ⊢; exact hxs.trans hft
    | error why u => simp only [h'] at hft ⊢; exact hxs.trans hft

/-! ## Registers, cursor, flags and memory -/

theorem keepsMode_readReg8 (r : Reg8) : KeepsMode (readReg8 r) := SameMode.refl
theorem keepsMode_readReg16 (r : Reg16) : KeepsMode (readReg16 r) := SameMode.refl
theorem keepsMode_readPc : KeepsMode readPc := SameMode.refl
theorem keepsMode_readFlags : KeepsMode readFlags := SameMode.refl
theorem keepsMode_readByte (a : Word) : KeepsMode (readByte a) := SameMode.refl

theorem keepsMode_writeReg8 (r : Reg8) (v : Byte) : KeepsMode (writeReg8 r v) := fun _ => ⟨rfl, rfl, rfl⟩
theorem keepsMode_writeReg16 (r : Reg16) (v : Word) : KeepsMode (writeReg16 r v) := fun _ => ⟨rfl, rfl, rfl⟩
theorem keepsMode_writePc (target : Word) : KeepsMode (writePc target) := fun _ => ⟨rfl, rfl, rfl⟩
theorem keepsMode_setFlags (f : Flags) : KeepsMode (setFlags f) := fun _ => ⟨rfl, rfl, rfl⟩
theorem keepsMode_writeByte (a : Word) (v : Byte) : KeepsMode (writeByte a v) := fun _ => ⟨rfl, rfl, rfl⟩

theorem keepsMode_readWord (a : Word) : KeepsMode (readWord a) := by
  intro s
  rw [readWord_apply]
  by_cases h : s.canAdvance a = true
  · rw [if_pos h]; exact SameMode.refl s
  · rw [if_neg h]; exact SameMode.refl s

theorem keepsMode_writeWord (a v : Word) : KeepsMode (writeWord a v) := by
  intro s
  rw [writeWord_apply]
  by_cases h : s.canAdvance a = true
  · rw [if_pos h]; exact ⟨rfl, rfl, rfl⟩
  · rw [if_neg h]; exact SameMode.refl s

/-! ## Operands and stack -/

theorem keepsMode_readOperand (w : Width) (d : Desc) : KeepsMode (readOperand w d) := by
  cases w <;> cases d
  case w8.reg8 r => exact keepsMode_readReg8 r
  case w16.reg16 r => exact keepsMode_readReg16 r
  case w8.mem a => exact keepsMode_readByte a
  case w16.mem a => exact keepsMode_readWord a
  case w8.imm8 v | w16.imm16 v => exact keepsMode_pure v
  all_goals exact keepsMode_throw _

theorem keepsMode_writeOperand (w : Width) (d : Desc) (v : BitVec w.bits) : KeepsMode (writeOperand w d v) := by
  cases w <;> cases d
  case w8.reg8 r => exact keepsMode_writeReg8 r v
  case w16.reg16 r => exact keepsMode_writeReg16 r v
  case w8.mem a => exact keepsMode_writeByte a v
  case w16.mem a => exact keepsMode_writeWord a v
  all_goals exact keepsMode_throw _

theorem keepsMode_push (v : Word) : KeepsMode (push v) :=
  keepsMode_bind (keepsMode_readReg16 _) fun _ =>
    keepsMode_bind (keepsMode_writeReg16 _ _) fun _ => keepsMode_writeWord _ _

theorem keepsMode_pop : KeepsMode pop :=
  keepsMode_bind (keepsMode_readReg16 _) fun _ =>
    keepsMode_bind (keepsMode_readWord _) fun _ =>
      keepsMode_bind (keepsMode_writeReg16 _ _) fun _ => keepsMode_pure _

/-! ## The operations of the instruction families -/

theorem keepsMode_moveOp (w : Width) (dst src : Desc) : KeepsMode (moveOp w dst src) :=
  keepsMode_bind (keepsMode_readOperand w src) fun v => keepsMode_writeOperand w dst v

theorem keepsMode_arithOp (kind : AluKind) (w : Width) (dst a b : Desc) (writeback : Bool) :
    KeepsMode (arithOp kind w dst a b writeback) :=
  keepsMode_bind (keepsMode_readOperand w a) fun _ =>
    keepsMode_bind (keepsMode_readOperand w b) fun _ => by
      cases writeback with
      | true => exact keepsMode_bind (keepsMode_writeOperand w dst _) fun _ => keepsMode_setFlags _
      | false => exact keepsMode_setFlags _

theorem keepsMode_exchangeOp (w : Width) (x y : Desc) : KeepsMode (exchangeOp w x y) :=
  keepsMode_bind (keepsMode_readOperand w x) fun t1 =>
    keepsMode_bind (keepsMode_readOperand w y) fun t2 =>
      keepsMode_bind (keepsMode_writeOperand w x t2) fun _ => keepsMode_writeOperand w y t1

theorem keepsMode_popOp (r : Reg16) : KeepsMode (popOp r) :=
  keepsMode_bind keepsMode_pop fun v => keepsMode_writeReg16 r v

theorem keepsMode_jumpBy (d : Word) : KeepsMode (jumpBy d) :=
  keepsMode_bind keepsMode_readPc fun _ => keepsMode_writePc _

theorem keepsMode_jumpIf (cond : Flags → Bool) (d : Byte) : KeepsMode (jumpIf cond d) :=
  keepsMode_bind keepsMode_readFlags fun f => by
    by_cases h : cond f = true
    · rw [if_pos h]; exact keepsMode_jumpBy _
    · rw [if_neg h]; exact keepsMode_pure _

theorem keepsMode_callOp (d : Word) : KeepsMode (callOp d) :=
  keepsMode_bind keepsMode_readPc fun ret =>
    keepsMode_bind (keepsMode_push ret) fun _ => keepsMode_writePc _

theorem keepsMode_retOp : KeepsMode retOp :=
  keepsMode_bind keepsMode_pop fun target => keepsMode_writePc target

theorem keepsMode_haltOp : KeepsMode haltOp :=
  keepsMode_bind keepsMode_get fun _ => keepsMode_throw _

/-! ## Execution and the step -/

/-- The shared operations that the meanings of the 55 instructions are instances of. -/
inductive FamilyOp : Op Unit → Prop where
  | move (w : Width) (dst src : Desc) : FamilyOp (moveOp w dst src)
  | arith (kind : AluKind) (w : Width) (dst a b : Desc) (writeback : Bool) :
      FamilyOp (arithOp kind w dst a b writeback)
  | exchange (w : Width) (x y : Desc) : FamilyOp (exchangeOp w x y)
  | push (v : Word) : FamilyOp (push v)
  | pop (r : Reg16) : FamilyOp (popOp r)
  | jump (d : Word) : FamilyOp (jumpBy d)
  | jumpIf (cond : Flags → Bool) (d : Byte) : FamilyOp (jumpIf cond d)
  | call (d : Word) : FamilyOp (callOp d)
  | ret : FamilyOp retOp
  | nop : FamilyOp (pure ())
  | halt : FamilyOp haltOp

/-- Executing an instruction performs one operation of its family (R103). -/
theorem exec_performs (i : Instr) (s : State) : ∃ op, FamilyOp op ∧ exec i s = perform op s := by
  cases i <;> unfold exec
  case movEbGb | movEvGv | movGbEb | movGvEv | movR8Ib | movR16Iv | movEbIb | movEvIv =>
    exact ⟨_, .move .., rfl⟩
  case addEbGb | addEvGv | addGbEb | addGvEv | addAlIb | addAxIv | addEbIb | addEvIv | incR16 =>
    exact ⟨_, .arith .., rfl⟩
  case subEbGb | subEvGv | subGbEb | subGvEv | subAlIb | subAxIv | subEbIb | subEvIv | decR16 =>
    exact ⟨_, .arith .., rfl⟩
  case cmpEbGb | cmpEvGv | cmpGbEb | cmpGvEv | cmpAlIb | cmpAxIv | cmpEbIb | cmpEvIv =>
    exact ⟨_, .arith .., rfl⟩
  case xchgEbGb | xchgEvGv | xchgAxR16 => exact ⟨_, .exchange .., rfl⟩
  case pushR16 => exact ⟨_, .push .., rfl⟩
  case popR16 => exact ⟨_, .pop .., rfl⟩
  case jmpRel8 | jmpRel16 => exact ⟨_, .jump .., rfl⟩
  case joRel8 | jnoRel8 | jbRel8 | jnbRel8 | jzRel8 | jnzRel8 | jbeRel8 | jaRel8 | jsRel8 | jnsRel8 =>
    exact ⟨_, .jumpIf .., rfl⟩
  case callRel16 => exact ⟨_, .call .., rfl⟩
  case ret => exact ⟨_, .ret, rfl⟩
  case nop => exact ⟨_, .nop, rfl⟩
  case hlt => exact ⟨_, .halt, rfl⟩

theorem FamilyOp.keepsMode {op : Op Unit} (h : FamilyOp op) : KeepsMode op := by
  cases h with
  | move w dst src => exact keepsMode_moveOp w dst src
  | arith kind w dst a b writeback => exact keepsMode_arithOp kind w dst a b writeback
  | exchange w x y => exact keepsMode_exchangeOp w x y
  | push v => exact keepsMode_push v
  | pop r => exact keepsMode_popOp r
  | jump d => exact keepsMode_jumpBy d
  | jumpIf cond d => exact keepsMode_jumpIf cond d
  | call d => exact keepsMode_callOp d
  | ret => exact keepsMode_retOp
  | nop => exact keepsMode_pure ()
  | halt => exact keepsMode_haltOp

/-- A fatal outcome adds the stopped STATUS to what the operation did, so phase and parameters are kept either way. -/
theorem perform_keeps_phase_cfg {op : Op Unit} (hop : KeepsMode op) {s t : State} (h : perform op s = .next t) :
    t.phase = s.phase ∧ t.cfg = s.cfg := by
  have hs := hop s
  cases hx : op s with
  | ok _ u =>
    rw [hx] at hs
    rw [perform_ok hx] at h
    cases h
    exact ⟨hs.phase, hs.cfg⟩
  | error why u =>
    rw [hx] at hs
    rw [perform_error hx] at h
    cases h
    exact ⟨hs.phase, hs.cfg⟩

/-- Executing an instruction changes neither the phase nor a parameter. -/
theorem exec_keeps_phase_cfg {i : Instr} {s t : State} (h : exec i s = .next t) :
    t.phase = s.phase ∧ t.cfg = s.cfg := by
  obtain ⟨op, hop, hx⟩ := exec_performs i s
  exact perform_keeps_phase_cfg hop.keepsMode (hx ▸ h)

theorem step_keeps_cfg {s t : State} (h : step s = .next t) : t.cfg = s.cfg := by
  obtain ⟨-, ⟨why, p, -, rfl⟩ | ⟨i, p, u, -, hx, rfl⟩⟩ := step_next h
  · rfl
  · calc (endExecute u).cfg = u.cfg := endExecute_cfg u
      _ = (beginExecute (withPc s p)).cfg := (exec_keeps_phase_cfg hx).2
      _ = s.cfg := rfl

/-- Settles O59: decoding moves the cursor only, and every instruction's operation keeps the parameters. -/
theorem stepKeepsParameters : Obligations.StepKeepsParameters := by
  unfold Obligations.StepKeepsParameters
  exact fun _ _ h => step_keeps_cfg h

end Sys2Proof.Machine
end

section
/-! PROOFS for 10_state.md, registers. A byte register is a half of its parent (R23, R25), and join and split are
inverse (R41). -/

namespace Sys2Proof.Machine

/-- The parent of an 8-bit register by number: `i` for `i < 4`, `i - 4` above (R23). -/
theorem parentOf_eq_ofNum (b : Reg8) :
    parentOf b = if b.num.toNat < 4 then Reg16.ofNum b.num else Reg16.ofNum (b.num - 4) := by
  cases b <;> rfl

theorem isHighHalf_eq (b : Reg8) : isHighHalf b = !decide (b.num.toNat < 4) := by
  cases b <;> rfl

theorem get8_toNat (x : Regs) (b : Reg8) :
    (x.get8 b).toNat =
      if isHighHalf b then (x.get16 (parentOf b)).toNat / 256 else (x.get16 (parentOf b)).toNat % 256 := by
  unfold Regs.get8
  by_cases h : isHighHalf b = true
  · rw [if_pos h, if_pos h, highByte_toNat]
  · rw [if_neg h, if_neg h, lowByte_toNat]

/-- The parent after a byte write, as a number: one half is the byte, the other is the old one (R25). -/
theorem get16_set8_parent_toNat (x : Regs) (b : Reg8) (v : Byte) :
    ((x.set8 b v).get16 (parentOf b)).toNat =
      if isHighHalf b then 256 * v.toNat + (x.get16 (parentOf b)).toNat % 256
      else 256 * ((x.get16 (parentOf b)).toNat / 256) + v.toNat := by
  unfold Regs.set8
  rw [get16_set16_self]
  by_cases h : isHighHalf b = true
  · rw [if_pos h, if_pos h, joinBytes_toNat, lowByte_toNat]
  · rw [if_neg h, if_neg h, joinBytes_toNat, highByte_toNat]

/-- Settles O14: the join is the sum of its weighted bytes, and the split takes it apart again. -/
theorem splitOfJoin : Obligations.SplitOfJoin := by
  unfold Obligations.SplitOfJoin
  exact ⟨fun hi lo => ⟨joinBytes_toNat hi lo, lowByte_joinBytes hi lo, highByte_joinBytes hi lo⟩,
    fun w => ⟨lowByte_toNat w, highByte_toNat w⟩⟩

/-- Settles O13: the register's number says which half of which parent is read. -/
theorem byteRegistersAreHalves : Obligations.ByteRegistersAreHalves := by
  unfold Obligations.ByteRegistersAreHalves
  intro x b
  rw [get8_toNat, isHighHalf_eq, parentOf_eq_ofNum]
  by_cases h : b.num.toNat < 4 <;> simp [h]

/-- Settles O12: the parent is rebuilt from the byte and the half it keeps, and no other word register is written. -/
theorem byteRegisterWriteReplacesHalf : Obligations.ByteRegisterWriteReplacesHalf := by
  unfold Obligations.ByteRegisterWriteReplacesHalf
  intro x b v
  dsimp only
  rw [← parentOf_eq_ofNum]
  refine ⟨?_, fun r hr => get16_set8_other x b r v hr.symm⟩
  rw [get16_set8_parent_toNat, isHighHalf_eq]
  by_cases h : b.num.toNat < 4 <;> simp [h]

end Sys2Proof.Machine
end

section
/-! PROOFS for 10_state.md, execution. What executing an instruction can answer, said once: it completes with pc at its
target (R30), or stops at an access beyond the top (R54), or is HLT's stop (R240). -/

namespace Sys2Proof.Machine

open Sys2Proof.Claims

/-! ## Targets (R210) -/

theorem target8_eq (p : Word) (d : Byte) : target8 p d = p + sextByte d := by
  unfold target8 sextByte
  rw [BitVec.ofInt_add, BitVec.signExtend]
  simp

theorem target16_eq (p d : Word) : target16 p d = p + d := by
  unfold target16
  rw [BitVec.ofInt_add]
  simp

/-- The phase and the cursor are not among what a target is computed from. -/
theorem nextPc_beginExecute (s : State) (p : Word) (i : Instr) :
    nextPc (beginExecute (withPc s p)) p i = nextPc s p i := by
  cases i <;> rfl

/-! ## What executing can answer -/

/-- The states that executing an instruction in `s` can lead to, `target` being where pc is if it completes. -/
inductive ExecResult (s : State) (target : Word) : State → Prop where
  | completed {t : State} (status : t.status = s.status) (pc : t.pc = target) (memory : s.mem.wf → t.mem.wf) :
      ExecResult s target t
  | beyondTop : ExecResult s target (stoppedBeyondTop s)
  | pushBeyondTop : ExecResult s target (stoppedBeyondTop (withSp s (s.regs.sp - 2)))
  | halted : ExecResult s target (raise (.halt s.cfg.haltOpcode s.pc) s)

/-- The outcome is a next state, one of `ExecResult`. -/
def Answers (s : State) (target : Word) (r : Host.Outcome State Fault Refusal) : Prop :=
  ∃ t, r = .next t ∧ ExecResult s target t

section
variable {s : State} {w : Width}

theorem moveOp_answers {dst src : Desc} (hd : dst.hasWidth w) (hs : src.hasWidth w) (hw : dst.writable) :
    Answers s s.pc (perform (moveOp w dst src) s) := by
  by_cases h : s.accessible w src ∧ s.accessible w dst
  · exact ⟨_, moveOp_ok hd hs hw h.1 h.2, .completed (by simp) (by simp) (putAt_wf _)⟩
  · exact ⟨_, moveOp_fault hs h, .beyondTop⟩

theorem arithOp_answers {kind : AluKind} {a b : Desc} {writeback : Bool} (ha : a.hasWidth w) (hb : b.hasWidth w)
    (hw : a.writable) : Answers s s.pc (perform (arithOp kind w a a b writeback) s) := by
  by_cases h : s.accessible w a ∧ s.accessible w b
  · cases writeback with
    | true => exact ⟨_, arithOp_ok ha hb hw h.1 h.2, .completed (putAt_status ..) (putAt_pc ..) (putAt_wf _)⟩
    | false => exact ⟨_, compareOp_ok ha hb h.1 h.2, .completed rfl rfl id⟩
  · exact ⟨_, arithOp_fault ha h, .beyondTop⟩

/-- The second operand of an exchange is a register, so only the first can be out of reach. -/
theorem exchangeOp_answers {x y : Desc} (hx : x.hasWidth w) (hy : y.hasWidth w) (hxw : x.writable) (hyw : y.writable)
    (hya : s.accessible w y) : Answers s s.pc (perform (exchangeOp w x y) s) := by
  by_cases h : s.accessible w x
  · exact ⟨_, exchangeOp_ok hx hy hxw hyw h hya,
      .completed (by simp) (by simp) fun hm => putAt_wf _ (putAt_wf _ hm)⟩
  · exact ⟨_, exchangeOp_fault h, .beyondTop⟩

theorem push_answers (v : Word) : Answers s s.pc (perform (push v) s) := by
  by_cases h : s.accessible .w16 (.mem (s.regs.sp - 2))
  · exact ⟨_, perform_ok (push_ok v h), .completed (by simp) (by simp) fun hm => putAt_wf _ hm⟩
  · exact ⟨_, perform_error (push_fault v h), .pushBeyondTop⟩

theorem popOp_answers (r : Reg16) : Answers s s.pc (perform (popOp r) s) := by
  by_cases h : s.accessible .w16 (.mem s.regs.sp)
  · exact ⟨_, popOp_ok r h, .completed (by simp) (by simp) fun hm => putAt_wf _ hm⟩
  · exact ⟨_, popOp_fault r h, .beyondTop⟩

theorem jumpBy_answers {d target : Word} (h : target = s.pc + d) : Answers s target (perform (jumpBy d) s) :=
  ⟨_, jumpBy_ok s d, .completed rfl h.symm id⟩

theorem jumpIf_answers {cond : Flags → Bool} {q : Prop} [Decidable q] (d : Byte) (h : cond s.flags = true ↔ q) :
    Answers s (if q then target8 s.pc d else s.pc) (perform (jumpIf cond d) s) := by
  refine ⟨_, jumpIf_ok s cond d, ?_⟩
  by_cases hc : cond s.flags = true
  · rw [if_pos hc, if_pos (h.1 hc), target8_eq]
    exact .completed rfl rfl id
  · rw [if_neg hc, if_neg (mt h.2 hc)]
    exact .completed rfl rfl id

theorem callOp_answers (d : Word) : Answers s (target16 s.pc d) (perform (callOp d) s) := by
  rw [target16_eq]
  by_cases h : s.accessible .w16 (.mem (s.regs.sp - 2))
  · exact ⟨_, callOp_ok d h, .completed (by simp) rfl fun hm => putAt_wf (s := withSp s _) _ hm⟩
  · exact ⟨_, callOp_fault d h, .pushBeyondTop⟩

theorem retOp_answers : Answers s (s.valueAt .w16 (.mem s.regs.sp)) (perform retOp s) := by
  by_cases h : s.accessible .w16 (.mem s.regs.sp)
  · exact ⟨_, retOp_ok h, .completed rfl rfl id⟩
  · exact ⟨_, retOp_fault h, .beyondTop⟩

end

/-- Every operand an instruction hands to its family's operation has the operation's width, and every destination can be
written, so no contract violation is among the outcomes. -/
theorem exec_answers (i : Instr) (s : State) : Answers s (nextPc s s.pc i) (exec i s) := by
  cases i <;> unfold exec
  case movEbGb e _ | movEbIb e _ =>
    exact moveOp_answers (effective8_hasWidth e s) rfl (effective8_writable e s)
  case movEvGv e _ | movEvIv e _ =>
    exact moveOp_answers (effective16_hasWidth e s) rfl (effective16_writable e s)
  case movGbEb e g => exact moveOp_answers (dst := .reg8 g) rfl (effective8_hasWidth e s) trivial
  case movGvEv e g => exact moveOp_answers (dst := .reg16 g) rfl (effective16_hasWidth e s) trivial
  case movR8Ib r v => exact moveOp_answers (dst := .reg8 r) (src := .imm8 v) rfl rfl trivial
  case movR16Iv r v => exact moveOp_answers (dst := .reg16 r) (src := .imm16 v) rfl rfl trivial
  case addEbGb e _ | subEbGb e _ | cmpEbGb e _ | addEbIb e _ | subEbIb e _ | cmpEbIb e _ =>
    exact arithOp_answers (effective8_hasWidth e s) rfl (effective8_writable e s)
  case addEvGv e _ | subEvGv e _ | cmpEvGv e _ | addEvIv e _ | subEvIv e _ | cmpEvIv e _ =>
    exact arithOp_answers (effective16_hasWidth e s) rfl (effective16_writable e s)
  case addGbEb e g | subGbEb e g | cmpGbEb e g =>
    exact arithOp_answers (a := .reg8 g) rfl (effective8_hasWidth e s) trivial
  case addGvEv e g | subGvEv e g | cmpGvEv e g =>
    exact arithOp_answers (a := .reg16 g) rfl (effective16_hasWidth e s) trivial
  case addAlIb v | subAlIb v | cmpAlIb v =>
    exact arithOp_answers (a := .reg8 .al) (b := .imm8 v) rfl rfl trivial
  case addAxIv v | subAxIv v | cmpAxIv v =>
    exact arithOp_answers (a := .reg16 .ax) (b := .imm16 v) rfl rfl trivial
  case incR16 r | decR16 r => exact arithOp_answers (a := .reg16 r) (b := .imm16 1) rfl rfl trivial
  case xchgEbGb e g =>
    exact exchangeOp_answers (effective8_hasWidth e s) rfl (effective8_writable e s) trivial (accessible_reg8 s _ g)
  case xchgEvGv e g =>
    exact exchangeOp_answers (effective16_hasWidth e s) rfl (effective16_writable e s) trivial (accessible_reg16 s _ g)
  case xchgAxR16 r =>
    exact exchangeOp_answers (x := .reg16 .ax) (y := .reg16 r) rfl rfl trivial trivial (accessible_reg16 s _ r)
  case pushR16 r => exact push_answers (pushedValue r s)
  case popR16 r => exact popOp_answers r
  case jmpRel8 d => exact jumpBy_answers (target8_eq s.pc d)
  case jmpRel16 d => exact jumpBy_answers (target16_eq s.pc d)
  case joRel8 d | jbRel8 d | jzRel8 d | jsRel8 d => exact jumpIf_answers d Iff.rfl
  case jnoRel8 d | jnbRel8 d | jnzRel8 d | jnsRel8 d => exact jumpIf_answers d (by simp)
  case jbeRel8 d | jaRel8 d => exact jumpIf_answers d (by simp)
  case callRel16 d => exact callOp_answers d
  case ret => exact retOp_answers
  case nop => exact ⟨s, rfl, .completed rfl rfl id⟩
  case hlt => exact ⟨_, haltOp_ok s, .halted⟩

/-! ## The cursor after a step (R30) -/

/-- A step on an instruction that stands at the cursor is its execution with the cursor past its bytes. -/
theorem step_decoded {s : State} {bs : List Byte} {i : Instr} (hs : s.status = .running)
    (hd : decode s.cfg bs = .ok i []) (hc : s.codeAt bs) :
    step s = afterExecute (exec i (beginExecute (withPc s (s.pc + BitVec.ofNat 16 bs.length)))) := by
  simp [step, hs, decodeFrom_cursor_ok hc hd]

/-- Settles O55: pc is the instruction's target wherever execution completes, and every other answer is stopped. -/
theorem cursorAfterStep : Obligations.CursorAfterStep := by
  unfold Obligations.CursorAfterStep
  intro s t bs i hs hd hc hstep ht
  obtain ⟨u, hu, hres⟩ := exec_answers i (beginExecute (withPc s (s.pc + BitVec.ofNat 16 bs.length)))
  rw [step_decoded hs hd hc, hu] at hstep
  cases hstep
  rw [endExecute_status] at ht
  rw [endExecute_pc]
  cases hres with
  | completed _ pc _ => exact pc.trans (nextPc_beginExecute s _ i)
  | beyondTop | pushBeyondTop | halted => cases ht

end Sys2Proof.Machine
end

section
/-! PROOFS for 10_state.md, decoding. The handler table gives every row it lists for a byte the category R97's map gives
the byte, and every row has a case of its category, so no byte sequence is Miscategorized (R254). -/

namespace Sys2Proof

/-! ## The tables agree -/

/-- The row has an instruction of its own category at the byte. Which operand values stand in it makes no difference. -/
def OpRow.hasCase (r : OpRow) (op : Byte) : Bool :=
  match r.category with
  | .noOperand => (withNoOperand op r.row).isSome
  | .special => (withNoOperand op r.row).isSome
  | .imm8 => (withImm8 op 0 r.row).isSome
  | .imm16 => (withImm16 op 0 r.row).isSome
  | .modrm8 => (withModrm8 (.direct 0) .al r.row).isSome
  | .modrm16 => (withModrm16 (.direct 0) .ax r.row).isSome
  | .group =>
    match groupWidth op with
    | .w8 => (withGroup8 (.direct 0) 0 r.row).isSome
    | .w16 => (withGroup16 (.direct 0) 0 r.row).isSome

theorem withImm8_isSome (op v : Byte) (row : Row) : (withImm8 op v row).isSome = (withImm8 op 0 row).isSome := by
  cases row <;> rfl

theorem withImm16_isSome (op : Byte) (v : Word) (row : Row) :
    (withImm16 op v row).isSome = (withImm16 op 0 row).isSome := by
  cases row <;> rfl

theorem withModrm8_isSome (e : RM Reg8) (g : Reg8) (row : Row) :
    (withModrm8 e g row).isSome = (withModrm8 (.direct 0) .al row).isSome := by
  cases row <;> rfl

theorem withModrm16_isSome (e : RM Reg16) (g : Reg16) (row : Row) :
    (withModrm16 e g row).isSome = (withModrm16 (.direct 0) .ax row).isSome := by
  cases row <;> rfl

theorem withGroup8_isSome (e : RM Reg8) (v : Byte) (row : Row) :
    (withGroup8 e v row).isSome = (withGroup8 (.direct 0) 0 row).isSome := by
  cases row <;> rfl

theorem withGroup16_isSome (e : RM Reg16) (v : Word) (row : Row) :
    (withGroup16 e v row).isSome = (withGroup16 (.direct 0) 0 row).isSome := by
  cases row <;> rfl

theorem mappedCategory_of_fixedRow :
    ∀ op : Byte, ∀ r ∈ fixedRowsAt op, mappedCategory op = some r.category := by
  decide +kernel

theorem mappedCategory_of_no_fixedRow : ∀ op : Byte, fixedRowsAt op = [] → mappedCategory op = none := by
  decide +kernel

theorem fixedRow_hasCase : ∀ op : Byte, ∀ r ∈ fixedRowsAt op, r.hasCase op = true := by
  decide +kernel

/-- The rows of a byte are fixed ones, or HLT's on the designated byte (R240). -/
theorem mem_rowsAt {c : Config} {op : Byte} {r : OpRow} (h : r ∈ rowsAt c op) :
    r ∈ fixedRowsAt op ∨ (fixedRowsAt op = [] ∧ op = c.haltOpcode ∧ r = ⟨.hlt, .special, op, op, none⟩) := by
  unfold rowsAt at h
  cases hf : fixedRowsAt op with
  | cons q qs => rw [hf] at h; exact .inl h
  | nil =>
    rw [hf] at h
    by_cases ho : op = c.haltOpcode
    · simp only [if_pos ho, List.mem_singleton] at h; exact .inr ⟨rfl, ho, h⟩
    · simp only [if_neg ho, List.not_mem_nil] at h

theorem categoryAt_of_row {c : Config} {op : Byte} {r : OpRow} (h : r ∈ rowsAt c op) :
    categoryAt c op = some r.category := by
  unfold categoryAt
  rcases mem_rowsAt h with h | ⟨hf, ho, rfl⟩
  · rw [mappedCategory_of_fixedRow op r h]
  · rw [mappedCategory_of_no_fixedRow op hf]; exact if_pos ho

theorem row_hasCase {c : Config} {op : Byte} {r : OpRow} (h : r ∈ rowsAt c op) : r.hasCase op = true := by
  rcases mem_rowsAt h with h | ⟨-, -, rfl⟩
  · exact fixedRow_hasCase op r h
  · rfl

/-- Every row of a GROUP byte is a GROUP row, so the one its sub-selector finds has a case of the byte's width (R101). -/
theorem groupRowAt_hasCase {c : Config} {op : Byte} {sub : BitVec 3} {r : OpRow} (hc : categoryAt c op = some .group)
    (hg : groupRowAt c op sub = some r) : r.category = .group ∧ r.hasCase op = true := by
  have hr : r ∈ rowsAt c op := List.mem_of_find?_eq_some hg
  exact ⟨Option.some.inj ((categoryAt_of_row hr).symm.trans hc), row_hasCase hr⟩

/-! ## No decoder answers Miscategorized -/

/-- The decoder never rejects as Miscategorized. -/
def NeverMiscategorizes {σ α : Type} (x : Decoder σ α) : Prop :=
  ∀ s op cat t, x s ≠ .error (.miscategorized op cat) t

section
variable {σ α β : Type}

theorem NeverMiscategorizes.pure (a : α) : NeverMiscategorizes (pure a : Decoder σ α) := fun _ _ _ _ h => nomatch h

theorem NeverMiscategorizes.throw {why : Reject} (h : ∀ op cat, why ≠ .miscategorized op cat) :
    NeverMiscategorizes (throw why : Decoder σ α) := by
  intro s op cat t hx
  cases hx
  exact h op cat rfl

/-- What follows need not miscategorize on the values the first decoder can answer. -/
theorem NeverMiscategorizes.bind_of_ok {x : Decoder σ α} {f : α → Decoder σ β} (hx : NeverMiscategorizes x)
    (hf : ∀ a s t, x s = .ok a t → NeverMiscategorizes (f a)) : NeverMiscategorizes (x >>= f) := by
  intro s op cat t h
  rcases decoder_bind_error h with h | ⟨a, u, ha, h⟩
  · exact hx s op cat t h
  · exact hf a s u ha u op cat t h

theorem NeverMiscategorizes.bind {x : Decoder σ α} {f : α → Decoder σ β} (hx : NeverMiscategorizes x)
    (hf : ∀ a, NeverMiscategorizes (f a)) : NeverMiscategorizes (x >>= f) :=
  hx.bind_of_ok fun a _ _ _ => hf a

variable (next : Stream σ)

theorem neverMiscategorizes_takeByte {why : Reject} (h : why.isEnd = true) :
    NeverMiscategorizes (takeByte next why) := by
  intro s op cat t hx
  unfold takeByte at hx
  cases hn : next s with
  | some p => rw [hn] at hx; cases hx
  | none => rw [hn] at hx; cases hx; cases h

theorem neverMiscategorizes_operandByte : NeverMiscategorizes (operandByte next) :=
  neverMiscategorizes_takeByte next rfl

theorem neverMiscategorizes_operandWord : NeverMiscategorizes (operandWord next) :=
  (neverMiscategorizes_operandByte next).bind fun _ => (neverMiscategorizes_operandByte next).bind fun _ => .pure _

theorem neverMiscategorizes_effectiveOperand {ρ : Type} (regOf : BitVec 3 → ρ) (mod : BitVec 2) (rm : BitVec 3) :
    NeverMiscategorizes (effectiveOperand next regOf mod rm) := by
  unfold effectiveOperand
  split
  · split
    · exact (neverMiscategorizes_operandWord next).bind fun _ => .pure _
    · exact .pure _
  · exact (neverMiscategorizes_operandByte next).bind fun _ => .pure _
  · exact (neverMiscategorizes_operandWord next).bind fun _ => .pure _
  · exact .pure _

theorem neverMiscategorizes_decodeModrm {ρ : Type} (regOf : BitVec 3 → ρ) (c : Config) (op : Byte) :
    NeverMiscategorizes (decodeModrm next regOf c op) := by
  refine (neverMiscategorizes_operandByte next).bind fun m => ?_
  split
  · exact (neverMiscategorizes_effectiveOperand next _ _ _).bind fun _ => .pure _
  · exact .throw nofun

theorem neverMiscategorizes_orMiscategorized (op : Byte) (cat : Category) {o : Option Instr} (h : o.isSome = true) :
    NeverMiscategorizes (orMiscategorized op cat o : Decoder σ Instr) := by
  cases o with
  | some i => exact .pure i
  | none => cases h

/-- An implemented row of the byte has the byte's category, so the handler search finds one (R254). -/
theorem neverMiscategorizes_classify (c : Config) (op : Byte) :
    NeverMiscategorizes (classify c op : Decoder σ (Category × Row)) := by
  intro s op' cat' t h
  unfold classify at h
  by_cases hi : implemented c op = true
  · obtain ⟨r, hr, hir⟩ := List.any_eq_true.1 hi
    have hfound : (handlerAt c r.category op).isSome = true :=
      List.find?_isSome.2 ⟨r, hr, by simp [hir]⟩
    obtain ⟨q, hq⟩ := Option.isSome_iff_exists.1 hfound
    simp only [hi, if_true, categoryAt_of_row hr, hq] at h
    cases h
  · rw [if_neg hi] at h; cases h

theorem neverMiscategorizes_fetchGroup {c : Config} {op : Byte} (hc : categoryAt c op = some .group) :
    NeverMiscategorizes (fetchGroup next c op) := by
  unfold fetchGroup
  cases hw : groupWidth op with
  | w8 =>
    refine (neverMiscategorizes_decodeModrm next _ c op).bind fun p => ?_
    obtain ⟨e, sub⟩ := p
    dsimp only
    cases hg : groupRowAt c op sub with
    | none => exact .throw nofun
    | some r =>
      obtain ⟨hk, hh⟩ := groupRowAt_hasCase hc hg
      refine (neverMiscategorizes_operandByte next).bind fun v => neverMiscategorizes_orMiscategorized _ _ ?_
      rw [withGroup8_isSome]
      simpa only [OpRow.hasCase, hk, hw] using hh
  | w16 =>
    refine (neverMiscategorizes_decodeModrm next _ c op).bind fun p => ?_
    obtain ⟨e, sub⟩ := p
    dsimp only
    cases hg : groupRowAt c op sub with
    | none => exact .throw nofun
    | some r =>
      obtain ⟨hk, hh⟩ := groupRowAt_hasCase hc hg
      refine (neverMiscategorizes_operandWord next).bind fun v => neverMiscategorizes_orMiscategorized _ _ ?_
      rw [withGroup16_isSome]
      simpa only [OpRow.hasCase, hk, hw] using hh

theorem neverMiscategorizes_fetchOperands {c : Config} {op : Byte} {r : OpRow} (hr : r ∈ rowsAt c op) :
    NeverMiscategorizes (fetchOperands next c op r.category r.row) := by
  have hh := row_hasCase hr
  have hc := categoryAt_of_row hr
  obtain ⟨row, cat, lo, hi, sub⟩ := r
  unfold fetchOperands
  cases cat with
  | noOperand | special => exact neverMiscategorizes_orMiscategorized _ _ hh
  | imm8 =>
    exact (neverMiscategorizes_operandByte next).bind fun v =>
      neverMiscategorizes_orMiscategorized _ _ ((withImm8_isSome op v row).trans hh)
  | imm16 =>
    exact (neverMiscategorizes_operandWord next).bind fun v =>
      neverMiscategorizes_orMiscategorized _ _ ((withImm16_isSome op v row).trans hh)
  | modrm8 =>
    exact (neverMiscategorizes_decodeModrm next _ c op).bind fun p =>
      neverMiscategorizes_orMiscategorized _ _ ((withModrm8_isSome p.1 (.ofNum p.2) row).trans hh)
  | modrm16 =>
    exact (neverMiscategorizes_decodeModrm next _ c op).bind fun p =>
      neverMiscategorizes_orMiscategorized _ _ ((withModrm16_isSome p.1 (.ofNum p.2) row).trans hh)
  | group => exact neverMiscategorizes_fetchGroup next hc

/-- No byte stream is rejected as Miscategorized, whatever the parameters (R254). -/
theorem neverMiscategorizes_decodeFrom (c : Config) : NeverMiscategorizes (decodeFrom next c) := by
  refine (neverMiscategorizes_takeByte next rfl).bind fun op => ?_
  refine (neverMiscategorizes_classify c op).bind_of_ok fun p s t hp => ?_
  obtain ⟨cat, row⟩ := p
  obtain ⟨-, r, hr, rfl, rfl, -⟩ := classify_read hp
  exact neverMiscategorizes_fetchOperands next hr

end

end Sys2Proof
end

section
/-! PROOFS for 10_state.md, the invariant. A step ends in a rejection, a completed execution, or a stop while executing;
each keeps the invariant. -/

namespace Sys2Proof.Machine

/-- Every rejection but Miscategorized becomes a reachable fatal outcome, raised in its own phase (R95, R252). -/
theorem fatalOf_raisedIn {why : Reject} (h : ∀ op cat, why ≠ .miscategorized op cat) :
    (fatalOf why).raisedIn (phaseOf why) := by
  cases why with
  | noOpcodeByte | noOperandByte => exact ⟨rfl, by decide⟩
  | unknownOpcode op => rfl
  | miscategorized op cat => exact absurd rfl (h op cat)
  | groupSubop op sub => rfl
  | addressingMode op m => rfl

/-- A stopped state has the invariant if its memory is canonical and it rests where the outcome is raised. -/
theorem inv_of_stopped {t : State} {why : Fatal} (hm : t.mem.wf) (ht : t.status = .stopped why)
    (hr : why.raisedIn t.phase) : Inv t where
  memory := hm
  phase h := by rw [ht] at h; cases h
  stop why' h := by rw [ht] at h; cases h; exact hr

theorem inv_rejectAt {s : State} {why : Reject} (hm : s.mem.wf) (h : ∀ op cat, why ≠ .miscategorized op cat) :
    Inv (rejectAt why s) :=
  inv_of_stopped hm rfl (fatalOf_raisedIn h)

/-- The end of the execute phase meets the invariant: back at fetch-opcode while Running, resting in execute after an
outcome that executing raises. -/
theorem inv_endExecute {s u : State} {target : Word} (hm : s.mem.wf) (hs : s.status = .running)
    (hp : s.phase = .execute) (h : ExecResult s target u) : Inv (endExecute u) := by
  cases h with
  | completed status _ memory =>
    have hu : u.status = .running := status.trans hs
    exact {
      memory := by rw [endExecute_mem]; exact memory hm
      phase := fun _ => by rw [endExecute_phase, if_pos hu]
      stop := fun why hw => by rw [endExecute_status, hu] at hw; cases hw }
  | beyondTop | pushBeyondTop =>
    refine inv_of_stopped hm rfl ⟨rfl, ?_⟩
    show s.phase ≠ .classify
    rw [hp]; decide
  | halted => exact inv_of_stopped hm rfl hp

/-- Settles O56: decoding keeps memory and rejects with reachable outcomes only, and so does execution. -/
theorem stepKeepsInvariant : Obligations.StepKeepsInvariant := by
  unfold Obligations.StepKeepsInvariant
  intro s t hinv hstep
  obtain ⟨hs, ⟨why, p, hd, rfl⟩ | ⟨i, p, u, -, hx, rfl⟩⟩ := step_next hstep
  · refine inv_rejectAt hinv.memory fun op cat hwhy => ?_
    exact neverMiscategorizes_decodeFrom fetchNext s.cfg s op cat _ (hwhy ▸ hd)
  · obtain ⟨u', hu', hres⟩ := exec_answers i (beginExecute (withPc s p))
    cases hx.symm.trans hu'
    exact inv_endExecute (s := beginExecute (withPc s p)) hinv.memory hs rfl hres

end Sys2Proof.Machine
end

section
/-! PROOFS for 20_memory.md, accesses. A byte is read as it was last written (R52), a word is two bytes (R53, R54), the
canonical form of a memory is one, and descriptors refuse what R68 and R69 name. -/

namespace Sys2Proof.Machine

/-! ## Byte and word accesses -/

theorem joinBytes_eq_ofNat (hi lo : Byte) : joinBytes hi lo = BitVec.ofNat 16 (256 * hi.toNat + lo.toNat) := by
  rw [← joinBytes_toNat, BitVec.ofNat_toNat, BitVec.setWidth_eq]

theorem accessible_word_iff (s : State) (a : Word) :
    s.accessible .w16 (.mem a) ↔ a ≠ 0xFFFF#16 ∨ s.cfg.topWrap = true :=
  (accessible_mem s a).trans (canAdvance_iff s a)

theorem readWord_ok {s : State} {a : Word} (h : s.accessible .w16 (.mem a)) :
    readWord a s = .ok (joinBytes (s.byteAt (a + 1)) (s.byteAt a)) s :=
  readOperand_ok (w := .w16) (d := .mem a) trivial h

theorem writeWord_ok {s : State} {a : Word} (v : Word) (h : s.accessible .w16 (.mem a)) :
    writeWord a v s = .ok ⟨⟩ (putAt s .w16 (.mem a) v) :=
  writeOperand_ok (w := .w16) (d := .mem a) trivial trivial h v

theorem readWord_fault {s : State} {a : Word} (h : ¬ s.accessible .w16 (.mem a)) :
    readWord a s = .error beyondTop s :=
  readOperand_fault (w := .w16) (d := .mem a) h

theorem writeWord_fault {s : State} {a : Word} (v : Word) (h : ¬ s.accessible .w16 (.mem a)) :
    writeWord a v s = .error beyondTop s :=
  writeOperand_fault (w := .w16) (d := .mem a) h v

/-- A word write stores its low byte at `a`, its high byte above it, and no other byte (R53). -/
theorem byteAt_putAt_word (s : State) (a v b : Word) :
    (putAt s .w16 (.mem a) v).byteAt b =
      if a + 1 = b then highByte v else if a = b then lowByte v else s.byteAt b := by
  rw [putAt, byteAt_setByte, byteAt_setByte]

/-- Settles O15: the byte write is total, and a read sees the last write to its address. -/
theorem byteWriteThenRead : Obligations.ByteWriteThenRead := by
  unfold Obligations.ByteWriteThenRead
  intro s a v
  refine ⟨s.setByte a v, writeByte_apply a v s, ?_, fun b hb => ?_⟩
  · rw [readByte_apply, byteAt_setByte, if_pos rfl]
  · rw [readByte_apply, byteAt_setByte, if_neg (Ne.symm hb)]

/-- Settles O16: where the second byte exists both accesses go through byte by byte, and at the top neither begins. -/
theorem wordAccessIsLittleEndian : Obligations.WordAccessIsLittleEndian := by
  unfold Obligations.WordAccessIsLittleEndian
  intro s a v
  rw [← accessible_word_iff]
  refine ⟨fun h => ⟨?_, _, writeWord_ok v h, putAt_sameControl s .w16 (.mem a) v, rfl, rfl, ?_, ?_, ?_⟩,
    fun ha hw => ?_⟩
  · rw [readWord_ok h, joinBytes_eq_ofNat]
  · rw [byteAt_putAt_word, if_neg (by simp), if_pos rfl, lowByte_toNat]
  · rw [byteAt_putAt_word, if_pos rfl, highByte_toNat]
  · intro b hb hb'
    rw [byteAt_putAt_word, if_neg (Ne.symm hb'), if_neg (Ne.symm hb)]
  · have h : ¬ s.accessible .w16 (.mem a) := by simp [accessible_word_iff, ha, hw]
    exact ⟨readWord_fault h, writeWord_fault v h⟩

/-! ## The canonical form -/

theorem wf_cons {x : Host.Cell} {m : Memory} :
    Memory.wf (x :: m) ↔ (∀ y ∈ m, x.1 < y.1) ∧ x.1 < Config.memBytes ∧ x.2 ≠ unlistedByte ∧ m.wf := by
  simp only [Memory.wf, List.pairwise_cons, List.forall_mem_cons]
  tauto

theorem get_head (x : Host.Cell) (m : Memory) : Memory.get (x :: m) x.1 = x.2 := by
  rw [get_cons, if_pos rfl]

/-- An address below every cell is not listed. -/
theorem get_below {m : Memory} {a : Nat} (h : ∀ x ∈ m, a < x.1) : m.get a = unlistedByte := by
  induction m with
  | nil => rfl
  | cons x m ih =>
    obtain ⟨hx, hm⟩ := List.forall_mem_cons.1 h
    rw [get_cons, if_neg hx.ne', ih hm]

/-- The first cell of a canonical memory reads as no unlisted address does, so a memory that reads alike begins no
higher. -/
theorem head_le_of_get_eq {x y : Host.Cell} {m n : Memory} (hm : Memory.wf (x :: m)) (hn : Memory.wf (y :: n))
    (h : Memory.get (x :: m) x.1 = Memory.get (y :: n) x.1) : y.1 ≤ x.1 := by
  obtain ⟨-, -, hx, -⟩ := wf_cons.1 hm
  obtain ⟨hy, -, -, -⟩ := wf_cons.1 hn
  by_contra hlt
  have hxy : x.1 < y.1 := Nat.lt_of_not_le hlt
  refine hx ?_
  rw [← get_head x m, h]
  exact get_below (List.forall_mem_cons.2 ⟨hxy, fun z hz => hxy.trans (hy z hz)⟩)

/-- Behind a common first cell, memories that read alike have tails that read alike. -/
theorem get_tail_eq {x : Host.Cell} {m n : Memory} (hm : Memory.wf (x :: m)) (hn : Memory.wf (x :: n))
    (h : ∀ a, Memory.get (x :: m) a = Memory.get (x :: n) a) (a : Nat) : m.get a = n.get a := by
  obtain ⟨hxm, -⟩ := wf_cons.1 hm
  obtain ⟨hxn, -⟩ := wf_cons.1 hn
  by_cases ha : x.1 = a
  · subst ha
    rw [get_below hxm, get_below hxn]
  · simpa only [get_cons, if_neg ha] using h a

theorem not_get_eq_nil {x : Host.Cell} {m : Memory} (hm : Memory.wf (x :: m)) :
    ¬ ∀ a, Memory.get (x :: m) a = Memory.get [] a := by
  obtain ⟨-, -, hx, -⟩ := wf_cons.1 hm
  intro h
  exact hx ((get_head x m).symm.trans (h x.1))

/-- Settles O17: canonical memories that read alike agree on their first cells, and then on their tails. -/
theorem canonicalMemoriesThatReadAlikeAreEqual : Obligations.CanonicalMemoriesThatReadAlikeAreEqual := by
  unfold Obligations.CanonicalMemoriesThatReadAlikeAreEqual
  intro m
  induction m with
  | nil =>
    intro n _ hn h
    cases n with
    | nil => rfl
    | cons y n => exact absurd (fun a => (h a).symm) (not_get_eq_nil hn)
  | cons x m ih =>
    intro n hm hn h
    cases n with
    | nil => exact absurd h (not_get_eq_nil hm)
    | cons y n =>
      have haddr : x.1 = y.1 :=
        le_antisymm (head_le_of_get_eq hn hm (h y.1).symm) (head_le_of_get_eq hm hn (h x.1))
      have hbyte : x.2 = y.2 := by rw [← get_head x m, h x.1, haddr, get_head]
      obtain rfl : x = y := Prod.ext haddr hbyte
      obtain ⟨-, -, -, hm'⟩ := wf_cons.1 hm
      obtain ⟨-, -, -, hn'⟩ := wf_cons.1 hn
      rw [ih n hm' hn' (get_tail_eq hm hn h)]

/-! ## Descriptors (R68, R69) -/

theorem writeOperand_imm8 (w : Width) (v : Byte) (x : BitVec w.bits) (s : State) :
    writeOperand w (.imm8 v) x s = .error (.writeImmediate (.imm8 v)) s := by
  cases w <;> rfl

theorem writeOperand_imm16 (w : Width) (v : Word) (x : BitVec w.bits) (s : State) :
    writeOperand w (.imm16 v) x s = .error (.writeImmediate (.imm16 v)) s := by
  cases w <;> rfl

/-- Settles O18: the descriptor decides, whatever the width. -/
theorem writeThroughImmediateIsFatal : Obligations.WriteThroughImmediateIsFatal := by
  unfold Obligations.WriteThroughImmediateIsFatal
  exact fun s w x => ⟨fun v => writeOperand_imm8 w v x s, fun v => writeOperand_imm16 w v x s⟩

/-- Settles O19: each pair of an operand and a width it does not have is an arm of its own. -/
theorem widthMismatchIsFatal : Obligations.WidthMismatchIsFatal := by
  unfold Obligations.WidthMismatchIsFatal
  exact fun s r q v8 v16 => ⟨rfl, rfl, rfl, rfl, rfl, rfl⟩

/-! ## Stores are seen by fetches (R72) -/

/-- MOV of a byte immediate to a direct address is the byte write there (R157). -/
theorem exec_movEbIb_direct (a : Word) (v : Byte) (s : State) :
    exec (.movEbIb (.direct a) v) s = .next (s.setByte a v) :=
  moveOp_ok (w := .w8) (dst := .mem a) (src := .imm8 v) trivial rfl trivial (accessible_w8 s _) (accessible_w8 s _)

/-- Settles O60: the store is a byte write to the memory that the fetch reads. -/
theorem storedByteIsFetched : Obligations.StoredByteIsFetched := by
  unfold Obligations.StoredByteIsFetched
  intro s a v h
  refine ⟨s.setByte a v, exec_movEbIb_direct a v s, ?_⟩
  have hbyte : (withPc (s.setByte a v) a).byteAt a = v := (byteAt_setByte s a a v).trans (if_pos rfl)
  calc fetchNext (withPc (s.setByte a v) a)
      = some ((withPc (s.setByte a v) a).byteAt a, withPc (s.setByte a v) (a + 1)) := fetchNext_some h
    _ = some (v, withPc (s.setByte a v) (a + 1)) := by rw [hbyte]

end Sys2Proof.Machine
end

section
/-! PROOFS for 20_memory.md, encodings. Decoding an admitted instruction's encoding gives the instruction back (R80,
R100, R101), which the fetch of its bytes rests on. -/

namespace Sys2Proof

open Machine

/-- The decoder reads the instruction back from its encoding and leaves the bytes after it. -/
def DecodesBack (c : Config) (i : Instr) : Prop :=
  ∀ rest, decodeFrom listStream c (encode c i ++ rest) = .ok i rest

variable {c : Config} {op : Byte} {i : Instr} {r : OpRow}

theorem decodeFrom_classified {bs : List Byte} {cat : Category} {row : Row}
    (h : classify c op bs = .ok (cat, row) bs) :
    decodeFrom listStream c (op :: bs) = fetchOperands listStream c op cat row bs := by
  have hop : takeByte listStream .noOpcodeByte (op :: bs) = .ok op bs := rfl
  simp only [decodeFrom, bind_apply, hop, h]

/-! ## A byte of one row -/

theorem decodeFrom_single (hrow : fixedRowsAt op = [r]) (himp : c.implements r.row = true) (bs : List Byte) :
    decodeFrom listStream c (op :: bs) = fetchOperands listStream c op r.category r.row bs := by
  have hmap : mappedCategory op = some r.category := mappedCategory_of_fixedRow op r (by rw [hrow]; simp)
  exact decodeFrom_classified (classify_single hrow hmap himp bs)

theorem decodesBack_noOperand (he : encode c i = [op]) (hrow : fixedRowsAt op = [r])
    (himp : c.implements r.row = true) (hcat : r.category = .noOperand) (hi : withNoOperand op r.row = some i) :
    DecodesBack c i := by
  intro rest
  rw [he, List.singleton_append, decodeFrom_single hrow himp, hcat]
  simp [fetchOperands, hi, orMiscategorized]

theorem decodesBack_imm8 {v : Byte} (he : encode c i = [op, v]) (hrow : fixedRowsAt op = [r])
    (himp : c.implements r.row = true) (hcat : r.category = .imm8) (hi : withImm8 op v r.row = some i) :
    DecodesBack c i := by
  intro rest
  rw [he, List.cons_append, decodeFrom_single hrow himp, hcat]
  simp [fetchOperands, operandByte_cons, hi, orMiscategorized]

theorem decodesBack_imm16 {v : Word} (he : encode c i = op :: wordBytes v) (hrow : fixedRowsAt op = [r])
    (himp : c.implements r.row = true) (hcat : r.category = .imm16) (hi : withImm16 op v r.row = some i) :
    DecodesBack c i := by
  intro rest
  rw [he, List.cons_append, decodeFrom_single hrow himp, hcat]
  simp [fetchOperands, operandWord_bytes, hi, orMiscategorized]

theorem decodesBack_modrm8 {e : RM Reg8} {g : Reg8} (he : encode c i = op :: modrmBytes Reg8.num e g.num)
    (hrow : fixedRowsAt op = [r]) (himp : c.implements r.row = true) (hcat : r.category = .modrm8)
    (hi : withModrm8 e g r.row = some i) (hw : e.wf = true)
    (hs : c.modrmSupported e.modBits (e.rmBits Reg8.num) = true) : DecodesBack c i := by
  intro rest
  rw [he, List.cons_append, decodeFrom_single hrow himp, hcat]
  simp [fetchOperands, decodeModrm_encoded reg8_ofNum_num hw hs, hi, orMiscategorized]

theorem decodesBack_modrm16 {e : RM Reg16} {g : Reg16} (he : encode c i = op :: modrmBytes Reg16.num e g.num)
    (hrow : fixedRowsAt op = [r]) (himp : c.implements r.row = true) (hcat : r.category = .modrm16)
    (hi : withModrm16 e g r.row = some i) (hw : e.wf = true)
    (hs : c.modrmSupported e.modBits (e.rmBits Reg16.num) = true) : DecodesBack c i := by
  intro rest
  rw [he, List.cons_append, decodeFrom_single hrow himp, hcat]
  simp [fetchOperands, decodeModrm_encoded reg16_ofNum_num hw hs, hi, orMiscategorized]

/-! ## The designated halt byte (R240) -/

theorem admitted_hlt_unmapped (ha : Instr.hlt.admitted c = true) : mappedCategory c.haltOpcode = none := by
  simp only [Instr.admitted, Instr.row, Bool.and_eq_true, Bool.or_eq_true, decide_eq_true_eq] at ha
  exact ha.2.resolve_left (by decide)

theorem classify_hlt {σ : Type} (ha : Instr.hlt.admitted c = true) (s : σ) :
    classify c c.haltOpcode s = .ok (.special, .hlt) s := by
  have hm := admitted_hlt_unmapped ha
  have himp : c.implements .hlt = true := admitted_implements ha
  simp [classify, implemented, handlerAt, rowsAt, Laws.Opcode.fixedRowsAt_of_unmapped _ hm, himp, categoryAt, hm]

theorem decodesBack_hlt (ha : Instr.hlt.admitted c = true) : DecodesBack c .hlt := by
  intro rest
  rw [encode, List.singleton_append, decodeFrom_classified (classify_hlt ha rest)]
  rfl

/-! ## A GROUP byte (R101) -/

/-- The fixed row of the byte with that sub-selector. -/
def fixedGroupRow (op : Byte) (sub : BitVec 3) : Option OpRow :=
  (fixedRowsAt op).find? fun r => decide (r.sub = some sub)

theorem mem_of_fixedGroupRow {sub : BitVec 3} (h : fixedGroupRow op sub = some r) : r ∈ rowsAt c op :=
  Laws.Opcode.rowsAt_of_fixed (List.mem_of_find?_eq_some h)

/-- An implemented GROUP row has its byte classified as GROUP, whichever row of the byte the handler search meets. -/
theorem classify_group {σ : Type} (hr : r ∈ rowsAt c op) (himp : c.implements r.row = true)
    (hcat : r.category = .group) (s : σ) : ∃ row, classify c op s = .ok (.group, row) s := by
  have hi : implemented c op = true := List.any_eq_true.2 ⟨r, hr, himp⟩
  have hfound : (handlerAt c .group op).isSome = true := List.find?_isSome.2 ⟨r, hr, by simp [hcat, himp]⟩
  obtain ⟨q, hq⟩ := Option.isSome_iff_exists.1 hfound
  exact ⟨q.row, by simp [classify, hi, categoryAt_of_row hr, hcat, hq]⟩

/-- The row found by its sub-selector is the one found among the implemented rows, if it is implemented. -/
theorem groupRowAt_eq {sub : BitVec 3} (h : fixedGroupRow op sub = some r) (himp : c.implements r.row = true) :
    groupRowAt c op sub = some r := by
  obtain ⟨hsub, before, after, hrows, hbefore⟩ := List.find?_eq_some_iff_append.1 h
  have hrowsAt : rowsAt c op = before ++ r :: after := by
    unfold rowsAt
    rw [hrows]
    cases before <;> rfl
  refine List.find?_eq_some_iff_append.2 ⟨by rw [hsub, himp]; rfl, before, after, hrowsAt, fun q hq => ?_⟩
  have hq : decide (q.sub = some sub) = false := by simpa using hbefore q hq
  rw [hq]
  rfl

theorem decodesBack_group8 {e : RM Reg8} {sub : BitVec 3} {v : Byte}
    (he : encode c i = op :: (modrmBytes Reg8.num e sub ++ [v])) (hrow : fixedGroupRow op sub = some r)
    (himp : c.implements r.row = true) (hcat : r.category = .group) (hwidth : groupWidth op = .w8)
    (hi : withGroup8 e v r.row = some i) (hw : e.wf = true)
    (hs : c.modrmSupported e.modBits (e.rmBits Reg8.num) = true) : DecodesBack c i := by
  intro rest
  obtain ⟨row, hclass⟩ :=
    classify_group (mem_of_fixedGroupRow hrow) himp hcat (modrmBytes Reg8.num e sub ++ [v] ++ rest)
  rw [he, List.cons_append, decodeFrom_classified hclass]
  simp [fetchOperands, fetchGroup, hwidth, decodeModrm_encoded reg8_ofNum_num hw hs, groupRowAt_eq hrow himp,
    operandByte_cons, hi, orMiscategorized]

theorem decodesBack_group16 {e : RM Reg16} {sub : BitVec 3} {v : Word}
    (he : encode c i = op :: (modrmBytes Reg16.num e sub ++ wordBytes v)) (hrow : fixedGroupRow op sub = some r)
    (himp : c.implements r.row = true) (hcat : r.category = .group) (hwidth : groupWidth op = .w16)
    (hi : withGroup16 e v r.row = some i) (hw : e.wf = true)
    (hs : c.modrmSupported e.modBits (e.rmBits Reg16.num) = true) : DecodesBack c i := by
  intro rest
  obtain ⟨row, hclass⟩ :=
    classify_group (mem_of_fixedGroupRow hrow) himp hcat (modrmBytes Reg16.num e sub ++ wordBytes v ++ rest)
  rw [he, List.cons_append, decodeFrom_classified hclass]
  simp [fetchOperands, fetchGroup, hwidth, decodeModrm_encoded reg16_ofNum_num hw hs, groupRowAt_eq hrow himp,
    operandWord_bytes, hi, orMiscategorized]

/-! ## Every instruction -/

theorem decodesBack (hw : i.wf = true) (ha : i.admitted c = true) : DecodesBack c i := by
  have himp := admitted_implements ha
  cases i
  case nop | ret => exact decodesBack_noOperand rfl rfl himp rfl rfl
  case incR16 q | decR16 q | pushR16 q | popR16 q =>
    cases q <;> exact decodesBack_noOperand rfl rfl himp rfl rfl
  case xchgAxR16 q =>
    cases q
    case ax => cases hw
    all_goals exact decodesBack_noOperand rfl rfl himp rfl rfl
  case addAlIb | subAlIb | cmpAlIb | joRel8 | jnoRel8 | jbRel8 | jnbRel8 | jzRel8 | jnzRel8 | jbeRel8 | jaRel8
      | jsRel8 | jnsRel8 | jmpRel8 =>
    exact decodesBack_imm8 rfl rfl himp rfl rfl
  case movR8Ib q v => cases q <;> exact decodesBack_imm8 rfl rfl himp rfl rfl
  case addAxIv | subAxIv | cmpAxIv | callRel16 | jmpRel16 => exact decodesBack_imm16 rfl rfl himp rfl rfl
  case movR16Iv q v => cases q <;> exact decodesBack_imm16 rfl rfl himp rfl rfl
  case addEbGb | addGbEb | subEbGb | subGbEb | cmpEbGb | cmpGbEb | xchgEbGb | movEbGb | movGbEb =>
    exact decodesBack_modrm8 rfl rfl himp rfl rfl hw (admitted_supported ha rfl)
  case addEvGv | addGvEv | subEvGv | subGvEv | cmpEvGv | cmpGvEv | xchgEvGv | movEvGv | movGvEv =>
    exact decodesBack_modrm16 rfl rfl himp rfl rfl hw (admitted_supported ha rfl)
  case addEbIb | subEbIb | cmpEbIb | movEbIb =>
    exact decodesBack_group8 rfl rfl himp rfl rfl rfl hw (admitted_supported ha rfl)
  case addEvIv | subEvIv | cmpEvIv | movEvIv =>
    exact decodesBack_group16 rfl rfl himp rfl rfl rfl hw (admitted_supported ha rfl)
  case hlt => exact decodesBack_hlt ha

end Sys2Proof
end

section
/-! PROOFS for 20_memory.md, fetching at the top of memory. The cursor cannot advance from 0xFFFF without TOP_WRAP, so
the fetch there is where the code stream ends (R56). -/

namespace Sys2Proof

/-! ## Where a decoder rejects for want of a byte -/

/-- Past the opcode, a rejection for want of a byte is an operand byte's, and is answered where the stream has ended. -/
def EndsAtOperand {σ α : Type} (next : Stream σ) (x : Decoder σ α) : Prop :=
  ∀ s why t, x s = .error why t → why.isEnd = true → why = .noOperandByte ∧ next t = none

section
variable {σ α β : Type} {next : Stream σ}

theorem EndsAtOperand.pure (a : α) : EndsAtOperand next (pure a : Decoder σ α) := fun _ _ _ h => nomatch h

theorem EndsAtOperand.throw {why : Reject} (h : why.isEnd = false) :
    EndsAtOperand next (throw why : Decoder σ α) := by
  intro s why' t hx he
  cases hx
  rw [h] at he; cases he

theorem EndsAtOperand.bind {x : Decoder σ α} {f : α → Decoder σ β} (hx : EndsAtOperand next x)
    (hf : ∀ a, EndsAtOperand next (f a)) : EndsAtOperand next (x >>= f) := by
  intro s why t h he
  rcases decoder_bind_error h with h | ⟨a, u, -, h⟩
  · exact hx s why t h he
  · exact hf a u why t h he

theorem operandByte_endsAtOperand : EndsAtOperand next (operandByte next) := by
  intro s why t h _
  unfold operandByte takeByte at h
  cases hn : next s with
  | some p => rw [hn] at h; cases h
  | none => rw [hn] at h; cases h; exact ⟨rfl, hn⟩

theorem operandWord_endsAtOperand : EndsAtOperand next (operandWord next) :=
  operandByte_endsAtOperand.bind fun _ => operandByte_endsAtOperand.bind fun _ => .pure _

theorem effectiveOperand_endsAtOperand {ρ : Type} (regOf : BitVec 3 → ρ) (mod : BitVec 2) (rm : BitVec 3) :
    EndsAtOperand next (effectiveOperand next regOf mod rm) := by
  unfold effectiveOperand
  split
  · split
    · exact operandWord_endsAtOperand.bind fun _ => .pure _
    · exact .pure _
  · exact operandByte_endsAtOperand.bind fun _ => .pure _
  · exact operandWord_endsAtOperand.bind fun _ => .pure _
  · exact .pure _

theorem decodeModrm_endsAtOperand {ρ : Type} (regOf : BitVec 3 → ρ) (c : Config) (op : Byte) :
    EndsAtOperand next (decodeModrm next regOf c op) := by
  refine operandByte_endsAtOperand.bind fun m => ?_
  split
  · exact (effectiveOperand_endsAtOperand _ _ _).bind fun _ => .pure _
  · exact .throw rfl

theorem orMiscategorized_endsAtOperand (op : Byte) (cat : Category) (o : Option Instr) :
    EndsAtOperand next (orMiscategorized op cat o) := by
  cases o with
  | none => exact .throw rfl
  | some i => exact .pure i

theorem fetchGroup_endsAtOperand (c : Config) (op : Byte) : EndsAtOperand next (fetchGroup next c op) := by
  unfold fetchGroup
  split
  · refine (decodeModrm_endsAtOperand _ c op).bind fun p => ?_
    dsimp only
    split
    · exact .throw rfl
    · exact operandByte_endsAtOperand.bind fun _ => orMiscategorized_endsAtOperand _ _ _
  · refine (decodeModrm_endsAtOperand _ c op).bind fun p => ?_
    dsimp only
    split
    · exact .throw rfl
    · exact operandWord_endsAtOperand.bind fun _ => orMiscategorized_endsAtOperand _ _ _

theorem fetchOperands_endsAtOperand (c : Config) (op : Byte) (cat : Category) (row : Row) :
    EndsAtOperand next (fetchOperands next c op cat row) := by
  unfold fetchOperands
  cases cat with
  | noOperand | special => exact orMiscategorized_endsAtOperand _ _ _
  | imm8 => exact operandByte_endsAtOperand.bind fun _ => orMiscategorized_endsAtOperand _ _ _
  | imm16 => exact operandWord_endsAtOperand.bind fun _ => orMiscategorized_endsAtOperand _ _ _
  | modrm8 | modrm16 => exact (decodeModrm_endsAtOperand _ c op).bind fun _ => orMiscategorized_endsAtOperand _ _ _
  | group => exact fetchGroup_endsAtOperand c op

theorem classify_endsAtOperand (c : Config) (op : Byte) : EndsAtOperand next (classify c op) := by
  unfold classify
  split
  · split
    · exact .throw rfl
    · split
      · exact .throw rfl
      · exact .pure _
  · exact .throw rfl

/-- Once the opcode byte is there, a rejection for want of a byte is an operand byte's, where the stream has ended. -/
theorem decodeFrom_endsAtOperand {c : Config} {s t u : σ} {op : Byte} {why : Reject} (hs : next s = some (op, u))
    (h : decodeFrom next c s = .error why t) (he : why.isEnd = true) : why = .noOperandByte ∧ next t = none := by
  have htake : takeByte next .noOpcodeByte s = .ok op u := by rw [takeByte, hs]
  have hrest : EndsAtOperand next (classify c op >>= fun p => fetchOperands next c op p.1 p.2) :=
    (classify_endsAtOperand c op).bind fun p => fetchOperands_endsAtOperand c op p.1 p.2
  rw [decodeFrom, Machine.bind_apply, htake] at h
  exact hrest u why t h he

end

namespace Machine

theorem step_of_rejected {s t : State} {why : Reject} (hs : s.status = .running)
    (h : decodeFrom fetchNext s.cfg s = .error why t) : step s = .next (rejectAt why t) := by
  simp only [step, hs, h]

theorem fetchNext_none_iff (s : State) : fetchNext s = none ↔ s.pc = 0xFFFF#16 ∧ s.cfg.topWrap = false := by
  simp [fetchNext, State.canAdvance]

/-- Settles O46: without a byte to fetch, decoding ends before classification. -/
theorem opcodeFetchAtTopStops : Obligations.OpcodeFetchAtTopStops := by
  unfold Obligations.OpcodeFetchAtTopStops
  intro s hs hpc hwrap
  have hdecode : decodeFrom fetchNext s.cfg s = .error .noOpcodeByte s := by
    simp only [decodeFrom, bind_apply, takeByte, fetchNext_none hpc hwrap]
  exact step_of_rejected hs hdecode

/-! ## An encoding cut off by the top of memory -/

/-- What the list holds before `rest` stands at the cursor of `t`, up to the top of memory and no further. -/
def CutAtTop (rest : List Byte) (t : State) (bytes : List Byte) : Prop :=
  ∃ front, bytes = front ++ rest ∧ t.codeAt front ∧ t.pc.toNat + front.length = 0xFFFF ∧ t.cfg.topWrap = false

theorem succ_toNat {a : Word} (h : a ≠ 0xFFFF#16) : (a + 1).toNat = a.toNat + 1 := by
  bv_omega

/-- The bytes the machine fetches below the top come off the list in the same order. -/
theorem cutAtTop_sim (rest : List Byte) : StreamSim false (CutAtTop rest) fetchNext listStream := by
  rintro t bytes ⟨front, rfl, hc, hlen, hwrap⟩
  cases front with
  | nil =>
    have hpc : t.pc = 0xFFFF#16 := BitVec.eq_of_toNat_eq hlen
    rw [fetchNext_none hpc hwrap]
    exact fun h => nomatch h
  | cons b front =>
    obtain ⟨hb, ha, hc'⟩ := codeAt_cons hc
    rw [fetchNext_some ha, hb]
    refine ⟨front ++ rest, rfl, front, rfl, hc', ?_, hwrap⟩
    have hpc : t.pc ≠ 0xFFFF#16 := ha.resolve_right (by simp [hwrap])
    rw [withPc_pc, succ_toNat hpc]
    simp only [List.length_cons] at hlen
    omega

/-- Bytes that make up a whole instruction only with more after them are rejected for want of a byte. -/
theorem decodeFrom_cutAtTop {c : Config} {s : State} {front rest : List Byte} {i : Instr}
    (hcut : CutAtTop rest s (front ++ rest)) (hrest : rest ≠ [])
    (hd : decodeFrom listStream c (front ++ rest) = .ok i []) :
    ∃ why t, decodeFrom fetchNext c s = .error why t ∧ why.isEnd = true := by
  have h := decodeFrom_sim (cutAtTop_sim rest) c s _ hcut
  cases hx : decodeFrom fetchNext c s with
  | ok j t =>
    rw [hx] at h
    obtain ⟨bs, hbs, left, hleft, -⟩ := h
    cases hd.symm.trans hbs
    exact absurd (List.append_eq_nil_iff.1 hleft.symm).2 hrest
  | error why t =>
    rw [hx] at h
    rcases h with ⟨he, -⟩ | ⟨bs, hbs, -⟩
    · exact ⟨why, t, rfl, he⟩
    · cases hd.symm.trans hbs

/-- Settles O47: the machine reads the encoding's first bytes as the list decoder does, which needs the others too, so
it runs out of bytes at the only cursor that cannot advance. -/
theorem operandFetchAtTopStops : Obligations.OperandFetchAtTopStops := by
  unfold Obligations.OperandFetchAtTopStops
  intro s i k hs hwrap hwf hadm hk hlen hpc hcode
  have hfront : ((encode s.cfg i).take k).length = k := List.length_take_of_le hlen.le
  have hdecode : decodeFrom listStream s.cfg ((encode s.cfg i).take k ++ (encode s.cfg i).drop k) = .ok i [] := by
    simpa using decodesBack hwf hadm []
  have hcut : CutAtTop ((encode s.cfg i).drop k) s ((encode s.cfg i).take k ++ (encode s.cfg i).drop k) :=
    ⟨_, rfl, hcode, by rw [hfront]; exact hpc, hwrap⟩
  obtain ⟨why, t, herr, hend⟩ := decodeFrom_cutAtTop hcut (by simpa using hlen) hdecode
  have hstart : s.pc ≠ 0xFFFF#16 := by bv_omega
  obtain ⟨rfl, hnone⟩ := decodeFrom_endsAtOperand (fetchNext_some (.inl hstart)) herr hend
  have hkeeps := decodeFrom_keeps_state s s.cfg
  rw [herr] at hkeeps
  obtain ⟨p, rfl⟩ := hkeeps
  obtain ⟨rfl, -⟩ := (fetchNext_none_iff _).1 hnone
  exact step_of_rejected hs herr

end Machine
end Sys2Proof
end

section
/-! PROOFS for 30_encoding.md, fields and lengths. The ModR/M byte's fields as numbers (R81), the number of displacement
bytes they ask for, the length of an instruction (R105), and the operand they select (R82 to R87). -/

namespace Sys2Proof

open Machine Claims

/-! ## The ModR/M byte's fields as numbers (R81) -/

theorem modField_toNat (m : Byte) : (modField m).toNat = m.toNat / 64 := by
  have := m.isLt
  simp [modField, BitVec.extractLsb'_toNat, Nat.shiftRight_eq_div_pow]
  omega

theorem regField_toNat (m : Byte) : (regField m).toNat = m.toNat / 8 % 8 := by
  simp [regField, BitVec.extractLsb'_toNat, Nat.shiftRight_eq_div_pow]

theorem lowField_toNat (m : Byte) : (lowField m).toNat = m.toNat % 8 := by
  simp [lowField, BitVec.extractLsb'_toNat]

/-- A base formula other than BP's has a number other than the direct form's (R85). -/
theorem baseForm_num_toNat_ne_six {ρ : Type} {b : BaseForm} (h : (RM.base b : RM ρ).wf = true) : b.num.toNat ≠ 6 := by
  cases b
  case bp => cases h
  all_goals decide

/-! ## Displacement and instruction length (R86, R105) -/

section
variable {ρ : Type}

theorem dispBytes_length {num : ρ → BitVec 3} {e : RM ρ} (h : e.wf = true) :
    e.dispBytes.length = dispLen e.modBits.toNat (e.rmBits num).toNat := by
  cases e with
  | base b => exact (if_neg (baseForm_num_toNat_ne_six h)).symm
  | reg r | direct a | disp8 b d | disp16 b d => rfl

theorem dispBytes_length_le (e : RM ρ) : e.dispBytes.length ≤ 2 := by
  cases e with
  | base b | reg r => exact Nat.zero_le 2
  | direct a | disp16 b d => exact le_refl 2
  | disp8 b d => exact one_le_two

/-- What the ModR/M decoder read: a byte with the operand's fields, then the operand's displacement. -/
theorem decodeModrm_read_cons {regOf : BitVec 3 → ρ} {num : ρ → BitVec 3} (hn : ∀ n, num (regOf n) = n) {c : Config}
    {op m : Byte} {tail rest : List Byte} {e : RM ρ} {reg : BitVec 3}
    (h : decodeModrm listStream regOf c op (m :: tail) = .ok (e, reg) rest) :
    e.wf = true ∧ e.modBits.toNat = m.toNat / 64 ∧ (e.rmBits num).toNat = m.toNat % 8 ∧
      reg.toNat = m.toNat / 8 % 8 ∧ tail = e.dispBytes ++ rest := by
  obtain ⟨hw, -, hbytes⟩ := decodeModrm_read hn h
  obtain ⟨hm, htail⟩ := List.cons.inj hbytes
  rw [← modField_toNat, ← lowField_toNat, ← regField_toNat, hm]
  simp [hw, htail]

theorem decodeModrm_length {regOf : BitVec 3 → ρ} {num : ρ → BitVec 3} (hn : ∀ n, num (regOf n) = n) {c : Config}
    {op : Byte} {bs rest : List Byte} {e : RM ρ} {reg : BitVec 3}
    (h : decodeModrm listStream regOf c op bs = .ok (e, reg) rest) :
    bs.length = 1 + dispLen ((bs.getD 0 0).toNat / 64) ((bs.getD 0 0).toNat % 8) + rest.length := by
  cases bs with
  | nil => cases h
  | cons m tail =>
    obtain ⟨hw, hmod, hrm, -, htail⟩ := decodeModrm_read_cons hn h
    rw [List.getD_cons_zero, ← hmod, ← hrm, ← dispBytes_length hw, htail, List.length_cons, List.length_append]
    omega

end

theorem dispLen_le (mod rm : Nat) : dispLen mod rm ≤ 2 := by
  unfold dispLen
  split
  · split <;> decide
  all_goals decide

theorem lengthByRule_bounds (op m : Byte) : 1 ≤ lengthByRule op m ∧ lengthByRule op m ≤ 6 := by
  have := dispLen_le (m.toNat / 64) (m.toNat % 8)
  unfold lengthByRule
  rcases mappedCategory op with _ | cat
  · dsimp only; omega
  · cases cat with
    | group => dsimp only; split <;> omega
    | noOperand | special | imm8 | imm16 | modrm8 | modrm16 => dsimp only; omega

/-- A category is the map's own, but for SPECIAL, which the designated halt byte has too (R97, R240). -/
theorem mappedCategory_of_categoryAt {c : Config} {op : Byte} {cat : Category} (h : categoryAt c op = some cat) :
    mappedCategory op = some cat ∨ (mappedCategory op = none ∧ cat = .special) := by
  unfold categoryAt at h
  cases hm : mappedCategory op with
  | some k => rw [hm] at h; exact .inl h
  | none =>
    rw [hm] at h
    obtain ⟨-, hcat⟩ := Option.ite_none_right_eq_some.1 h
    exact .inr ⟨rfl, (Option.some.inj hcat).symm⟩

/-- The immediate of a GROUP byte has the byte's width (R101). -/
theorem fetchGroup_length {c : Config} {op : Byte} {bs : List Byte} {i : Instr}
    (h : fetchGroup listStream c op bs = .ok i []) :
    bs.length = 1 + dispLen ((bs.getD 0 0).toNat / 64) ((bs.getD 0 0).toNat % 8) +
      (if op = 0x80#8 ∨ op = 0xC6#8 then 1 else 2) := by
  unfold fetchGroup groupWidth at h
  by_cases hw : op = 0x80#8 ∨ op = 0xC6#8
  · simp only [if_pos hw] at h ⊢
    obtain ⟨⟨e, sub⟩, u, hmodrm, h⟩ := decoder_bind_ok h
    cases hrow : groupRowAt c op sub with
    | none => simp only [hrow] at h; cases h
    | some r =>
      simp only [hrow] at h
      obtain ⟨v, u', himm, h⟩ := decoder_bind_ok h
      obtain ⟨-, rfl⟩ := orMiscategorized_read h
      rw [decodeModrm_length reg8_num_ofNum hmodrm, operandByte_read himm]
      rfl
  · simp only [if_neg hw] at h ⊢
    obtain ⟨⟨e, sub⟩, u, hmodrm, h⟩ := decoder_bind_ok h
    cases hrow : groupRowAt c op sub with
    | none => simp only [hrow] at h; cases h
    | some r =>
      simp only [hrow] at h
      obtain ⟨v, u', himm, h⟩ := decoder_bind_ok h
      obtain ⟨-, rfl⟩ := orMiscategorized_read h
      rw [decodeModrm_length reg16_num_ofNum hmodrm, operandWord_read himm]
      rfl

/-- Each category's operands are as many bytes as R105 counts behind the opcode. -/
theorem fetchOperands_length {c : Config} {op : Byte} {cat : Category} {row : Row} {bs : List Byte} {i : Instr}
    (hcat : categoryAt c op = some cat) (h : fetchOperands listStream c op cat row bs = .ok i []) :
    bs.length + 1 = lengthByRule op (bs.getD 0 0) := by
  have hmap := mappedCategory_of_categoryAt hcat
  unfold fetchOperands at h
  cases cat with
  | special =>
    obtain ⟨-, rfl⟩ := orMiscategorized_read h
    rcases hmap with hmap | ⟨hmap, -⟩ <;> simp [lengthByRule, hmap]
  | noOperand =>
    obtain ⟨-, rfl⟩ := orMiscategorized_read h
    simp [lengthByRule, hmap.resolve_right (by simp)]
  | imm8 =>
    obtain ⟨v, u, himm, h⟩ := decoder_bind_ok h
    obtain ⟨-, rfl⟩ := orMiscategorized_read h
    simp [lengthByRule, hmap.resolve_right (by simp), operandByte_read himm]
  | imm16 =>
    obtain ⟨v, u, himm, h⟩ := decoder_bind_ok h
    obtain ⟨-, rfl⟩ := orMiscategorized_read h
    simp [lengthByRule, hmap.resolve_right (by simp), operandWord_read himm, wordBytes]
  | modrm8 =>
    obtain ⟨p, u, hmodrm, h⟩ := decoder_bind_ok h
    obtain ⟨-, rfl⟩ := orMiscategorized_read h
    have hlen := decodeModrm_length reg8_num_ofNum hmodrm
    simp only [lengthByRule, hmap.resolve_right (by simp), List.length_nil] at hlen ⊢
    omega
  | modrm16 =>
    obtain ⟨p, u, hmodrm, h⟩ := decoder_bind_ok h
    obtain ⟨-, rfl⟩ := orMiscategorized_read h
    have hlen := decodeModrm_length reg16_num_ofNum hmodrm
    simp only [lengthByRule, hmap.resolve_right (by simp), List.length_nil] at hlen ⊢
    omega
  | group =>
    have hlen := fetchGroup_length h
    simp only [lengthByRule, hmap.resolve_right (by simp)]
    omega

/-- What decoding a list read: an opcode byte, classified by one of its rows, and that row's operands. -/
theorem decode_read {c : Config} {bytes rest : List Byte} {i : Instr} (h : decode c bytes = .ok i rest) :
    ∃ op bs r, bytes = op :: bs ∧ r ∈ rowsAt c op ∧ fetchOperands listStream c op r.category r.row bs = .ok i rest := by
  have h : decodeFrom listStream c bytes = .ok i rest := by
    unfold decode at h
    cases hd : decodeFrom listStream c bytes with
    | ok j u => rw [hd] at h; cases h; rfl
    | error why u => rw [hd] at h; cases h
  cases bytes with
  | nil => cases h
  | cons op bs =>
    obtain ⟨op', u, hop, h⟩ := decoder_bind_ok h
    cases hop
    obtain ⟨⟨cat, row⟩, u, hclass, h⟩ := decoder_bind_ok h
    obtain ⟨rfl, r, hr, rfl, rfl, -⟩ := classify_read hclass
    exact ⟨op, u, r, rfl, hr, h⟩

/-- Settles O9: the row that classified the opcode byte has the map's category, and each category's operands have the
length R105 gives them. -/
theorem encodedLengthByRule : Obligations.EncodedLengthByRule := by
  unfold Obligations.EncodedLengthByRule
  intro c bytes i h
  obtain ⟨op, bs, r, rfl, hr, hfetch⟩ := decode_read h
  have hlen : (op :: bs).length = lengthByRule op (bs.getD 0 0) := fetchOperands_length (categoryAt_of_row hr) hfetch
  exact ⟨hlen, hlen ▸ lengthByRule_bounds op (bs.getD 0 0)⟩

/-! ## The operand a ModR/M byte selects (R84 to R87) -/

/-- R85's formula by number is the base form's sum, but for BP under mod = 00, which R85 makes the direct form. -/
theorem baseSum_eq_byRule (x : Regs) (b : BaseForm) {mod : Nat} (h : mod = 0 → b.num.toNat ≠ 6) :
    BitVec.ofInt 16 (baseByRule x mod b.num.toNat) = baseSum x b := by
  cases b
  case bp =>
    have hmod : mod ≠ 0 := fun h0 => h h0 rfl
    simp [baseByRule, BaseForm.num, baseSum, hmod]
  all_goals simp [baseByRule, BaseForm.num, baseSum, BitVec.ofInt_add]

theorem baseSum_add_eq_byRule (x : Regs) (b : BaseForm) {mod : Nat} (h : mod = 0 → b.num.toNat ≠ 6) (disp : Int) :
    BitVec.ofInt 16 (baseByRule x mod b.num.toNat + disp) = baseSum x b + BitVec.ofInt 16 disp := by
  rw [BitVec.ofInt_add, baseSum_eq_byRule x b h]

/-- A displacement word, low byte first, as R86's number (R57). -/
theorem word_eq_byRule (w : Word) : BitVec.ofInt 16 ((lowByte w).toNat + 256 * (highByte w).toNat) = w := by
  rw [lowByte_toNat, highByte_toNat]
  have : ((w.toNat % 256 : Nat) : Int) + 256 * ((w.toNat / 256 : Nat) : Int) = (w.toNat : Int) := by omega
  rw [this]
  simp

theorem sextByte_eq_ofInt (d : Byte) : BitVec.ofInt 16 d.toInt = sextByte d := rfl

/-- A well-formed operand resolves to what R84 to R87 compute from its fields' numbers and its displacement bytes. -/
theorem resolve_eq_byRule {ρ : Type} {regOf : BitVec 3 → ρ} {num : ρ → BitVec 3} (hn : ∀ r, regOf (num r) = r)
    (mk : ρ → Desc) (x : Regs) {e : RM ρ} (h : e.wf = true) (rest : List Byte) :
    resolve mk x e =
      if e.modBits.toNat = 3 then mk (regOf (BitVec.ofNat 3 (e.rmBits num).toNat))
      else .mem (BitVec.ofInt 16 (baseByRule x e.modBits.toNat (e.rmBits num).toNat +
        dispByRule e.modBits.toNat (e.rmBits num).toNat (e.dispBytes ++ rest))) := by
  cases e with
  | reg r => simp [resolve, RM.modBits, RM.rmBits, hn]
  | base b =>
    have hb := baseForm_num_toNat_ne_six h
    simp [resolve, RM.modBits, RM.rmBits, dispByRule, hb, baseSum_eq_byRule x b fun _ => hb]
  | direct a =>
    simp [resolve, RM.modBits, RM.rmBits, RM.dispBytes, wordBytes, dispByRule, baseByRule, word_eq_byRule]
  | disp8 b d =>
    simp [resolve, RM.modBits, RM.rmBits, RM.dispBytes, dispByRule, sextByte_eq_ofInt,
      baseSum_add_eq_byRule x b (mod := 1) nofun]
  | disp16 b d =>
    simp [resolve, RM.modBits, RM.rmBits, RM.dispBytes, wordBytes, dispByRule, word_eq_byRule,
      baseSum_add_eq_byRule x b (mod := 2) nofun]

/-- Settles O10: the byte read has the operand's fields and the bytes behind it are the operand's displacement, at
either register naming. -/
theorem modrmResolvesByRule : Obligations.ModrmResolvesByRule := by
  unfold Obligations.ModrmResolvesByRule
  intro c op m tail rest x reg
  refine ⟨fun e h => ?_, fun e h => ?_⟩
  · obtain ⟨hw, hmod, hrm, hreg, htail⟩ := decodeModrm_read_cons reg16_num_ofNum h
    rw [← hmod, ← hrm, htail]
    exact ⟨hreg, resolve_eq_byRule reg16_ofNum_num .reg16 x hw rest⟩
  · obtain ⟨hw, hmod, hrm, hreg, htail⟩ := decodeModrm_read_cons reg8_num_ofNum h
    rw [← hmod, ← hrm, htail]
    exact ⟨hreg, resolve_eq_byRule reg8_ofNum_num .reg8 x hw rest⟩

end Sys2Proof
end

section
/-! PROOFS for 30_encoding.md, the ModR/M decoder's cursor. On the machine's code stream it moves the cursor past the
bytes it read and changes nothing else (R89). -/

namespace Sys2Proof.Machine

/-- The state with the cursor `k` bytes on. -/
def advance (s : State) (k : Nat) : State := withPc s (s.pc + BitVec.ofNat 16 k)

theorem advance_zero (s : State) : advance s 0 = s := by
  simp [advance, withPc]

theorem fetchNext_advance (s : State) (k : Nat) :
    fetchNext (advance s k) = none ∨ ∃ b, fetchNext (advance s k) = some (b, advance s (k + 1)) := by
  have hnext : withPc (advance s k) ((advance s k).pc + 1) = advance s (k + 1) := by
    simp only [advance, withPc, BitVec.ofNat_add, BitVec.add_assoc]
    rfl
  by_cases h : (advance s k).pc ≠ 0xFFFF#16 ∨ (advance s k).cfg.topWrap = true
  · exact .inr ⟨_, by rw [fetchNext_some h, hnext]⟩
  · rw [not_or, not_not, Bool.not_eq_true] at h
    exact .inl (fetchNext_none h.1 h.2)

/-- Started `start` bytes past a state, the decoder answers `a` with the cursor `stop a` bytes past that state, or
rejects with it at most `bound` bytes past; nothing else changes. -/
def MovesCursor {α : Type} (start : Nat) (stop : α → Nat) (bound : Nat) (x : Decoder State α) : Prop :=
  ∀ s, match x (advance s start) with
    | .ok a t => t = advance s (stop a)
    | .error _ t => ∃ k, k ≤ bound ∧ t = advance s k

section
variable {α β ρ : Type} {start bound : Nat}

theorem MovesCursor.pure {stop : α → Nat} {a : α} (h : stop a = start) : MovesCursor start stop bound (pure a) :=
  fun s => by rw [← h]; rfl

theorem MovesCursor.throw {stop : α → Nat} (why : Reject) (h : start ≤ bound) :
    MovesCursor start stop bound (throw why) :=
  fun _ => ⟨start, h, rfl⟩

theorem MovesCursor.bind {middle : α → Nat} {stop : β → Nat} {x : Decoder State α} {f : α → Decoder State β}
    (hx : MovesCursor start middle bound x) (hf : ∀ a, MovesCursor (middle a) stop bound (f a)) :
    MovesCursor start stop bound (x >>= f) := by
  intro s
  have hxs := hx s
  rw [bind_apply]
  cases h : x (advance s start) with
  | error why t => rw [h] at hxs; exact hxs
  | ok a t =>
    rw [h] at hxs
    subst hxs
    exact hf a s

theorem operandByte_movesCursor (h : start ≤ bound) :
    MovesCursor start (fun _ => start + 1) bound (operandByte fetchNext) := by
  intro s
  unfold operandByte takeByte
  rcases fetchNext_advance s start with hn | ⟨b, hn⟩ <;> rw [hn]
  exact ⟨start, h, rfl⟩

theorem operandWord_movesCursor (h : start + 1 ≤ bound) :
    MovesCursor start (fun _ => start + 2) bound (operandWord fetchNext) :=
  (operandByte_movesCursor (by omega)).bind fun _ => (operandByte_movesCursor h).bind fun _ => .pure rfl

theorem effectiveOperand_movesCursor (regOf : BitVec 3 → ρ) (mod : BitVec 2) (rm : BitVec 3) (h : start + 1 ≤ bound) :
    MovesCursor start (fun e => start + e.dispBytes.length) bound (effectiveOperand fetchNext regOf mod rm) := by
  unfold effectiveOperand
  split
  · split
    · exact (operandWord_movesCursor h).bind fun _ => .pure rfl
    · exact .pure rfl
  · exact (operandByte_movesCursor (by omega)).bind fun _ => .pure rfl
  · exact (operandWord_movesCursor h).bind fun _ => .pure rfl
  · exact .pure rfl

theorem decodeModrm_movesCursor (regOf : BitVec 3 → ρ) (c : Config) (op : Byte) :
    MovesCursor 0 (fun p => 1 + p.1.dispBytes.length) 2 (decodeModrm fetchNext regOf c op) := by
  refine (operandByte_movesCursor (by decide)).bind fun m => ?_
  split
  · exact (effectiveOperand_movesCursor regOf _ _ (by decide)).bind fun e => .pure rfl
  · exact .throw _ (by decide)

end

/-- Settles O11: the bytes fetched are the ModR/M byte and the answered operand's displacement; a rejection leaves the
last byte it wanted unfetched. -/
theorem modrmDecoderMovesOnlyCursor : Obligations.ModrmDecoderMovesOnlyCursor := by
  unfold Obligations.ModrmDecoderMovesOnlyCursor
  intro s c op ρ regOf
  have h := decodeModrm_movesCursor regOf c op s
  rw [advance_zero] at h
  cases hx : decodeModrm fetchNext regOf c op s with
  | ok p t => rw [hx] at h; exact ⟨dispBytes_length_le p.1, h⟩
  | error why t => rw [hx] at h; exact h

end Sys2Proof.Machine
end

section
/-! PROOFS for 30_encoding.md, classification and rejection. The tables agree (R97, R112), so an implemented opcode byte
is classified as the map says, and what stops the run is the first thing the bytes lack (R88, R98, R101). -/

namespace Sys2Proof

open Machine Claims

/-! ## The map and the rows (R97) -/

theorem mappedCategory_eq_none_iff (op : Byte) : mappedCategory op = none ↔ fixedRowsAt op = [] :=
  ⟨Laws.Opcode.fixedRowsAt_of_unmapped op, mappedCategory_of_no_fixedRow op⟩

/-- A byte has a category exactly if it has a row, wherever `HALT_OPCODE` is. -/
theorem rowsAt_eq_nil_iff (c : Config) (op : Byte) : rowsAt c op = [] ↔ categoryAt c op = none := by
  unfold rowsAt categoryAt
  cases hf : fixedRowsAt op with
  | nil => simp [(mappedCategory_eq_none_iff op).2 hf]
  | cons r rs => simp [mappedCategory_of_fixedRow op r (by simp [hf])]

theorem fixedRows_subs_differ : ∀ op : Byte, (fixedRowsAt op).Pairwise fun r q => r.sub ≠ q.sub := by
  decide +kernel

/-- The number of bytes of each category in R97's map, `HALT_OPCODE` at its default. -/
theorem category_counts :
    bytesOf (some .noOperand) = 41 ∧ bytesOf (some .imm8) = 22 ∧ bytesOf (some .imm16) = 13 ∧
      bytesOf (some .modrm8) = 9 ∧ bytesOf (some .modrm16) = 9 ∧ bytesOf (some .group) = 4 ∧
      bytesOf (some .special) = 1 ∧ bytesOf none = 157 := by
  decide +kernel

/-- Settles O6: the map and the row table are finite, and agree byte for byte. -/
theorem categoryMapMatchesRows : Obligations.CategoryMapMatchesRows := by
  unfold Obligations.CategoryMapMatchesRows
  exact ⟨category_counts, mappedCategory_eq_none_iff, mappedCategory_of_fixedRow, fixedRows_subs_differ⟩

/-! ## Classifying an opcode byte (R95, R98) -/

/-- An implemented byte of the map is classified as the map says. -/
theorem classify_implemented {σ : Type} {c : Config} {op : Byte} {cat : Category} (hi : implemented c op = true)
    (hcat : mappedCategory op = some cat) (s : σ) : ∃ row, classify c op s = .ok (cat, row) s := by
  obtain ⟨r, hr, himp⟩ := List.any_eq_true.1 hi
  have hk : categoryAt c op = some cat := Laws.Opcode.categoryAt_of_mapped hcat
  have hrk : r.category = cat := Option.some.inj ((categoryAt_of_row hr).symm.trans hk)
  have hfound : (handlerAt c cat op).isSome = true := List.find?_isSome.2 ⟨r, hr, by simp [hrk, himp]⟩
  obtain ⟨q, hq⟩ := Option.isSome_iff_exists.1 hfound
  exact ⟨q.row, by simp [classify, hi, hk, hq]⟩

theorem classify_unimplemented {σ : Type} {c : Config} {op : Byte} (h : ∀ r ∈ rowsAt c op, r.row ∈ c.rowsExcluded)
    (s : σ) : classify c op s = .error (.unknownOpcode op) s := by
  have hi : ¬ implemented c op = true := by simpa [implemented, Config.implements] using h
  simp [classify, hi]

theorem decode_rejected {c : Config} {bytes rest : List Byte} {why : Reject}
    (h : decodeFrom listStream c bytes = .error why rest) : decode c bytes = .rejected why rest := by
  simp only [decode, h]

/-- Settles O48: the opcode byte is fetched and classification rejects it. -/
theorem unknownOpcodeStops : Obligations.UnknownOpcodeStops := by
  unfold Obligations.UnknownOpcodeStops
  refine ⟨fun s hs hpc hrows => ?_, rowsAt_eq_nil_iff Config.standard⟩
  have hdecode : decodeFrom fetchNext s.cfg s = .error (.unknownOpcode (s.byteAt s.pc)) (withPc s (s.pc + 1)) := by
    simp only [decodeFrom, bind_apply, takeByte, fetchNext_some hpc, classify_unimplemented hrows]
  exact step_of_rejected hs hdecode

/-! ## A mod/rm pair that is not supported (R88) -/

theorem decodeModrm_unsupported {ρ : Type} (regOf : BitVec 3 → ρ) {c : Config} {m : Byte} (op : Byte)
    (h : (modField m, lowField m) ∈ c.modrmExcluded) (bs : List Byte) :
    decodeModrm listStream regOf c op (m :: bs) = .error (.addressingMode op m) bs := by
  simp [decodeModrm, operandByte_cons, Config.modrmSupported, h]

theorem fetchGroup_unsupported {c : Config} {m : Byte} (op : Byte) (h : (modField m, lowField m) ∈ c.modrmExcluded)
    (bs : List Byte) : fetchGroup listStream c op (m :: bs) = .error (.addressingMode op m) bs := by
  unfold fetchGroup
  cases groupWidth op <;> simp only [bind_apply, decodeModrm_unsupported _ op h]

/-- Every category that has a ModR/M byte decodes it first. -/
theorem fetchOperands_unsupported {c : Config} {m : Byte} {cat : Category} (op : Byte) (row : Row)
    (hcat : cat = .modrm8 ∨ cat = .modrm16 ∨ cat = .group) (h : (modField m, lowField m) ∈ c.modrmExcluded)
    (bs : List Byte) : fetchOperands listStream c op cat row (m :: bs) = .error (.addressingMode op m) bs := by
  rcases hcat with rfl | rfl | rfl
  · simp only [fetchOperands, bind_apply, decodeModrm_unsupported _ op h]
  · simp only [fetchOperands, bind_apply, decodeModrm_unsupported _ op h]
  · exact fetchGroup_unsupported op h bs

theorem decode_unsupported {c : Config} {op m : Byte} {cat : Category} (hi : implemented c op = true)
    (hmap : mappedCategory op = some cat) (hcat : cat = .modrm8 ∨ cat = .modrm16 ∨ cat = .group)
    (h : (modField m, lowField m) ∈ c.modrmExcluded) : decode c [op, m] = .rejected (.addressingMode op m) [] := by
  obtain ⟨row, hclass⟩ := classify_implemented hi hmap [m]
  exact decode_rejected ((decodeFrom_classified hclass).trans (fetchOperands_unsupported op row hcat h []))

/-- Settles O50: the opcode byte is classified as one with a ModR/M byte, and the ModR/M decoder rejects that byte. -/
theorem unsupportedModrmStops : Obligations.UnsupportedModrmStops := by
  unfold Obligations.UnsupportedModrmStops
  intro s op m hs hi hmap hm hc
  obtain ⟨cat, hcat, hmap⟩ : ∃ cat, (cat = .modrm8 ∨ cat = .modrm16 ∨ cat = .group) ∧ mappedCategory op = some cat := by
    rcases hmap with h | h | h
    exacts [⟨_, .inl rfl, h⟩, ⟨_, .inr (.inl rfl), h⟩, ⟨_, .inr (.inr rfl), h⟩]
  exact step_rejected hs hc (decode_unsupported hi hmap hcat hm) rfl

/-! ## A GROUP byte whose sub-selector names no implemented row (R101) -/

theorem row_of_groupTable :
    ∀ p ∈ groupTable, mappedCategory p.1 = some .group ∧ ∃ r ∈ fixedRowsAt p.1, r.row = p.2.2 := by
  decide

theorem mem_groupTable_of_sub :
    ∀ op : Byte, ∀ r ∈ fixedRowsAt op, ∀ sub, r.sub = some sub → (op, sub, r.row) ∈ groupTable := by
  decide +kernel

theorem implemented_of_groupTable {c : Config} {p : Byte × BitVec 3 × Row} (hp : p ∈ groupTable)
    (h : p.2.2 ∉ c.rowsExcluded) : implemented c p.1 = true := by
  obtain ⟨-, r, hr, hrow⟩ := row_of_groupTable p hp
  exact List.any_eq_true.2 ⟨r, Laws.Opcode.rowsAt_of_fixed hr, by simp [Config.implements, hrow, h]⟩

/-- R101's table holds every row a sub-selector can name. -/
theorem groupRowAt_eq_none {c : Config} {op : Byte} {sub : BitVec 3}
    (h : ∀ p ∈ groupTable, p.1 = op → p.2.1 = sub → p.2.2 ∈ c.rowsExcluded) : groupRowAt c op sub = none := by
  refine List.find?_eq_none.2 fun r hr => ?_
  rcases mem_rowsAt hr with hr | ⟨-, -, rfl⟩
  · by_cases hsub : r.sub = some sub
    · simp [Config.implements, h _ (mem_groupTable_of_sub op r hr sub hsub) rfl rfl]
    · simp [hsub]
  · simp

theorem effectiveOperand_of_length {ρ : Type} (regOf : BitVec 3 → ρ) {mod : BitVec 2} {rm : BitVec 3}
    {disp : List Byte} (h : disp.length = dispLen mod.toNat rm.toNat) :
    ∃ e, effectiveOperand listStream regOf mod rm disp = .ok e [] := by
  have hmod : mod = 0 ∨ mod = 1 ∨ mod = 2 ∨ mod = 3 := by clear h; revert mod; decide
  rcases hmod with rfl | rfl | rfl | rfl
  · by_cases hrm : rm = 0b110#3
    · subst hrm
      obtain ⟨lo, hi, rfl⟩ := List.length_eq_two.1 h
      exact ⟨.direct (joinBytes hi lo), rfl⟩
    · have hnum : rm.toNat ≠ 6 := fun h6 => hrm (BitVec.eq_of_toNat_eq h6)
      obtain rfl := List.eq_nil_of_length_eq_zero (h.trans (if_neg hnum))
      exact ⟨.base (.ofNum rm), by simp [effectiveOperand, hrm]⟩
  · obtain ⟨d, rfl⟩ := List.length_eq_one_iff.1 h
    exact ⟨.disp8 (.ofNum rm) d, rfl⟩
  · obtain ⟨lo, hi, rfl⟩ := List.length_eq_two.1 h
    exact ⟨.disp16 (.ofNum rm) (joinBytes hi lo), rfl⟩
  · obtain rfl := List.eq_nil_of_length_eq_zero h
    exact ⟨.reg (regOf rm), rfl⟩

/-- A supported ModR/M byte with its displacement behind it is read whole. -/
theorem decodeModrm_of_length {ρ : Type} (regOf : BitVec 3 → ρ) {c : Config} {m : Byte} {disp : List Byte} (op : Byte)
    (hm : c.modrmSupported (modField m) (lowField m) = true)
    (h : disp.length = dispLen (m.toNat / 64) (m.toNat % 8)) :
    ∃ e, decodeModrm listStream regOf c op (m :: disp) = .ok (e, regField m) [] := by
  rw [← modField_toNat, ← lowField_toNat] at h
  obtain ⟨e, he⟩ := effectiveOperand_of_length regOf h
  exact ⟨e, by simp [decodeModrm, operandByte_cons, hm, he]⟩

/-- The sub-selector is checked before the immediate is fetched (D12). -/
theorem fetchGroup_subop {c : Config} {op m : Byte} {disp : List Byte} (hrow : groupRowAt c op (regField m) = none)
    (hm : c.modrmSupported (modField m) (lowField m) = true)
    (h : disp.length = dispLen (m.toNat / 64) (m.toNat % 8)) :
    fetchGroup listStream c op (m :: disp) = .error (.groupSubop op (regField m)) [] := by
  unfold fetchGroup
  cases groupWidth op with
  | w8 =>
    obtain ⟨e, he⟩ := decodeModrm_of_length Reg8.ofNum op hm h
    simp [he, hrow]
  | w16 =>
    obtain ⟨e, he⟩ := decodeModrm_of_length Reg16.ofNum op hm h
    simp [he, hrow]

/-- Settles O49: the byte is classified as GROUP by its implemented row, its ModR/M and displacement are read, and no
row answers to the sub-selector. -/
theorem groupSubopStops : Obligations.GroupSubopStops := by
  unfold Obligations.GroupSubopStops
  rintro s op m disp hs ⟨p, hp, rfl, himp⟩ hsub hm hlen hc
  obtain ⟨hmap, -⟩ := row_of_groupTable p hp
  obtain ⟨row, hclass⟩ := classify_implemented (implemented_of_groupTable hp himp) hmap (m :: disp)
  have hfetch := fetchGroup_subop (groupRowAt_eq_none hsub) hm hlen
  have hstep := step_rejected hs hc (decode_rejected ((decodeFrom_classified hclass).trans hfetch)) rfl
  have hconsumed : (p.1 :: m :: disp).length - ([] : List Byte).length = 2 + disp.length := by
    simp only [List.length_cons, List.length_nil]; omega
  rw [hconsumed] at hstep
  exact hstep

/-! ## The step of a decoded instruction (R95, R96, R104) -/

/-- Settles O54: execution always answers a next state, and the step ends its execute phase. -/
theorem stepRunsDecodedInstruction : Obligations.StepRunsDecodedInstruction := by
  unfold Obligations.StepRunsDecodedInstruction
  intro s bytes i hs hd hc
  obtain ⟨t, ht, -⟩ := exec_answers i (beginExecute (withPc s (s.pc + BitVec.ofNat 16 bytes.length)))
  refine ⟨t, ht, ?_⟩
  rw [step_decoded hs hd hc, ht, ← endExecute_eq]
  rfl

end Sys2Proof
end

section
/-! PROOFS for 40_alu.md, the arithmetic primitives. Add_N and Sub_N are the sum and the difference modulo 2^N (R131,
R134), and their overflow is the signed one of bit vectors (R133, R136, R144). All of it holds at every width. -/

namespace Sys2Proof.Machine

section
variable {n : Nat} (a b : BitVec n)

/-! ## Result -/

theorem addN_r : (addN a b).r = a + b := (BitVec.add_def a b).symm

theorem subN_r : (subN a b).r = a - b := by
  rw [BitVec.sub_def, ← Nat.sub_add_comm (Nat.le_of_lt b.isLt), Nat.add_comm (2 ^ n)]
  rfl

theorem addN_r_toNat : (addN a b).r.toNat = (a.toNat + b.toNat) % 2 ^ n := BitVec.toNat_ofNat _ _

theorem subN_r_toNat : (subN a b).r.toNat = (a.toNat + 2 ^ n - b.toNat) % 2 ^ n := BitVec.toNat_ofNat _ _

/-! ## Carry -/

theorem addN_c_iff : (addN a b).flags.c = true ↔ 2 ^ n ≤ a.toNat + b.toNat := decide_eq_true_iff

theorem subN_c_iff : (subN a b).flags.c = true ↔ a.toNat < b.toNat := decide_eq_true_iff

/-- The wrapped sum is below the left operand exactly where it lost 2^N. -/
theorem addN_r_lt_iff : (addN a b).r.toNat < a.toNat ↔ 2 ^ n ≤ a.toNat + b.toNat := by
  have ha := a.isLt
  have hb := b.isLt
  rw [addN_r_toNat]
  by_cases h : 2 ^ n ≤ a.toNat + b.toNat
  · rw [Nat.mod_eq_sub_mod h, Nat.mod_eq_of_lt (by omega)]
    omega
  · rw [Nat.mod_eq_of_lt (by omega)]
    omega

/-! ## Overflow -/

theorem addN_o : (addN a b).flags.o = a.saddOverflow b := by
  rw [BitVec.saddOverflow_eq, ← addN_r]
  simp [addN, aluResult, beq_eq_decide]

theorem subN_o : (subN a b).flags.o = a.ssubOverflow b := by
  rw [BitVec.ssubOverflow_eq, ← subN_r]
  rfl

theorem msb_eq_true_iff : a.msb = true ↔ 2 ^ (n - 1) ≤ a.toNat := by
  rw [BitVec.msb_eq_decide, decide_eq_true_iff]

theorem msb_eq_false_iff : a.msb = false ↔ a.toNat < 2 ^ (n - 1) := by
  rw [BitVec.msb_eq_decide, decide_eq_false_iff_not, Nat.not_le]

/-- R133 in the operands' and the result's signs. -/
theorem addN_o_iff : (addN a b).flags.o = true ↔ a.msb = b.msb ∧ (addN a b).r.msb ≠ a.msb := by
  rw [addN_o, BitVec.saddOverflow_eq, ← addN_r]
  simp

/-- R136 in the operands' and the result's signs. -/
theorem subN_o_iff : (subN a b).flags.o = true ↔
    (a.msb = false ∧ b.msb = true ∧ (subN a b).r.msb = true) ∨
      (a.msb = true ∧ b.msb = false ∧ (subN a b).r.msb = false) := by
  rw [subN_o, BitVec.ssubOverflow_eq, ← subN_r]
  simp [and_assoc]

theorem saddOverflow_iff : a.saddOverflow b = true ↔
    a.toInt + b.toInt < -(2 ^ (n - 1)) ∨ 2 ^ (n - 1) ≤ a.toInt + b.toInt := by
  simp [BitVec.saddOverflow, or_comm]

theorem ssubOverflow_iff : a.ssubOverflow b = true ↔
    a.toInt - b.toInt < -(2 ^ (n - 1)) ∨ 2 ^ (n - 1) ≤ a.toInt - b.toInt := by
  simp [BitVec.ssubOverflow, or_comm]

/-! ## Sign and zero -/

theorem alu_s (kind : AluKind) : (alu kind a b).flags.s = (alu kind a b).r.msb := by
  cases kind <;> rfl

theorem alu_z (kind : AluKind) : (alu kind a b).flags.z = decide ((alu kind a b).r.toNat = 0) := by
  cases kind <;> rfl

end

/-- Settles O23: the carry is a lost 2^N or a borrow, and the primitives' overflow is that of signed bit vectors. -/
theorem carryAndOverflowCharacterised : Obligations.CarryAndOverflowCharacterised := by
  unfold Obligations.CarryAndOverflowCharacterised
  intro w a b
  refine ⟨(addN_c_iff a b).trans (addN_r_lt_iff a b).symm, subN_c_iff a b, ?_, ?_⟩
  · rw [addN_o]; exact saddOverflow_iff a b
  · rw [subN_o]; exact ssubOverflow_iff a b

/-- Settles O20: overflow is read off the signs, a sign being a comparison with half the range. -/
theorem additionResultAndFlags : Obligations.AdditionResultAndFlags := by
  unfold Obligations.AdditionResultAndFlags
  intro w a b
  refine ⟨addN_r_toNat a b, addN_c_iff a b, (addN_o_iff a b).trans ?_⟩
  simp only [← msb_eq_true_iff, Bool.coe_iff_coe, ne_eq]

/-- Settles O21: overflow is read off the signs, a sign being a comparison with half the range. -/
theorem subtractionResultAndFlags : Obligations.SubtractionResultAndFlags := by
  unfold Obligations.SubtractionResultAndFlags
  intro w a b
  refine ⟨subN_r_toNat a b, (subN_o_iff a b).trans ?_⟩
  simp only [msb_eq_true_iff, msb_eq_false_iff]

/-- Settles O22: both flags are read off the result. -/
theorem signAndZeroOfResult : Obligations.SignAndZeroOfResult := by
  unfold Obligations.SignAndZeroOfResult
  intro kind w a b
  refine ⟨?_, ?_⟩
  · rw [alu_s, msb_eq_true_iff]
  · rw [alu_z, decide_eq_true_iff]
    exact BitVec.toNat_inj (y := 0)

end Sys2Proof.Machine
end

section
/-! PROOFS for 40_alu.md, committing flags (R141, R142). Only the arithmetic family's operation writes the flags, and a
step that stops has not come to that write. -/

namespace Sys2Proof.Machine

/-- The operation leaves all four flags as they were, whether it completes or raises a fatal outcome. -/
def KeepsFlags {α : Type} (op : Op α) : Prop :=
  ∀ s, match op s with
    | .ok _ t => t.flags = s.flags
    | .error _ t => t.flags = s.flags

/-! ## The operations without an ALU step -/

theorem keepsFlags_bind {α β : Type} {x : Op α} {f : α → Op β} (hx : KeepsFlags x)
    (hf : ∀ a, KeepsFlags (f a)) : KeepsFlags (x >>= f) := by
  intro s
  have hxs := hx s
  rw [bind_apply]
  cases h : x s with
  | error why t => rw [h] at hxs; exact hxs
  | ok a t =>
    rw [h] at hxs
    have hft := hf a t
    cases h' : f a t with
    | ok b u => simp only [h'] at hft ⊢; exact hft.trans hxs
    | error why u => simp only [h'] at hft ⊢; exact hft.trans hxs

theorem keepsFlags_readOperand (w : Width) (d : Desc) : KeepsFlags (readOperand w d) := by
  intro s
  cases w <;> cases d
  case w16.mem a =>
    by_cases h : s.accessible .w16 (.mem a)
    · rw [readOperand_ok (d := .mem a) trivial h]
    · rw [readOperand_fault h]
  all_goals rfl

theorem keepsFlags_writeOperand (w : Width) (d : Desc) (v : BitVec w.bits) : KeepsFlags (writeOperand w d v) := by
  intro s
  cases w <;> cases d
  case w16.mem a =>
    by_cases h : s.accessible .w16 (.mem a)
    · rw [writeOperand_ok (d := .mem a) trivial trivial h]; exact putAt_flags s .w16 _ v
    · rw [writeOperand_fault h]
  all_goals rfl

theorem keepsFlags_moveOp (w : Width) (dst src : Desc) : KeepsFlags (moveOp w dst src) :=
  keepsFlags_bind (keepsFlags_readOperand w src) fun v => keepsFlags_writeOperand w dst v

theorem keepsFlags_exchangeOp (w : Width) (x y : Desc) : KeepsFlags (exchangeOp w x y) :=
  keepsFlags_bind (keepsFlags_readOperand w x) fun t1 =>
    keepsFlags_bind (keepsFlags_readOperand w y) fun t2 =>
      keepsFlags_bind (keepsFlags_writeOperand w x t2) fun _ => keepsFlags_writeOperand w y t1

theorem keepsFlags_push (v : Word) : KeepsFlags (push v) := by
  intro s
  by_cases h : s.accessible .w16 (.mem (s.regs.sp - 2))
  · rw [push_ok v h]; exact putAt_flags (withSp s _) .w16 _ v
  · rw [push_fault v h]; exact withSp_flags s _

theorem keepsFlags_pop : KeepsFlags pop := by
  intro s
  by_cases h : s.accessible .w16 (.mem s.regs.sp)
  · rw [pop_ok h]; exact withSp_flags s _
  · rw [pop_fault h]

theorem keepsFlags_writeReg16 (r : Reg16) (v : Word) : KeepsFlags (writeReg16 r v) := fun _ => rfl

theorem keepsFlags_writePc (target : Word) : KeepsFlags (writePc target) := fun _ => rfl

theorem keepsFlags_popOp (r : Reg16) : KeepsFlags (popOp r) :=
  keepsFlags_bind keepsFlags_pop (keepsFlags_writeReg16 r)

theorem keepsFlags_jumpBy (d : Word) : KeepsFlags (jumpBy d) := fun _ => rfl

/-- A conditional jump reads the flags and leaves them. -/
theorem keepsFlags_jumpIf (cond : Flags → Bool) (d : Byte) : KeepsFlags (jumpIf cond d) :=
  keepsFlags_bind (x := readFlags) (fun _ => rfl) fun f => by
    by_cases h : cond f = true
    · rw [if_pos h]; exact keepsFlags_jumpBy _
    · rw [if_neg h]; exact fun _ => rfl

theorem keepsFlags_callOp (d : Word) : KeepsFlags (callOp d) :=
  keepsFlags_bind (x := readPc) (fun _ => rfl) fun ret =>
    keepsFlags_bind (keepsFlags_push ret) fun _ => keepsFlags_writePc _

theorem keepsFlags_retOp : KeepsFlags retOp := keepsFlags_bind keepsFlags_pop keepsFlags_writePc

theorem keepsFlags_haltOp : KeepsFlags haltOp := fun _ => rfl

/-! ## Execution and the step -/

/-- Executing an instruction other than ADD, SUB, CMP, INC and DEC performs an operation that keeps the flags. -/
theorem exec_performs_keepsFlags {i : Instr} (s : State) (h : Claims.writesFlags i = false) :
    ∃ op, KeepsFlags op ∧ exec i s = perform op s := by
  cases i <;> unfold exec
  case movEbGb | movEvGv | movGbEb | movGvEv | movR8Ib | movR16Iv | movEbIb | movEvIv =>
    exact ⟨_, keepsFlags_moveOp _ _ _, rfl⟩
  case xchgEbGb | xchgEvGv | xchgAxR16 => exact ⟨_, keepsFlags_exchangeOp _ _ _, rfl⟩
  case pushR16 => exact ⟨_, keepsFlags_push _, rfl⟩
  case popR16 => exact ⟨_, keepsFlags_popOp _, rfl⟩
  case jmpRel8 | jmpRel16 => exact ⟨_, keepsFlags_jumpBy _, rfl⟩
  case joRel8 | jnoRel8 | jbRel8 | jnbRel8 | jzRel8 | jnzRel8 | jbeRel8 | jaRel8 | jsRel8 | jnsRel8 =>
    exact ⟨_, keepsFlags_jumpIf _ _, rfl⟩
  case callRel16 => exact ⟨_, keepsFlags_callOp _, rfl⟩
  case ret => exact ⟨_, keepsFlags_retOp, rfl⟩
  case nop => exact ⟨pure (), fun _ => rfl, rfl⟩
  case hlt => exact ⟨_, keepsFlags_haltOp, rfl⟩
  -- the arithmetic family, whose instructions all write the flags
  all_goals cases h

/-- Raising the fatal outcome of an operation keeps the flags too. -/
theorem perform_keeps_flags {op : Op Unit} (hop : KeepsFlags op) {s t : State} (h : perform op s = .next t) :
    t.flags = s.flags := by
  have hs := hop s
  cases hx : op s with
  | ok _ u =>
    rw [hx] at hs
    rw [perform_ok hx] at h
    cases h
    exact hs
  | error why u =>
    rw [hx] at hs
    rw [perform_error hx] at h
    cases h
    exact hs

/-- An execution that stops a running machine has written no flag. -/
theorem flags_of_execResult_stopped {s u : State} {target : Word} {why : Fatal} (h : ExecResult s target u)
    (hs : s.status = .running) (hu : u.status = .stopped why) : u.flags = s.flags := by
  cases h with
  | completed status _ _ => rw [status, hs] at hu; cases hu
  | beyondTop | pushBeyondTop | halted => rfl

/-- A step that stops was rejected by the decoder, which moves the cursor only, or stopped while executing. -/
theorem step_stopped_keeps_flags {s t : State} {why : Fatal} (h : step s = .next t) (ht : t.status = .stopped why) :
    t.flags = s.flags := by
  obtain ⟨hs, ⟨why, p, -, rfl⟩ | ⟨i, p, u, -, hx, rfl⟩⟩ := step_next h
  · rfl
  · obtain ⟨u', hu', hres⟩ := exec_answers i (beginExecute (withPc s p))
    cases hx.symm.trans hu'
    rw [endExecute_status] at ht
    rw [endExecute_flags]
    exact flags_of_execResult_stopped (s := beginExecute (withPc s p)) hres hs ht

/-- Settles O52: outside the arithmetic family no operation writes the flags, and no stop comes after a flag write. -/
theorem flagsChangeOnlyByArithmetic : Obligations.FlagsChangeOnlyByArithmetic := by
  unfold Obligations.FlagsChangeOnlyByArithmetic
  refine ⟨fun i s t hi h => ?_, fun s t why h ht => step_stopped_keeps_flags h ht⟩
  obtain ⟨op, hop, hx⟩ := exec_performs_keepsFlags s hi
  exact perform_keeps_flags hop (hx ▸ h)

end Sys2Proof.Machine
end

section
/-! PROOFS for 41_move.md. Every MOV is the move operation on two operands of its width, the destination not an
immediate. Where both can be accessed it stores the source's value and nothing else (R150); elsewhere it stops. -/

namespace Sys2Proof.Machine

open Sys2Proof.Claims

/-- The destination written with the source's value is what a move completes in. -/
theorem moveEffect_of_accessible {i : Instr} {w : Width} {dst src : Desc} {s : State}
    (hx : exec i s = perform (moveOp w dst src) s) (hdst : dst.hasWidth w) (hsrc : src.hasWidth w)
    (hwrite : dst.writable) (hsrcAcc : s.accessible w src) (hdstAcc : s.accessible w dst) :
    MoveEffect i w dst src s :=
  ⟨putAt s w dst (s.valueAt w src), hx.trans (moveOp_ok hdst hsrc hwrite hsrcAcc hdstAcc),
    putAt_sameControl s w dst _, putAt_flags s w dst _, valueAt_putAt hdst hwrite _, putAt_only s w dst _⟩

/-- A byte can be accessed at every address, so a byte move completes in every state. -/
theorem moveEffect_byte {i : Instr} {dst src : Desc} {s : State} (hx : exec i s = perform (moveOp .w8 dst src) s)
    (hdst : dst.hasWidth .w8) (hsrc : src.hasWidth .w8) (hwrite : dst.writable) : MoveEffect i .w8 dst src s :=
  moveEffect_of_accessible hx hdst hsrc hwrite (accessible_w8 s src) (accessible_w8 s dst)

/-- A word move whose operands can both be accessed exactly where its effective operand can is a word form. -/
theorem wordForm_move {e : RM Reg16} {i : Instr} {dst src : State → Desc}
    (hx : ∀ s, exec i s = perform (moveOp .w16 (dst s) (src s)) s) (hdst : ∀ s, (dst s).hasWidth .w16)
    (hsrc : ∀ s, (src s).hasWidth .w16) (hwrite : ∀ s, (dst s).writable)
    (hacc : ∀ s : State, s.accessible .w16 (src s) ∧ s.accessible .w16 (dst s) ↔
      s.accessible .w16 (effective16 e s)) :
    WordForm e i fun s => MoveEffect i .w16 (dst s) (src s) s := by
  intro s
  constructor
  · intro h
    obtain ⟨hsrcAcc, hdstAcc⟩ := (hacc s).2 h
    exact moveEffect_of_accessible (hx s) (hdst s) (hsrc s) (hwrite s) hsrcAcc hdstAcc
  · intro h
    exact (hx s).trans (moveOp_fault (hsrc s) (mt (hacc s).1 h))

/-- Settles O24: each form is a byte move between two operands of width 8. -/
theorem moveByteForms : Obligations.MoveByteForms := by
  unfold Obligations.MoveByteForms
  intro s
  refine ⟨fun e g => ?_, fun e g => ?_, fun r imm => ?_, fun e imm => ?_⟩
  · exact moveEffect_byte rfl (effective8_hasWidth e s) rfl (effective8_writable e s)
  · exact moveEffect_byte (dst := .reg8 g) rfl rfl (effective8_hasWidth e s) trivial
  · exact moveEffect_byte (dst := .reg8 r) (src := .imm8 imm) rfl rfl rfl trivial
  · exact moveEffect_byte rfl (effective8_hasWidth e s) rfl (effective8_writable e s)

/-- Settles O25: of a form's two operands the one that is not E is a register or an immediate, which every state can
access. -/
theorem moveWordForms : Obligations.MoveWordForms := by
  unfold Obligations.MoveWordForms
  refine ⟨fun e g => ?_, fun e g => ?_, fun r imm s => ?_, fun e imm => ?_⟩
  · exact wordForm_move (dst := effective16 e) (src := fun _ => .reg16 g) (fun _ => rfl) (effective16_hasWidth e)
      (fun _ => rfl) (effective16_writable e) fun s => and_iff_right (accessible_reg16 s _ g)
  · exact wordForm_move (dst := fun _ => .reg16 g) (src := effective16 e) (fun _ => rfl) (fun _ => rfl)
      (effective16_hasWidth e) (fun _ => trivial) fun s => and_iff_left (accessible_reg16 s _ g)
  · exact moveEffect_of_accessible (dst := .reg16 r) (src := .imm16 imm) rfl rfl rfl trivial
      (accessible_imm16 s _ imm) (accessible_reg16 s _ r)
  · exact wordForm_move (dst := effective16 e) (src := fun _ => .imm16 imm) (fun _ => rfl) (effective16_hasWidth e)
      (fun _ => rfl) (effective16_writable e) fun s => and_iff_right (accessible_imm16 s _ imm)

end Sys2Proof.Machine
end

section
/-! PROOFS for 42_arith.md. Every ADD, SUB, CMP, INC and DEC is the common arithmetic operation (R170) on a left operand
that is E or a register. One lemma per shape of its operands serves the three operations at once. -/

namespace Sys2Proof.Machine

open Sys2Proof.Claims

section
variable {i : Instr} {kind : AluKind} {w : Width} {wb : Bool}

/-! ## The effect of the common operation -/

/-- The operands are read before anything is written, so the result written back and the flags are the primitive's on
the values the operands had. Without the write-back only the flags change. -/
theorem arithEffect_of_accessible {a b : Desc} {s : State} (hx : exec i s = perform (arithOp kind w a a b wb) s)
    (ha : a.hasWidth w) (hb : b.hasWidth w) (hwrite : a.writable) (haAcc : s.accessible w a)
    (hbAcc : s.accessible w b) : ArithEffect i kind w wb a b s := by
  cases wb with
  | true =>
    obtain ⟨hpc, hstatus, hphase, hcfg⟩ := putAt_sameControl s w a (alu kind (s.valueAt w a) (s.valueAt w b)).r
    refine ⟨afterArith s kind w a b, hx.trans (arithOp_ok ha hb hwrite haAcc hbAcc), ⟨hpc, hstatus, hphase, hcfg⟩, rfl,
      (if_pos rfl).mpr ⟨?_, ?_⟩⟩
    · exact (valueAt_congr rfl rfl w a).trans (valueAt_putAt ha hwrite _)
    · exact onlyThrough_congr (putAt_only s w a _) rfl rfl
  | false =>
    exact ⟨_, hx.trans (compareOp_ok ha hb haAcc hbAcc), ⟨rfl, rfl, rfl, rfl⟩, rfl,
      (if_neg Bool.false_ne_true).mpr (onlyThrough_nil rfl rfl)⟩

/-- An arithmetic instruction whose operands can both be accessed exactly where its effective operand can is a word
form. -/
theorem wordForm_arith {e : RM Reg16} {a b : State → Desc}
    (hx : ∀ s, exec i s = perform (arithOp kind .w16 (a s) (a s) (b s) wb) s) (ha : ∀ s, (a s).hasWidth .w16)
    (hb : ∀ s, (b s).hasWidth .w16) (hwrite : ∀ s, (a s).writable)
    (hacc : ∀ s : State, s.accessible .w16 (a s) ∧ s.accessible .w16 (b s) ↔ s.accessible .w16 (effective16 e s)) :
    WordForm e i fun s => ArithEffect i kind .w16 wb (a s) (b s) s := by
  intro s
  constructor
  · intro h
    obtain ⟨haAcc, hbAcc⟩ := (hacc s).2 h
    exact arithEffect_of_accessible (hx s) (ha s) (hb s) (hwrite s) haAcc hbAcc
  · intro h
    exact (hx s).trans (arithOp_fault (ha s) (mt (hacc s).1 h))

/-! ## The shapes of the operands -/

/-- E of bytes on the left: a byte can be accessed at every address. -/
theorem arithEffect_effective8 {e : RM Reg8} {b : Desc} {s : State}
    (hx : exec i s = perform (arithOp kind .w8 (effective8 e s) (effective8 e s) b wb) s) (hb : b.hasWidth .w8) :
    ArithEffect i kind .w8 wb (effective8 e s) b s :=
  arithEffect_of_accessible hx (effective8_hasWidth e s) hb (effective8_writable e s) (accessible_w8 s _)
    (accessible_w8 s b)

/-- A byte register on the left. -/
theorem arithEffect_reg8 {r : Reg8} {b : Desc} {s : State}
    (hx : exec i s = perform (arithOp kind .w8 (.reg8 r) (.reg8 r) b wb) s) (hb : b.hasWidth .w8) :
    ArithEffect i kind .w8 wb (.reg8 r) b s :=
  arithEffect_of_accessible hx rfl hb trivial (accessible_w8 s _) (accessible_w8 s b)

/-- A word register on the left and an immediate on the right: neither is in memory. -/
theorem arithEffect_reg16_imm16 {r : Reg16} {v : Word} {s : State}
    (hx : exec i s = perform (arithOp kind .w16 (.reg16 r) (.reg16 r) (.imm16 v) wb) s) :
    ArithEffect i kind .w16 wb (.reg16 r) (.imm16 v) s :=
  arithEffect_of_accessible hx rfl rfl trivial (accessible_reg16 s _ r) (accessible_imm16 s _ v)

/-- E of words on the left, with a right operand that every state can access. -/
theorem wordForm_effective16_left {e : RM Reg16} {b : Desc}
    (hx : ∀ s, exec i s = perform (arithOp kind .w16 (effective16 e s) (effective16 e s) b wb) s)
    (hb : b.hasWidth .w16) (hbAcc : ∀ s : State, s.accessible .w16 b) :
    WordForm e i fun s => ArithEffect i kind .w16 wb (effective16 e s) b s :=
  wordForm_arith hx (effective16_hasWidth e) (fun _ => hb) (effective16_writable e) fun s => and_iff_left (hbAcc s)

/-- A word register on the left and E on the right. -/
theorem wordForm_effective16_right {e : RM Reg16} {g : Reg16}
    (hx : ∀ s, exec i s = perform (arithOp kind .w16 (.reg16 g) (.reg16 g) (effective16 e s) wb) s) :
    WordForm e i fun s => ArithEffect i kind .w16 wb (.reg16 g) (effective16 e s) s :=
  wordForm_arith hx (fun _ => rfl) (effective16_hasWidth e) (fun _ => trivial) fun s =>
    and_iff_right (accessible_reg16 s _ g)

end

/-! ## The four forms of ADD, SUB and CMP -/

section
variable {kind : AluKind} {wb : Bool}

/-- The byte forms of an operation, given what each performs: E with a register, a register with E, AL with an
immediate, E with an immediate. -/
theorem arithEffect_byteForms {iEG iGE : RM Reg8 → Reg8 → Instr} {iAI : Byte → Instr} {iEI : RM Reg8 → Byte → Instr}
    (s : State)
    (hEG : ∀ e g, exec (iEG e g) s = perform (arithOp kind .w8 (effective8 e s) (effective8 e s) (.reg8 g) wb) s)
    (hGE : ∀ e g, exec (iGE e g) s = perform (arithOp kind .w8 (.reg8 g) (.reg8 g) (effective8 e s) wb) s)
    (hAI : ∀ v, exec (iAI v) s = perform (arithOp kind .w8 (.reg8 .al) (.reg8 .al) (.imm8 v) wb) s)
    (hEI : ∀ e v, exec (iEI e v) s = perform (arithOp kind .w8 (effective8 e s) (effective8 e s) (.imm8 v) wb) s) :
    (∀ e g, ArithEffect (iEG e g) kind .w8 wb (effective8 e s) (.reg8 g) s) ∧
    (∀ e g, ArithEffect (iGE e g) kind .w8 wb (.reg8 g) (effective8 e s) s) ∧
    (∀ v, ArithEffect (iAI v) kind .w8 wb (.reg8 .al) (.imm8 v) s) ∧
    (∀ e v, ArithEffect (iEI e v) kind .w8 wb (effective8 e s) (.imm8 v) s) := by
  refine ⟨fun e g => ?_, fun e g => ?_, fun v => ?_, fun e v => ?_⟩
  · exact arithEffect_effective8 (hEG e g) rfl
  · exact arithEffect_reg8 (hGE e g) (effective8_hasWidth e s)
  · exact arithEffect_reg8 (hAI v) rfl
  · exact arithEffect_effective8 (hEI e v) rfl

/-- The word forms of an operation, given what each performs: of a form's two operands only E can be out of reach, and
AX with an immediate reaches no memory. -/
theorem wordForm_arithForms {iEG iGE : RM Reg16 → Reg16 → Instr} {iAI : Word → Instr} {iEI : RM Reg16 → Word → Instr}
    (hEG : ∀ e g s, exec (iEG e g) s =
      perform (arithOp kind .w16 (effective16 e s) (effective16 e s) (.reg16 g) wb) s)
    (hGE : ∀ e g s, exec (iGE e g) s = perform (arithOp kind .w16 (.reg16 g) (.reg16 g) (effective16 e s) wb) s)
    (hAI : ∀ v s, exec (iAI v) s = perform (arithOp kind .w16 (.reg16 .ax) (.reg16 .ax) (.imm16 v) wb) s)
    (hEI : ∀ e v s, exec (iEI e v) s =
      perform (arithOp kind .w16 (effective16 e s) (effective16 e s) (.imm16 v) wb) s) :
    (∀ e g, WordForm e (iEG e g) fun s => ArithEffect (iEG e g) kind .w16 wb (effective16 e s) (.reg16 g) s) ∧
    (∀ e g, WordForm e (iGE e g) fun s => ArithEffect (iGE e g) kind .w16 wb (.reg16 g) (effective16 e s) s) ∧
    (∀ v s, ArithEffect (iAI v) kind .w16 wb (.reg16 .ax) (.imm16 v) s) ∧
    (∀ e v, WordForm e (iEI e v) fun s => ArithEffect (iEI e v) kind .w16 wb (effective16 e s) (.imm16 v) s) := by
  refine ⟨fun e g => ?_, fun e g => ?_, fun v s => ?_, fun e v => ?_⟩
  · exact wordForm_effective16_left (hEG e g) rfl (accessible_reg16 · _ g)
  · exact wordForm_effective16_right (hGE e g)
  · exact arithEffect_reg16_imm16 (hAI v s)
  · exact wordForm_effective16_left (hEI e v) rfl (accessible_imm16 · _ v)

end

/-- Settles O26: ADD is the addition with the result written back. -/
theorem addByteForms : Obligations.AddByteForms := by
  unfold Obligations.AddByteForms
  intro s
  exact arithEffect_byteForms s (fun _ _ => rfl) (fun _ _ => rfl) (fun _ => rfl) (fun _ _ => rfl)

/-- Settles O27: ADD of words is the same operation at width 16. -/
theorem addWordForms : Obligations.AddWordForms := by
  unfold Obligations.AddWordForms
  exact wordForm_arithForms (fun _ _ _ => rfl) (fun _ _ _ => rfl) (fun _ _ => rfl) (fun _ _ _ => rfl)

/-- Settles O28: SUB is the subtraction of the right operand from the left one it writes. -/
theorem subByteForms : Obligations.SubByteForms := by
  unfold Obligations.SubByteForms
  intro s
  exact arithEffect_byteForms s (fun _ _ => rfl) (fun _ _ => rfl) (fun _ => rfl) (fun _ _ => rfl)

/-- Settles O29: SUB of words is the same operation at width 16. -/
theorem subWordForms : Obligations.SubWordForms := by
  unfold Obligations.SubWordForms
  exact wordForm_arithForms (fun _ _ _ => rfl) (fun _ _ _ => rfl) (fun _ _ => rfl) (fun _ _ _ => rfl)

/-- Settles O30: CMP is the subtraction without the write-back. -/
theorem cmpByteForms : Obligations.CmpByteForms := by
  unfold Obligations.CmpByteForms
  intro s
  exact arithEffect_byteForms s (fun _ _ => rfl) (fun _ _ => rfl) (fun _ => rfl) (fun _ _ => rfl)

/-- Settles O31: CMP reads E as SUB does, so it stops where SUB stops. -/
theorem cmpWordForms : Obligations.CmpWordForms := by
  unfold Obligations.CmpWordForms
  exact wordForm_arithForms (fun _ _ _ => rfl) (fun _ _ _ => rfl) (fun _ _ => rfl) (fun _ _ _ => rfl)

/-! ## INC and DEC -/

/-- Settles O32: INC and DEC are the word addition and subtraction of an immediate 1, carry included. -/
theorem incrementAndDecrement : Obligations.IncrementAndDecrement := by
  unfold Obligations.IncrementAndDecrement
  intro s r
  exact ⟨arithEffect_reg16_imm16 rfl, arithEffect_reg16_imm16 rfl⟩

end Sys2Proof.Machine
end

section
/-! PROOFS for 43_stack.md. PUSH moves SP down and then stores a word at the new SP, POP loads the word at SP and then
moves SP up (R200, R201). Each completes where its word can be accessed and stops with AddressRange where it cannot. -/

namespace Sys2Proof.Machine

/-- A word at the top of memory is out of reach unless accesses wrap (R54). -/
theorem not_accessible_word {s : State} {a : Word} (ha : a = 0xFFFF#16) (hw : s.cfg.topWrap = false) :
    ¬ s.accessible .w16 (.mem a) := by
  simp [accessible_word_iff, ha, hw]

section
variable (s : State) (p : Word) (d : Desc) (v : Word)

/-- Moving SP and writing a word leave the control state alone. -/
theorem putAt_withSp_sameControl : SameControl s (putAt (withSp s p) .w16 d v) := by
  constructor <;> simp

/-- Moving SP and writing a word change SP and the word's place only. -/
theorem putAt_withSp_only : OnlyThrough [(.w16, .reg16 .sp), (.w16, d)] s (putAt (withSp s p) .w16 d v) :=
  onlyThrough_trans (withSp_only s p) (putAt_only (withSp s p) .w16 d v)

end

/-- Settles O33: the word is `pushedValue`, and where it cannot be stored SP has moved already. -/
theorem pushStoresWord : Obligations.PushStoresWord := by
  unfold Obligations.PushStoresWord
  intro s r
  have hx : exec (.pushR16 r) s = perform (push (pushedValue r s)) s := rfl
  refine ⟨fun h => ?_, fun hsp hw => ?_⟩
  · have hacc := (accessible_word_iff s _).2 h
    exact ⟨_, hx.trans (perform_ok (push_ok _ hacc)), putAt_withSp_sameControl s _ _ _, putAt_flags _ _ _ _, rfl,
      valueAt_putAt (d := .mem _) trivial trivial _, putAt_withSp_only s _ _ _⟩
  · exact hx.trans (perform_error (push_fault _ (not_accessible_word hsp hw)))

/-- Settles O34: the register is written after SP has moved, so POP SP keeps the popped word. -/
theorem popLoadsWord : Obligations.PopLoadsWord := by
  unfold Obligations.PopLoadsWord
  intro s r
  have hx : exec (.popR16 r) s = perform (popOp r) s := rfl
  refine ⟨fun h => ?_, fun hsp hw => ?_⟩
  · have hacc := (accessible_word_iff s _).2 h
    exact ⟨_, hx.trans (popOp_ok r hacc), putAt_withSp_sameControl s _ _ _, putAt_flags _ _ _ _,
      get16_set16_self _ r _, fun hr => get16_set16_other _ _ (Ne.symm hr), putAt_withSp_only s _ _ _⟩
  · exact hx.trans (popOp_fault r (not_accessible_word hsp hw))

/-- A pop takes back the word a push has stored, and SP to where it was before the push. -/
theorem pop_after_push {s t : State} {v : Word} (h : s.accessible .w16 (.mem (s.regs.sp - 2)))
    (ht : t = putAt (withSp s (s.regs.sp - 2)) .w16 (.mem (s.regs.sp - 2)) v) :
    pop t = .ok v (withSp t s.regs.sp) := by
  have hsp : t.regs.sp = s.regs.sp - 2 := by rw [ht]; rfl
  have hcfg : t.cfg = s.cfg := by simp [ht]
  have hacc : t.accessible .w16 (.mem t.regs.sp) := by rw [hsp, accessible_congr hcfg]; exact h
  have hv : t.valueAt .w16 (.mem t.regs.sp) = v := by
    rw [hsp, ht]
    exact valueAt_putAt (w := .w16) (d := .mem _) trivial trivial v
  rw [pop_ok hacc, hv, hsp, BitVec.sub_add_cancel]

/-- Settles O35: SP is the one register the pair moves, and it comes back. -/
theorem pushThenPopReturnsValue : Obligations.PushThenPopReturnsValue := by
  unfold Obligations.PushThenPopReturnsValue
  intro s v h
  have hacc := (accessible_word_iff s _).2 h
  exact ⟨_, _, push_ok v hacc, pop_after_push hacc rfl, rfl⟩

end Sys2Proof.Machine
end

section
/-! PROOFS for 44_control.md, jumps, CALL and RET. A jump replaces pc by its target (R211, R212, R215), CALL is a push
of pc and a jump (R213), RET a pop into pc (R214). -/

namespace Sys2Proof.Machine

open Sys2Proof.Claims

/-- Settles O36: the target is the cursor plus the displacement, sign-extended where it is a byte. -/
theorem jumpsGoToTarget : Obligations.JumpsGoToTarget := by
  unfold Obligations.JumpsGoToTarget
  intro s
  refine ⟨fun d => ?_, fun d => ?_⟩
  · rw [target8_eq]; exact jumpBy_ok s (sextByte d)
  · rw [target16_eq]; exact jumpBy_ok s d

/-- A conditional jump on a test that says whether `q` holds goes to the target exactly if `q` does. -/
theorem jumpIf_of_iff {s : State} {cond : Flags → Bool} {q : Prop} [Decidable q] (d : Byte)
    (h : cond s.flags = true ↔ q) :
    perform (jumpIf cond d) s = .next (if q then { s with pc := target8 s.pc d } else s) := by
  rw [jumpIf_ok, target8_eq]
  exact congrArg _ (if_congr h rfl rfl)

/-- Settles O37: each instruction is the conditional jump on its own test, with `!` and `||` for `¬` and `∨`. -/
theorem conditionalJumpsTestFlags : Obligations.ConditionalJumpsTestFlags := by
  unfold Obligations.ConditionalJumpsTestFlags
  intro s d
  refine ⟨?jo, ?jno, ?jb, ?jnb, ?jz, ?jnz, ?jbe, ?ja, ?js, ?jns⟩
  case jo | jb | jz | js => exact jumpIf_of_iff d Iff.rfl
  case jno | jnb | jnz | jns | jbe | ja => exact jumpIf_of_iff d (by simp)

/-- Settles O38: the jump moves pc alone, so registers and memory are those the push leaves. -/
theorem callPushesReturnAddress : Obligations.CallPushesReturnAddress := by
  unfold Obligations.CallPushesReturnAddress
  intro s d
  have hx : exec (.callRel16 d) s = perform (callOp d) s := rfl
  refine ⟨fun h => ?_, fun hsp hw => ?_⟩
  · have hacc := (accessible_word_iff s _).2 h
    obtain ⟨-, hstatus, hphase, hcfg⟩ := putAt_withSp_sameControl s (s.regs.sp - 2) (.mem (s.regs.sp - 2)) s.pc
    exact ⟨_, hx.trans (callOp_ok d hacc), (target16_eq s.pc d).symm, putAt_flags (withSp s _) _ _ _,
      hstatus, hphase, hcfg, rfl,
      (valueAt_congr rfl rfl _ _).trans (valueAt_putAt (w := .w16) (d := .mem _) trivial trivial s.pc),
      onlyThrough_congr (putAt_withSp_only s _ _ _) rfl rfl⟩
  · exact hx.trans (callOp_fault d (not_accessible_word hsp hw))

/-- Settles O39: the word is read before SP moves, so a stop there leaves everything as it was. -/
theorem returnPopsTarget : Obligations.ReturnPopsTarget := by
  unfold Obligations.ReturnPopsTarget
  intro s
  have hx : exec .ret s = perform retOp s := rfl
  exact ⟨fun h => hx.trans (retOp_ok ((accessible_word_iff s _).2 h)),
    fun hsp hw => hx.trans (retOp_fault (not_accessible_word hsp hw))⟩

/-- A register file that differs from another in SP alone becomes it when SP is set to that one's. -/
theorem set16_sp_eq {x y : Regs} (h : ∀ r, r ≠ .sp → x.get16 r = y.get16 r) : x.set16 .sp y.sp = y :=
  regs_ext fun r => by
    by_cases hr : r = .sp
    · subst hr; rfl
    · rw [get16_set16_other x _ hr, h r hr]

/-- Settles O40: RET finds SP and the word there as CALL left them, takes the word into pc and moves SP back. -/
theorem callThenReturnComesBack : Obligations.CallThenReturnComesBack := by
  unfold Obligations.CallThenReturnComesBack
  intro s d h
  obtain ⟨t, hcall, -, hflags, hstatus, -, hcfg, hsp, hret, honly⟩ := (callPushesReturnAddress s d).1 h
  have hpop := (returnPopsTarget t).1 (by rwa [hsp, hcfg])
  refine ⟨t, _, hcall, hpop, ?_, ?_, hflags, hstatus⟩
  · rw [← hsp] at hret; exact hret
  · have hother : ∀ r, r ≠ .sp → t.regs.get16 r = s.regs.get16 r := fun r hr =>
      honly.words r (by simpa [Desc.touches16] using hr.symm)
    show t.regs.set16 .sp (t.regs.sp + 2) = s.regs
    rw [hsp, BitVec.sub_add_cancel, set16_sp_eq hother]

end Sys2Proof.Machine
end

section
/-! PROOFS for 44_control.md, control state. Of the answers an execution can give, Halt is HLT's alone (R240), since no
operation of another family raises it; the others move pc only by a control transfer. -/

namespace Sys2Proof.Machine

open Sys2Proof.Claims

/-- The operation raises no Halt. -/
def NeverHalts {α : Type} (op : Op α) : Prop := ∀ s opcode pc t, op s ≠ .error (.halt opcode pc) t

/-! ## The operations of the instruction families but HLT's -/

theorem neverHalts_pure {α : Type} (a : α) : NeverHalts (pure a : Op α) := fun _ _ _ _ h => nomatch h

theorem neverHalts_bind {α β : Type} {x : Op α} {f : α → Op β} (hx : NeverHalts x) (hf : ∀ a, NeverHalts (f a)) :
    NeverHalts (x >>= f) := by
  intro s opcode pc u h
  rw [bind_apply] at h
  cases hxs : x s with
  | ok a t => rw [hxs] at h; exact hf a t opcode pc u h
  | error why t => rw [hxs] at h; cases h; exact hx s opcode pc _ hxs

theorem neverHalts_readOperand (w : Width) (d : Desc) : NeverHalts (readOperand w d) := by
  intro s opcode pc t h
  cases w <;> cases d
  case w16.mem a =>
    by_cases hacc : s.accessible .w16 (.mem a)
    · rw [readOperand_ok (d := .mem a) trivial hacc] at h; cases h
    · rw [readOperand_fault hacc] at h; cases h
  all_goals cases h

theorem neverHalts_writeOperand (w : Width) (d : Desc) (v : BitVec w.bits) : NeverHalts (writeOperand w d v) := by
  intro s opcode pc t h
  cases w <;> cases d
  case w16.mem a =>
    by_cases hacc : s.accessible .w16 (.mem a)
    · rw [writeOperand_ok (d := .mem a) trivial trivial hacc] at h; cases h
    · rw [writeOperand_fault hacc] at h; cases h
  all_goals cases h

theorem neverHalts_setFlags (f : Flags) : NeverHalts (setFlags f) := fun _ _ _ _ h => nomatch h

theorem neverHalts_writePc (target : Word) : NeverHalts (writePc target) := fun _ _ _ _ h => nomatch h

theorem neverHalts_jumpBy (d : Word) : NeverHalts (jumpBy d) := fun _ _ _ _ h => nomatch h

theorem neverHalts_push (v : Word) : NeverHalts (push v) := by
  intro s opcode pc t h
  by_cases hacc : s.accessible .w16 (.mem (s.regs.sp - 2))
  · rw [push_ok v hacc] at h; cases h
  · rw [push_fault v hacc] at h; cases h

theorem neverHalts_pop : NeverHalts pop := by
  intro s opcode pc t h
  by_cases hacc : s.accessible .w16 (.mem s.regs.sp)
  · rw [pop_ok hacc] at h; cases h
  · rw [pop_fault hacc] at h; cases h

theorem neverHalts_moveOp (w : Width) (dst src : Desc) : NeverHalts (moveOp w dst src) :=
  neverHalts_bind (neverHalts_readOperand w src) (neverHalts_writeOperand w dst)

theorem neverHalts_arithOp (kind : AluKind) (w : Width) (dst a b : Desc) (writeback : Bool) :
    NeverHalts (arithOp kind w dst a b writeback) :=
  neverHalts_bind (neverHalts_readOperand w a) fun _ =>
    neverHalts_bind (neverHalts_readOperand w b) fun _ => by
      cases writeback with
      | true => exact neverHalts_bind (neverHalts_writeOperand w dst _) fun _ => neverHalts_setFlags _
      | false => exact neverHalts_setFlags _

theorem neverHalts_exchangeOp (w : Width) (x y : Desc) : NeverHalts (exchangeOp w x y) :=
  neverHalts_bind (neverHalts_readOperand w x) fun t1 =>
    neverHalts_bind (neverHalts_readOperand w y) fun t2 =>
      neverHalts_bind (neverHalts_writeOperand w x t2) fun _ => neverHalts_writeOperand w y t1

theorem neverHalts_popOp (r : Reg16) : NeverHalts (popOp r) :=
  neverHalts_bind neverHalts_pop fun _ _ _ _ _ h => nomatch h

theorem neverHalts_jumpIf (cond : Flags → Bool) (d : Byte) : NeverHalts (jumpIf cond d) := by
  intro s opcode pc t h
  by_cases hc : cond s.flags = true <;> simp [jumpIf, hc, jumpBy] at h

theorem neverHalts_callOp (d : Word) : NeverHalts (callOp d) :=
  neverHalts_bind (x := readPc) (fun _ _ _ _ h => nomatch h) fun ret =>
    neverHalts_bind (neverHalts_push ret) fun _ => neverHalts_writePc _

theorem neverHalts_retOp : NeverHalts retOp := neverHalts_bind neverHalts_pop neverHalts_writePc

/-! ## Execution -/

/-- Executing an instruction other than HLT performs an operation of its family that raises no Halt. -/
theorem exec_performs_neverHalts {i : Instr} (s : State) (h : i ≠ .hlt) :
    ∃ op, FamilyOp op ∧ NeverHalts op ∧ exec i s = perform op s := by
  cases i <;> unfold exec
  case movEbGb | movEvGv | movGbEb | movGvEv | movR8Ib | movR16Iv | movEbIb | movEvIv =>
    exact ⟨_, .move .., neverHalts_moveOp _ _ _, rfl⟩
  case addEbGb | addEvGv | addGbEb | addGvEv | addAlIb | addAxIv | addEbIb | addEvIv | incR16
    | subEbGb | subEvGv | subGbEb | subGvEv | subAlIb | subAxIv | subEbIb | subEvIv | decR16
    | cmpEbGb | cmpEvGv | cmpGbEb | cmpGvEv | cmpAlIb | cmpAxIv | cmpEbIb | cmpEvIv =>
    exact ⟨_, .arith .., neverHalts_arithOp _ _ _ _ _ _, rfl⟩
  case xchgEbGb | xchgEvGv | xchgAxR16 => exact ⟨_, .exchange .., neverHalts_exchangeOp _ _ _, rfl⟩
  case pushR16 => exact ⟨_, .push .., neverHalts_push _, rfl⟩
  case popR16 => exact ⟨_, .pop .., neverHalts_popOp _, rfl⟩
  case jmpRel8 | jmpRel16 => exact ⟨_, .jump .., neverHalts_jumpBy _, rfl⟩
  case joRel8 | jnoRel8 | jbRel8 | jnbRel8 | jzRel8 | jnzRel8 | jbeRel8 | jaRel8 | jsRel8 | jnsRel8 =>
    exact ⟨_, .jumpIf .., neverHalts_jumpIf _ _, rfl⟩
  case callRel16 => exact ⟨_, .call .., neverHalts_callOp _, rfl⟩
  case ret => exact ⟨_, .ret, neverHalts_retOp, rfl⟩
  case nop => exact ⟨_, .nop, neverHalts_pure (), rfl⟩
  case hlt => exact absurd rfl h

/-- Only HLT brings a Halt about: any other instruction that ends in one began in it. -/
theorem exec_halt_of_ne_hlt {i : Instr} {s t : State} {opcode : Byte} {pc : Word} (hi : i ≠ .hlt)
    (hx : exec i s = .next t) (ht : t.status = .stopped (.halt opcode pc)) : t.status = s.status := by
  obtain ⟨op, hfamily, hnever, hop⟩ := exec_performs_neverHalts s hi
  have hmode := hfamily.keepsMode s
  rw [hop] at hx
  cases hs : op s with
  | ok _ u =>
    rw [hs] at hmode
    rw [perform_ok hs] at hx
    cases hx
    exact hmode.status
  | error why u =>
    rw [perform_error hs] at hx
    cases hx
    cases ht
    exact absurd hs (hnever s opcode pc u)

theorem nextPc_of_not_transfer {i : Instr} (s : State) (p : Word) (h : transfersControl i = false) :
    nextPc s p i = p := by
  cases i
  case joRel8 | jnoRel8 | jbRel8 | jnbRel8 | jzRel8 | jnzRel8 | jbeRel8 | jaRel8 | jsRel8 | jnsRel8 => cases h
  case ret | callRel16 | jmpRel16 | jmpRel8 => cases h
  all_goals rfl

/-- Settles O53: a completed execution keeps STATUS and has pc at its target; the others stop with pc as it was. -/
theorem execKeepsControlState : Obligations.ExecKeepsControlState := by
  unfold Obligations.ExecKeepsControlState
  intro i s
  obtain ⟨t, ht, hres⟩ := exec_answers i s
  obtain ⟨hphase, hcfg⟩ := exec_keeps_phase_cfg ht
  refine ⟨t, ht, hcfg, hphase, ?_⟩
  cases hres with
  | completed status pc _ => exact ⟨fun h => pc.trans (nextPc_of_not_transfer s s.pc h), .inl status⟩
  | beyondTop | pushBeyondTop => exact ⟨fun _ => rfl, .inr (.inl rfl)⟩
  | halted =>
    refine ⟨fun _ => rfl, ?_⟩
    by_cases hi : i = .hlt
    · exact .inr (.inr ⟨hi, rfl⟩)
    · exact .inl (exec_halt_of_ne_hlt hi ht rfl)

end Sys2Proof.Machine
end

section
/-! PROOFS for 45_exchange_nop.md. An exchange reads both operands and then writes each with the other's value (R230);
its second operand is a register of the first one's width, so the two name the same place or disjoint ones. NOP leaves a
step with the cursor's advance alone (R233). -/

namespace Sys2Proof.Machine

open Sys2Proof.Claims

/-! ## Reading beside a write to a register -/

/-- Among the operands of width 8, the byte register alone touches it. -/
theorem eq_reg8_of_touches8 {d : Desc} {r : Reg8} (hd : d.hasWidth .w8) (h : d.touches8 r) : d = .reg8 r := by
  rcases h with h | h
  · exact h
  · subst h; cases hd

/-- Among the operands of width 16, the word register alone touches it. -/
theorem eq_reg16_of_touches16 {d : Desc} {r : Reg16} (hd : d.hasWidth .w16) (h : d.touches16 r) : d = .reg16 r := by
  rcases h with h | ⟨b, h, -⟩
  · exact h
  · subst h; cases hd

/-- A write that stores no byte changes no other operand of its width: a register of that width is not a part of
another. -/
theorem valueAt_putAt_of_ne {s : State} {w : Width} {d x : Desc} (hd : d.hasWidth w) (hx : x.hasWidth w)
    (hstored : d.storedBytes w = []) (hne : d ≠ x) (v : BitVec w.bits) :
    (putAt s w d v).valueAt w x = s.valueAt w x := by
  have hframe := putAt_only s w d v
  cases x with
  | reg8 r =>
    cases hx
    exact hframe.halves r (by simpa using mt (eq_reg8_of_touches8 hd) hne)
  | reg16 r =>
    cases hx
    exact hframe.words r (by simpa using mt (eq_reg16_of_touches16 hd) hne)
  | mem a =>
    have hbyte : ∀ b, (putAt s w d v).byteAt b = s.byteAt b := fun b => hframe.bytes b (by simp [hstored])
    cases w with
    | w8 => exact hbyte a
    | w16 => simp only [State.valueAt, hbyte]
  | imm8 u => cases hx; rfl
  | imm16 u => cases hx; rfl

/-! ## Exchange (R230, R231, R232, R287) -/

/-- Writing `y` last gives it `x`'s old value. That write passes `x` by, or `x` is `y` and both values are one. -/
theorem exchangeEffect_of_accessible {i : Instr} {w : Width} {x y : Desc} {s : State}
    (hexec : exec i s = perform (exchangeOp w x y) s) (hx : x.hasWidth w) (hy : y.hasWidth w)
    (hxwrite : x.writable) (hywrite : y.writable) (hstored : y.storedBytes w = [])
    (hxAcc : s.accessible w x) (hyAcc : s.accessible w y) : ExchangeEffect i w x y s := by
  have hyValue : (putAt (putAt s w x (s.valueAt w y)) w y (s.valueAt w x)).valueAt w y = s.valueAt w x :=
    valueAt_putAt hy hywrite _
  refine ⟨_, hexec.trans (exchangeOp_ok hx hy hxwrite hywrite hxAcc hyAcc), ?_, by simp, ?_, hyValue,
    onlyThrough_trans (putAt_only s w x _) (putAt_only _ w y _)⟩
  · constructor <;> simp
  · by_cases hyx : y = x
    · subst hyx
      exact hyValue
    · exact (valueAt_putAt_of_ne hy hx hstored hyx _).trans (valueAt_putAt hx hxwrite _)

/-- Settles O41: the second operand is a register, which every state can access, so the first decides whether the
exchange completes. -/
theorem exchangeForms : Obligations.ExchangeForms := by
  unfold Obligations.ExchangeForms
  refine ⟨fun e g s => ?_, fun e g s => ⟨fun h => ?_, fun h => exchangeOp_fault h⟩, fun r s => ?_⟩
  · exact exchangeEffect_of_accessible rfl (effective8_hasWidth e s) rfl (effective8_writable e s) trivial rfl
      (accessible_w8 s _) (accessible_reg8 s _ g)
  · exact exchangeEffect_of_accessible rfl (effective16_hasWidth e s) rfl (effective16_writable e s) trivial rfl
      h (accessible_reg16 s _ g)
  · exact exchangeEffect_of_accessible (x := .reg16 .ax) (y := .reg16 r) rfl rfl rfl trivial trivial rfl
      (accessible_reg16 s _ .ax) (accessible_reg16 s _ r)

/-! ## NOP (R233) -/

theorem exec_nop (s : State) : exec .nop s = .next s := rfl

/-- The byte 90 is NOP wherever its row is implemented, whatever HALT_OPCODE is (R109). -/
theorem decode_nop {c : Config} (himp : c.implements .nop = true) : decode c [0x90#8] = .ok .nop [] := by
  have hdecode : decodeFrom listStream c [0x90#8] = .ok .nop [] :=
    decodesBack_noOperand (i := .nop) rfl rfl himp rfl rfl []
  simp only [decode, hdecode]

theorem codeAt_singleton {s : State} {b : Byte} (hb : s.byteAt s.pc = b)
    (hpc : s.pc ≠ 0xFFFF#16 ∨ s.cfg.topWrap = true) : s.codeAt [b] := by
  intro k hk
  obtain rfl : k = 0 := by simpa using hk
  simpa using ⟨hb, hpc⟩

/-- An execute phase in which nothing happens leaves the state as it was between instructions. -/
theorem endExecute_beginExecute {s : State} (hs : s.status = .running) (hphase : s.phase = .fetchOpcode) :
    endExecute (beginExecute s) = s := by
  rw [endExecute_eq, beginExecute_status, if_pos hs, ← hphase]
  rfl

/-- Settles O42: the step is the fetch of one byte and an execute phase in which nothing happens. -/
theorem nopChangesOnlyCursor : Obligations.NopChangesOnlyCursor := by
  unfold Obligations.NopChangesOnlyCursor
  refine ⟨exec_nop, fun s hs hphase hbyte hpc hrow => ?_⟩
  have hdecode : decode s.cfg [0x90#8] = .ok .nop [] := decode_nop (decide_eq_true hrow)
  calc step s
      = afterExecute (exec .nop (beginExecute (withPc s (s.pc + 1)))) :=
        step_decoded hs hdecode (codeAt_singleton hbyte hpc)
    _ = .next (endExecute (beginExecute (withPc s (s.pc + 1)))) := by rw [exec_nop, afterExecute]
    _ = .next (withPc s (s.pc + 1)) := by
        rw [endExecute_beginExecute (s := withPc s (s.pc + 1)) hs hphase]

end Sys2Proof.Machine
end

section
/-! PROOFS for 46_halt.md. The designated byte, where no other row claims it, is HLT; its step fetches that byte and
stops the run, and the dump is called on a stop of that kind alone (R240, R241, R263). -/

namespace Sys2Proof.Machine

/-! ## The diagnostic dump (R241, R263) -/

theorem dumpCalled_of_halted {s : State} (h : s.halted) : dumpCalled s = some ⟨s.regs, s.flags, s.pc⟩ := by
  obtain ⟨opcode, pc, hstatus⟩ := h
  simp only [dumpCalled, hstatus, diagnosticDump]

theorem dumpCalled_of_not_halted {s : State} (h : ¬ s.halted) : dumpCalled s = none := by
  unfold dumpCalled
  split
  case h_1 opcode pc hstatus => exact absurd ⟨opcode, pc, hstatus⟩ h
  case h_2 => rfl
  case h_3 => rfl

/-- Settles O44: a state is halted exactly if its STATUS is the one the dump is called at. -/
theorem dumpIsCalledOnHaltOnly : Obligations.DumpIsCalledOnHaltOnly := by
  unfold Obligations.DumpIsCalledOnHaltOnly
  exact fun s => ⟨dumpCalled_of_halted, dumpCalled_of_not_halted⟩

/-! ## HLT (R240, R259) -/

theorem exec_hlt (s : State) :
    exec .hlt s = .next { s with status := .stopped (.halt s.cfg.haltOpcode s.pc) } := haltOp_ok s

theorem admitted_hlt {c : Config} (hmap : mappedCategory c.haltOpcode = none) (hrow : Row.hlt ∉ c.rowsExcluded) :
    Instr.hlt.admitted c = true := by
  simp [Instr.admitted, Instr.row, Instr.modrmPair, Config.implements, hmap, hrow]

/-- The designated byte is HLT wherever no other row claims it and HLT is implemented (R240). -/
theorem decode_haltOpcode {c : Config} (ha : Instr.hlt.admitted c = true) : decode c [c.haltOpcode] = .ok .hlt [] := by
  have hdecode : decodeFrom listStream c [c.haltOpcode] = .ok .hlt [] := decodesBack_hlt ha []
  simp only [decode, hdecode]

/-- A stopped state rests in the phase it stopped in. -/
theorem endExecute_of_stopped {s : State} {why : Fatal} (h : s.status = .stopped why) : endExecute s = s := by
  rw [endExecute_eq, if_neg (by simp [h])]

/-- Settles O43: the step is the fetch of one byte and HLT's stop, which the end of the execute phase leaves alone. -/
theorem haltStopsTheRun : Obligations.HaltStopsTheRun := by
  unfold Obligations.HaltStopsTheRun
  refine ⟨exec_hlt, fun s hs hbyte hmap hpc hrow => ?_⟩
  have hdecode : decode s.cfg [s.cfg.haltOpcode] = .ok .hlt [] := decode_haltOpcode (admitted_hlt hmap hrow)
  have hstep : step s = afterExecute (exec .hlt (beginExecute (withPc s (s.pc + 1)))) :=
    step_decoded hs hdecode (codeAt_singleton hbyte hpc)
  rw [exec_hlt, afterExecute, endExecute_of_stopped rfl] at hstep
  have hhalted : State.halted { s with
      pc := s.pc + 1, phase := .execute, status := .stopped (.halt s.cfg.haltOpcode (s.pc + 1)) } := ⟨_, _, rfl⟩
  exact ⟨_, hstep, rfl, hhalted, dumpCalled_of_halted hhalted⟩

end Sys2Proof.Machine
end

section
/-! PROOFS for 60_exceptions.md, steps and stops. A running machine always has a next state (R250), a stopped one has
none (R262), and a step that stops does so by an outcome reachable in the phase it rests in, none of which is a contract
violation (R254, R256, R257). -/

namespace Sys2Proof.Machine

/-! ## What a step can stop with -/

/-- An execution that stops a running machine raised an outcome of the execute phase. -/
theorem raisedIn_of_execResult_stopped {s u : State} {target : Word} {why : Fatal} (h : ExecResult s target u)
    (hs : s.status = .running) (hu : u.status = .stopped why) : why.raisedIn .execute := by
  cases h with
  | completed status _ _ => rw [status, hs] at hu; cases hu
  | beyondTop | pushBeyondTop => cases hu; exact ⟨rfl, by decide⟩
  | halted => cases hu; rfl

/-- The outcome a step stops with is reachable in some phase, whatever the state it starts in. -/
theorem step_stopped_raisedIn {s t : State} {why : Fatal} (h : step s = .next t) (ht : t.status = .stopped why) :
    ∃ phase, why.raisedIn phase := by
  obtain ⟨hs, ⟨reject, p, hd, rfl⟩ | ⟨i, p, u, -, hx, rfl⟩⟩ := step_next h
  · cases ht
    exact ⟨_, fatalOf_raisedIn fun op cat hreject =>
      neverMiscategorizes_decodeFrom fetchNext s.cfg s op cat _ (hreject ▸ hd)⟩
  · obtain ⟨u', hu', hres⟩ := exec_answers i (beginExecute (withPc s p))
    cases hx.symm.trans hu'
    rw [endExecute_status] at ht
    exact ⟨.execute, raisedIn_of_execResult_stopped (s := beginExecute (withPc s p)) hres hs ht⟩

/-- No phase raises a contract violation or Miscategorized. -/
theorem kind_of_raisedIn {why : Fatal} {phase : Phase} (h : why.raisedIn phase) :
    why.kind ≠ .miscategorized ∧ why.kind ≠ .writeImmediate ∧ why.kind ≠ .widthMismatch := by
  cases why with
  | miscategorized | writeImmediate | widthMismatch => cases h
  | halt | unknownOpcode | groupSubop | addressingMode | addressRange => exact ⟨nofun, nofun, nofun⟩

/-- Settles O57: the outcomes a step can stop with are reachable ones, and these three are not. -/
theorem contractViolationsAreUnreachable : Obligations.ContractViolationsAreUnreachable := by
  unfold Obligations.ContractViolationsAreUnreachable
  intro s t why _ hstep ht
  obtain ⟨phase, hwhy⟩ := step_stopped_raisedIn hstep ht
  exact kind_of_raisedIn hwhy

/-! ## Whether there is a step -/

/-- Settles O3: STATUS is the first thing a step looks at. -/
theorem stoppedMachineTakesNoStep : Obligations.StoppedMachineTakesNoStep := by
  unfold Obligations.StoppedMachineTakesNoStep
  intro s why hs
  simp only [step, hs]

/-- Settles O4: a rejection is a next state, and so is every answer of an execution. -/
theorem runningMachineAlwaysSteps : Obligations.RunningMachineAlwaysSteps := by
  unfold Obligations.RunningMachineAlwaysSteps
  intro s hs
  cases hd : decodeFrom fetchNext s.cfg s with
  | error why u => exact ⟨_, step_of_rejected hs hd⟩
  | ok i u =>
    obtain ⟨t, ht, -⟩ := exec_answers i (beginExecute u)
    exact ⟨endExecute t, by simp only [step, hs, hd, ht, afterExecute]⟩

end Sys2Proof.Machine
end

section
/-! PROOFS for 30_encoding.md, the decoder and the encoder. The instruction a row makes of its operands is that
row's, and its encoding is the row's opcode byte with the operands' bytes behind it (R80, R100, R101), so the decoder
reads encodings and nothing else. -/

namespace Sys2Proof

open Machine

/-! ## The opcode byte of a row -/

/-- The opcode byte of the row with `low` in its register number, where the row claims a byte for each of several
registers (R106). -/
def OpRow.opcode (r : OpRow) (low : BitVec 3) : Byte :=
  if r.lo = r.hi then r.lo else opcodeWith (r.lo.extractLsb' 3 5) low

/-- The row's entry in the table of fixed rows, which HLT has none of. -/
def Row.entry? (row : Row) : Option OpRow := opTable.find? fun r => decide (r.row = row)

theorem entry?_of_mem_opTable : ∀ r ∈ opTable, r.row.entry? = some r := by
  decide

theorem entry?_of_fixedRow {op : Byte} {r : OpRow} (hr : r ∈ fixedRowsAt op) : r.row.entry? = some r :=
  entry?_of_mem_opTable r (List.mem_of_mem_filter hr)

theorem opcode_of_fixedRow : ∀ op : Byte, ∀ r ∈ fixedRowsAt op, r.opcode (lowField op) = op := by
  decide +kernel

/-- The byte of NOP is not among those of XCHG AX, r16 (R232). -/
theorem reg16At_of_xchgAxR16 :
    ∀ op : Byte, ∀ r ∈ fixedRowsAt op, r.row = .xchgAxR16 → reg16At op ≠ .ax := by
  decide +kernel

theorem fixedRow_ne_hlt {op : Byte} {r : OpRow} (hr : r ∈ fixedRowsAt op) : r.row ≠ .hlt := by
  intro h
  have hentry := entry?_of_fixedRow hr
  rw [h] at hentry
  cases hentry

theorem groupRowAt_read {c : Config} {op : Byte} {sub : BitVec 3} {r : OpRow} (h : groupRowAt c op sub = some r) :
    r ∈ rowsAt c op ∧ r.sub = some sub ∧ c.implements r.row = true := by
  have hfound := List.find?_some h
  simp only [Bool.and_eq_true, decide_eq_true_eq] at hfound
  exact ⟨List.mem_of_find?_eq_some h, hfound⟩

/-! ## The instruction of a row -/

/-- The instruction belongs to the row, its encoding is the row's opcode byte with `tail` behind it, `pair` are the
fields of its ModR/M byte, and `wf` says whether it is well-formed. The encoding is asked of fixed rows only, since
HLT's opcode byte is a parameter. -/
structure HasForm (i : Instr) (r : OpRow) (op : Byte) (tail : List Byte) (pair : Option (BitVec 2 × BitVec 3))
    (wf : Bool) : Prop where
  row : i.row = r.row
  bytes : r.row.entry? = some r → ∀ c, encode c i = r.opcode (lowField op) :: tail
  pair : i.modrmPair = pair
  wf : i.wf = wf

theorem reg16At_num (op : Byte) : (reg16At op).num = lowField op := reg16_num_ofNum _

theorem reg8At_num (op : Byte) : (reg8At op).num = lowField op := reg8_num_ofNum _

section
variable {op : Byte} {r : OpRow} {i : Instr}

theorem withNoOperand_hasForm (h : withNoOperand op r.row = some i) :
    HasForm i r op [] none (decide (r.row = .xchgAxR16 → reg16At op ≠ .ax)) := by
  obtain ⟨row, cat, lo, hi, sub⟩ := r
  cases row <;> cases h
  case hlt => exact ⟨rfl, nofun, rfl, by simp [Instr.wf]⟩
  case nop | ret => exact ⟨rfl, fun h c => by cases h; rfl, rfl, by simp [Instr.wf]⟩
  case incR16 | decR16 | pushR16 | popR16 | xchgAxR16 =>
    exact ⟨rfl, fun h c => by cases h; rw [encode, reg16At_num]; rfl, rfl, by simp [Instr.wf]⟩

theorem withImm8_hasForm {v : Byte} (h : withImm8 op v r.row = some i) : HasForm i r op [v] none true := by
  obtain ⟨row, cat, lo, hi, sub⟩ := r
  cases row <;> cases h
  case movR8Ib => exact ⟨rfl, fun h c => by cases h; rw [encode, reg8At_num]; rfl, rfl, rfl⟩
  all_goals exact ⟨rfl, fun h c => by cases h; rfl, rfl, rfl⟩

theorem withImm16_hasForm {v : Word} (h : withImm16 op v r.row = some i) :
    HasForm i r op (wordBytes v) none true := by
  obtain ⟨row, cat, lo, hi, sub⟩ := r
  cases row <;> cases h
  case movR16Iv => exact ⟨rfl, fun h c => by cases h; rw [encode, reg16At_num]; rfl, rfl, rfl⟩
  all_goals exact ⟨rfl, fun h c => by cases h; rfl, rfl, rfl⟩

theorem withModrm8_hasForm {e : RM Reg8} {g : Reg8} (h : withModrm8 e g r.row = some i) :
    HasForm i r op (modrmBytes Reg8.num e g.num) (some (e.modBits, e.rmBits Reg8.num)) e.wf := by
  obtain ⟨row, cat, lo, hi, sub⟩ := r
  cases row <;> cases h
  all_goals exact ⟨rfl, fun h c => by cases h; rfl, rfl, rfl⟩

theorem withModrm16_hasForm {e : RM Reg16} {g : Reg16} (h : withModrm16 e g r.row = some i) :
    HasForm i r op (modrmBytes Reg16.num e g.num) (some (e.modBits, e.rmBits Reg16.num)) e.wf := by
  obtain ⟨row, cat, lo, hi, sub⟩ := r
  cases row <;> cases h
  all_goals exact ⟨rfl, fun h c => by cases h; rfl, rfl, rfl⟩

theorem withGroup8_hasForm {e : RM Reg8} {sel : BitVec 3} {v : Byte} (h : withGroup8 e v r.row = some i)
    (hsel : r.sub = some sel) :
    HasForm i r op (modrmBytes Reg8.num e sel ++ [v]) (some (e.modBits, e.rmBits Reg8.num)) e.wf := by
  obtain ⟨row, cat, lo, hi, sub⟩ := r
  cases row <;> cases h
  all_goals exact ⟨rfl, fun h c => by cases h; cases hsel; rfl, rfl, rfl⟩

theorem withGroup16_hasForm {e : RM Reg16} {sel : BitVec 3} {v : Word} (h : withGroup16 e v r.row = some i)
    (hsel : r.sub = some sel) :
    HasForm i r op (modrmBytes Reg16.num e sel ++ wordBytes v) (some (e.modBits, e.rmBits Reg16.num)) e.wf := by
  obtain ⟨row, cat, lo, hi, sub⟩ := r
  cases row <;> cases h
  all_goals exact ⟨rfl, fun h c => by cases h; cases hsel; rfl, rfl, rfl⟩

end

/-! ## What the decoder reads -/

section
variable {σ : Type} {next : Stream σ} {c : Config} {op : Byte} {r : OpRow} {i : Instr} {s t : σ}

/-- Which decoders of operands answered what, where a row's instruction was read (R100, R101). -/
inductive ReadsOperands (next : Stream σ) (c : Config) (op : Byte) (r : OpRow) (i : Instr) (s : σ) : σ → Prop where
  | noOperand (hi : withNoOperand op r.row = some i) : ReadsOperands next c op r i s s
  | imm8 {t : σ} {v : Byte} (hv : operandByte next s = .ok v t) (hi : withImm8 op v r.row = some i) :
      ReadsOperands next c op r i s t
  | imm16 {t : σ} {v : Word} (hv : operandWord next s = .ok v t) (hi : withImm16 op v r.row = some i) :
      ReadsOperands next c op r i s t
  | modrm8 {t : σ} {e : RM Reg8} {reg : BitVec 3} (hm : decodeModrm next Reg8.ofNum c op s = .ok (e, reg) t)
      (hi : withModrm8 e (.ofNum reg) r.row = some i) : ReadsOperands next c op r i s t
  | modrm16 {t : σ} {e : RM Reg16} {reg : BitVec 3} (hm : decodeModrm next Reg16.ofNum c op s = .ok (e, reg) t)
      (hi : withModrm16 e (.ofNum reg) r.row = some i) : ReadsOperands next c op r i s t
  | group8 {t u : σ} {e : RM Reg8} {sel : BitVec 3} {v : Byte}
      (hm : decodeModrm next Reg8.ofNum c op s = .ok (e, sel) u) (hsel : r.sub = some sel)
      (hv : operandByte next u = .ok v t) (hi : withGroup8 e v r.row = some i) : ReadsOperands next c op r i s t
  | group16 {t u : σ} {e : RM Reg16} {sel : BitVec 3} {v : Word}
      (hm : decodeModrm next Reg16.ofNum c op s = .ok (e, sel) u) (hsel : r.sub = some sel)
      (hv : operandWord next u = .ok v t) (hi : withGroup16 e v r.row = some i) : ReadsOperands next c op r i s t

theorem fetchGroup_read (h : fetchGroup next c op s = .ok i t) :
    ∃ q ∈ rowsAt c op, c.implements q.row = true ∧ ReadsOperands next c op q i s t := by
  unfold fetchGroup at h
  cases hw : groupWidth op <;> simp only [hw] at h
  case w8 =>
    obtain ⟨⟨e, sel⟩, u, hm, h⟩ := decoder_bind_ok h
    cases hq : groupRowAt c op sel with
    | none => simp only [hq] at h; cases h
    | some q =>
      simp only [hq] at h
      obtain ⟨v, u', hv, h⟩ := decoder_bind_ok h
      obtain ⟨hi, rfl⟩ := orMiscategorized_read h
      obtain ⟨hrow, hsel, himp⟩ := groupRowAt_read hq
      exact ⟨q, hrow, himp, .group8 hm hsel hv hi⟩
  case w16 =>
    obtain ⟨⟨e, sel⟩, u, hm, h⟩ := decoder_bind_ok h
    cases hq : groupRowAt c op sel with
    | none => simp only [hq] at h; cases h
    | some q =>
      simp only [hq] at h
      obtain ⟨v, u', hv, h⟩ := decoder_bind_ok h
      obtain ⟨hi, rfl⟩ := orMiscategorized_read h
      obtain ⟨hrow, hsel, himp⟩ := groupRowAt_read hq
      exact ⟨q, hrow, himp, .group16 hm hsel hv hi⟩

/-- An instruction is read by an implemented row of its byte: the classifying row, or for a GROUP byte the one the
sub-selector finds. -/
theorem fetchOperands_read (hr : r ∈ rowsAt c op) (himp : c.implements r.row = true)
    (h : fetchOperands next c op r.category r.row s = .ok i t) :
    ∃ q ∈ rowsAt c op, c.implements q.row = true ∧ ReadsOperands next c op q i s t := by
  unfold fetchOperands at h
  cases hcat : r.category <;> simp only [hcat] at h
  case noOperand | special =>
    obtain ⟨hi, rfl⟩ := orMiscategorized_read h
    exact ⟨r, hr, himp, .noOperand hi⟩
  case imm8 =>
    obtain ⟨v, u, hv, h⟩ := decoder_bind_ok h
    obtain ⟨hi, rfl⟩ := orMiscategorized_read h
    exact ⟨r, hr, himp, .imm8 hv hi⟩
  case imm16 =>
    obtain ⟨v, u, hv, h⟩ := decoder_bind_ok h
    obtain ⟨hi, rfl⟩ := orMiscategorized_read h
    exact ⟨r, hr, himp, .imm16 hv hi⟩
  case modrm8 =>
    obtain ⟨⟨e, reg⟩, u, hm, h⟩ := decoder_bind_ok h
    obtain ⟨hi, rfl⟩ := orMiscategorized_read h
    exact ⟨r, hr, himp, .modrm8 hm hi⟩
  case modrm16 =>
    obtain ⟨⟨e, reg⟩, u, hm, h⟩ := decoder_bind_ok h
    obtain ⟨hi, rfl⟩ := orMiscategorized_read h
    exact ⟨r, hr, himp, .modrm16 hm hi⟩
  case group => exact fetchGroup_read h

theorem ReadsOperands.row (h : ReadsOperands next c op r i s t) : i.row = r.row := by
  cases h with
  | noOperand hi => exact (withNoOperand_hasForm hi).row
  | imm8 _ hi => exact (withImm8_hasForm hi).row
  | imm16 _ hi => exact (withImm16_hasForm hi).row
  | modrm8 _ hi => exact (withModrm8_hasForm (op := op) hi).row
  | modrm16 _ hi => exact (withModrm16_hasForm (op := op) hi).row
  | group8 _ hsel _ hi => exact (withGroup8_hasForm (op := op) hi hsel).row
  | group16 _ hsel _ hi => exact (withGroup16_hasForm (op := op) hi hsel).row

/-- HLT's row reads the opcode byte alone. -/
theorem ReadsOperands.of_hlt (h : ReadsOperands next c op r i s t) (hr : r.row = .hlt) : i = .hlt ∧ t = s := by
  cases h with
  | noOperand hi => rw [hr] at hi; cases hi; exact ⟨rfl, rfl⟩
  | imm8 _ hi | imm16 _ hi | modrm8 _ hi | modrm16 _ hi | group8 _ _ _ hi | group16 _ _ _ hi => rw [hr] at hi; cases hi

/-- What decoding a stream read: an opcode byte, and the operands of an implemented row of it. -/
theorem decodeFrom_reads (h : decodeFrom next c s = .ok i t) :
    ∃ op u r, next s = some (op, u) ∧ r ∈ rowsAt c op ∧ c.implements r.row = true ∧
      ReadsOperands next c op r i u t := by
  obtain ⟨op, u, hop, h⟩ := decoder_bind_ok h
  obtain ⟨⟨cat, row⟩, u, hclass, h⟩ := decoder_bind_ok h
  obtain ⟨rfl, r, hr, rfl, rfl, himp⟩ := classify_read hclass
  obtain ⟨q, hq, hqimp, hreads⟩ := fetchOperands_read hr himp h
  refine ⟨op, u, q, ?_, hq, hqimp, hreads⟩
  unfold takeByte at hop
  cases hn : next s with
  | none => rw [hn] at hop; cases hop
  | some p => rw [hn] at hop; cases hop; rfl

end

/-! ## The encoding it read -/

section
variable {c : Config} {op : Byte} {r : OpRow} {i : Instr}

theorem admitted_of_supported (himp : c.implements i.row = true) (hhlt : i.row ≠ .hlt)
    (hpair : ∀ p, i.modrmPair = some p → c.modrmSupported p.1 p.2 = true) : i.admitted c = true := by
  unfold Instr.admitted
  cases hp : i.modrmPair with
  | none => simp [himp, hhlt]
  | some p => simp [himp, hhlt, hpair p hp]

/-- An instruction of a fixed row is the one its encoding stands for, if its ModR/M byte is supported. -/
theorem HasForm.isEncoding {tail bs rest : List Byte} {pair : Option (BitVec 2 × BitVec 3)} {wf : Bool}
    (hform : HasForm i r op tail pair wf) (hr : r ∈ fixedRowsAt op) (himp : c.implements r.row = true)
    (hwf : wf = true) (hpair : ∀ p, pair = some p → c.modrmSupported p.1 p.2 = true) (hbs : bs = tail ++ rest) :
    i.wf = true ∧ i.admitted c = true ∧ op :: bs = encode c i ++ rest := by
  refine ⟨hform.wf.trans hwf, admitted_of_supported ?_ ?_ (hform.pair ▸ hpair), ?_⟩
  · rw [hform.row]; exact himp
  · rw [hform.row]; exact fixedRow_ne_hlt hr
  · rw [hform.bytes (entry?_of_fixedRow hr), opcode_of_fixedRow op r hr, hbs, List.cons_append]

theorem ReadsOperands.isEncoding {bs rest : List Byte} (h : ReadsOperands listStream c op r i bs rest)
    (hr : r ∈ fixedRowsAt op) (himp : c.implements r.row = true) :
    i.wf = true ∧ i.admitted c = true ∧ op :: bs = encode c i ++ rest := by
  cases h with
  | noOperand hi =>
    exact (withNoOperand_hasForm hi).isEncoding hr himp (decide_eq_true (reg16At_of_xchgAxR16 op r hr)) nofun rfl
  | imm8 hv hi => exact (withImm8_hasForm hi).isEncoding hr himp rfl nofun (operandByte_read hv)
  | imm16 hv hi => exact (withImm16_hasForm hi).isEncoding hr himp rfl nofun (operandWord_read hv)
  | modrm8 hm hi =>
    obtain ⟨hw, hs, hbs⟩ := decodeModrm_read reg8_num_ofNum hm
    exact (withModrm8_hasForm hi).isEncoding hr himp hw (by rintro _ ⟨⟩; exact hs) (by rw [hbs, reg8_num_ofNum])
  | modrm16 hm hi =>
    obtain ⟨hw, hs, hbs⟩ := decodeModrm_read reg16_num_ofNum hm
    exact (withModrm16_hasForm hi).isEncoding hr himp hw (by rintro _ ⟨⟩; exact hs) (by rw [hbs, reg16_num_ofNum])
  | group8 hm hsel hv hi =>
    obtain ⟨hw, hs, hbs⟩ := decodeModrm_read reg8_num_ofNum hm
    exact (withGroup8_hasForm hi hsel).isEncoding hr himp hw (by rintro _ ⟨⟩; exact hs)
      (by rw [hbs, operandByte_read hv, List.append_assoc]; rfl)
  | group16 hm hsel hv hi =>
    obtain ⟨hw, hs, hbs⟩ := decodeModrm_read reg16_num_ofNum hm
    exact (withGroup16_hasForm hi hsel).isEncoding hr himp hw (by rintro _ ⟨⟩; exact hs)
      (by rw [hbs, operandWord_read hv, List.append_assoc])

end

theorem decodeFrom_of_decode {c : Config} {bytes rest : List Byte} {i : Instr} (h : decode c bytes = .ok i rest) :
    decodeFrom listStream c bytes = .ok i rest := by
  unfold decode at h
  cases hd : decodeFrom listStream c bytes with
  | ok j u => rw [hd] at h; cases h; rfl
  | error why u => rw [hd] at h; cases h

/-- Settles O8: a fixed row's instruction is encoded as its opcode byte and the operands read behind it; HLT, whose byte
no fixed row claims, as that byte. -/
theorem decodedBytesAreTheEncoding : Obligations.DecodedBytesAreTheEncoding := by
  unfold Obligations.DecodedBytesAreTheEncoding
  intro c bytes rest i h
  obtain ⟨op, bs, r, hnext, hr, himp, hreads⟩ := decodeFrom_reads (decodeFrom_of_decode h)
  obtain rfl : bytes = op :: bs := by
    cases bytes with
    | nil => cases hnext
    | cons b bs => cases hnext; rfl
  rcases mem_rowsAt hr with hfixed | ⟨hnone, rfl, rfl⟩
  · exact hreads.isEncoding hfixed himp
  · obtain ⟨rfl, rfl⟩ := hreads.of_hlt rfl
    exact ⟨rfl, admitted_hlt (mappedCategory_of_no_fixedRow _ hnone) (of_decide_eq_true himp), rfl⟩

/-- Settles O7: each instruction's opcode byte is classified by its own row, whose operand decoder reads back what the
encoder wrote. -/
theorem decodeOfEncode : Obligations.DecodeOfEncode := by
  unfold Obligations.DecodeOfEncode
  intro c i rest hwf hadm
  simp only [decode, decodesBack hwf hadm rest]

/-- Settles O5: the decoder computes each of them. -/
theorem specEncodingsDecode : Obligations.SpecEncodingsDecode := by
  unfold Obligations.SpecEncodingsDecode
  decide

end Sys2Proof
end

section
/-! PROOFS for 60_exceptions.md, the normal end. Only HLT's execution raises Halt, and only the designated byte, where
no fixed row claims it, is decoded as HLT (R240, R259). -/

namespace Sys2Proof.Machine

theorem fatalOf_ne_halt (why : Reject) (opcode : Byte) (pc : Word) : fatalOf why ≠ .halt opcode pc := by
  cases why <;> exact nofun

/-- HLT is read from the designated byte alone, which no fixed row claims. -/
theorem decodeFrom_hlt {σ : Type} {next : Stream σ} {c : Config} {s t : σ} (h : decodeFrom next c s = .ok .hlt t) :
    next s = some (c.haltOpcode, t) ∧ mappedCategory c.haltOpcode = none ∧ Row.hlt ∉ c.rowsExcluded := by
  obtain ⟨op, u, r, hnext, hr, himp, hreads⟩ := decodeFrom_reads h
  have hrow : r.row = .hlt := hreads.row.symm
  obtain ⟨-, rfl⟩ := hreads.of_hlt hrow
  obtain ⟨hnone, rfl, -⟩ := (mem_rowsAt hr).resolve_left fun hfixed => fixedRow_ne_hlt hfixed hrow
  rw [hrow] at himp
  exact ⟨hnext, mappedCategory_of_no_fixedRow _ hnone, of_decide_eq_true himp⟩

/-- A step that halts has executed HLT. -/
theorem step_halted {s t : State} (h : step s = .next t) (ht : t.halted) :
    ∃ p, decodeFrom fetchNext s.cfg s = .ok .hlt (withPc s p) ∧
      t = { s with pc := p, phase := .execute, status := .stopped (.halt s.cfg.haltOpcode p) } := by
  obtain ⟨opcode, pc, hhalt⟩ := ht
  obtain ⟨hs, ⟨why, p, -, rfl⟩ | ⟨i, p, u, hd, hx, rfl⟩⟩ := step_next h
  · exact absurd (Status.stopped.inj hhalt) (fatalOf_ne_halt why opcode pc)
  · rw [endExecute_status] at hhalt
    by_cases hi : i = .hlt
    · subst hi
      rw [exec_hlt] at hx
      cases hx
      exact ⟨p, hd, rfl⟩
    · have hrunning : u.status = .running := (exec_halt_of_ne_hlt hi hx hhalt).trans hs
      cases hhalt.symm.trans hrunning

theorem fetchNext_read {s t : State} {b : Byte} (h : fetchNext s = some (b, t)) :
    b = s.byteAt s.pc ∧ t = withPc s (s.pc + 1) := by
  unfold fetchNext at h
  obtain ⟨-, h⟩ := Option.ite_none_right_eq_some.1 h
  cases h
  exact ⟨rfl, rfl⟩

/-- Settles O45: the step has executed HLT, which the decoder reads from the one byte at the cursor. -/
theorem onlyTheHaltByteHalts : Obligations.OnlyTheHaltByteHalts := by
  unfold Obligations.OnlyTheHaltByteHalts
  intro s t _ hstep ht
  obtain ⟨p, hd, rfl⟩ := step_halted hstep ht
  obtain ⟨hnext, hmap, hrow⟩ := decodeFrom_hlt hd
  obtain ⟨hbyte, hcursor⟩ := fetchNext_read hnext
  obtain rfl : p = s.pc + 1 := congrArg State.pc hcursor
  exact ⟨hbyte.symm, hmap, hrow, rfl⟩

end Sys2Proof.Machine
end

section
/-! PROOFS for 70_reset_and_hazards.md, frames. An execution that completes changes registers and memory through the
instruction's destinations only (R286); one that stops changes neither, but for the SP that a PUSH or CALL has moved
before its stack write raises AddressRange (R200, R261). -/

namespace Sys2Proof.Machine

open Sys2Proof.Claims

/-- The states that an execution in `s` can lead to, with what it changes of registers and memory; `pushes` says that
the instruction pushes. -/
inductive ExecFrame (ds : List (Width × Desc)) (pushes : Prop) (s : State) : State → Prop where
  | completed {t : State} (only : OnlyThrough ds s t) (status : t.status = s.status) : ExecFrame ds pushes s t
  | stoppedInPlace (why : Fatal) : ExecFrame ds pushes s (raise why s)
  | stoppedAfterSp (hpush : pushes) (hsp : (.w16, .reg16 .sp) ∈ ds) :
      ExecFrame ds pushes s (stoppedBeyondTop (withSp s (s.regs.sp - 2)))

/-- The outcome is a next state, one of `ExecFrame`. -/
def Changes (ds : List (Width × Desc)) (pushes : Prop) (s : State) (r : Host.Outcome State Fault Refusal) : Prop :=
  ∃ t, r = .next t ∧ ExecFrame ds pushes s t

section
variable {s : State} {w : Width} {pushes : Prop}

theorem moveOp_changes {dst src : Desc} (hd : dst.hasWidth w) (hs : src.hasWidth w) (hw : dst.writable) :
    Changes [(w, dst)] pushes s (perform (moveOp w dst src) s) := by
  by_cases h : s.accessible w src ∧ s.accessible w dst
  · exact ⟨_, moveOp_ok hd hs hw h.1 h.2, .completed (putAt_only s w dst _) (putAt_status ..)⟩
  · exact ⟨_, moveOp_fault hs h, .stoppedInPlace beyondTop⟩

theorem arithOp_changes {kind : AluKind} {a b : Desc} {writeback : Bool} (ha : a.hasWidth w) (hb : b.hasWidth w)
    (hw : a.writable) :
    Changes (if writeback then [(w, a)] else []) pushes s (perform (arithOp kind w a a b writeback) s) := by
  by_cases h : s.accessible w a ∧ s.accessible w b
  · cases writeback with
    | true =>
      exact ⟨_, arithOp_ok ha hb hw h.1 h.2,
        .completed (onlyThrough_congr (putAt_only s w a _) rfl rfl) (putAt_status s w a _)⟩
    | false => exact ⟨_, compareOp_ok ha hb h.1 h.2, .completed (onlyThrough_nil rfl rfl) rfl⟩
  · exact ⟨_, arithOp_fault ha h, .stoppedInPlace beyondTop⟩

theorem exchangeOp_changes {x y : Desc} (hx : x.hasWidth w) (hy : y.hasWidth w) (hxw : x.writable) (hyw : y.writable)
    (hya : s.accessible w y) : Changes [(w, x), (w, y)] pushes s (perform (exchangeOp w x y) s) := by
  by_cases h : s.accessible w x
  · exact ⟨_, exchangeOp_ok hx hy hxw hyw h hya,
      .completed (onlyThrough_trans (putAt_only s w x _) (putAt_only _ w y _)) (by simp)⟩
  · exact ⟨_, exchangeOp_fault h, .stoppedInPlace beyondTop⟩

theorem push_changes (v : Word) (hpush : pushes) :
    Changes [(.w16, .reg16 .sp), (.w16, .mem (s.regs.sp - 2))] pushes s (perform (push v) s) := by
  by_cases h : s.accessible .w16 (.mem (s.regs.sp - 2))
  · exact ⟨_, perform_ok (push_ok v h), .completed (putAt_withSp_only s _ _ v) (by simp)⟩
  · exact ⟨_, perform_error (push_fault v h), .stoppedAfterSp hpush (by simp)⟩

theorem callOp_changes (d : Word) (hpush : pushes) :
    Changes [(.w16, .reg16 .sp), (.w16, .mem (s.regs.sp - 2))] pushes s (perform (callOp d) s) := by
  by_cases h : s.accessible .w16 (.mem (s.regs.sp - 2))
  · exact ⟨_, callOp_ok d h, .completed (onlyThrough_congr (putAt_withSp_only s _ _ s.pc) rfl rfl) (by simp)⟩
  · exact ⟨_, callOp_fault d h, .stoppedAfterSp hpush (by simp)⟩

theorem popOp_changes (r : Reg16) :
    Changes [(.w16, .reg16 .sp), (.w16, .reg16 r)] pushes s (perform (popOp r) s) := by
  by_cases h : s.accessible .w16 (.mem s.regs.sp)
  · exact ⟨_, popOp_ok r h, .completed (putAt_withSp_only s _ _ _) (by simp)⟩
  · exact ⟨_, popOp_fault r h, .stoppedInPlace beyondTop⟩

theorem retOp_changes : Changes [(.w16, .reg16 .sp)] pushes s (perform retOp s) := by
  by_cases h : s.accessible .w16 (.mem s.regs.sp)
  · exact ⟨_, retOp_ok h, .completed (onlyThrough_congr (withSp_only s _) rfl rfl) rfl⟩
  · exact ⟨_, retOp_fault h, .stoppedInPlace beyondTop⟩

theorem jumpBy_changes (d : Word) : Changes [] pushes s (perform (jumpBy d) s) :=
  ⟨_, jumpBy_ok s d, .completed (onlyThrough_nil rfl rfl) rfl⟩

theorem jumpIf_changes (cond : Flags → Bool) (d : Byte) : Changes [] pushes s (perform (jumpIf cond d) s) := by
  refine ⟨_, jumpIf_ok s cond d, ?_⟩
  by_cases h : cond s.flags = true
  · rw [if_pos h]; exact .completed (onlyThrough_nil rfl rfl) rfl
  · rw [if_neg h]; exact .completed (onlyThrough_nil rfl rfl) rfl

end

/-- Each instruction's operation changes what `destinations` lists for the instruction. -/
theorem exec_changes (i : Instr) (s : State) :
    Changes (destinations i s) (i.row = .pushR16 ∨ i.row = .callRel16) s (exec i s) := by
  cases i <;> unfold exec
  case movEbGb e _ | movEbIb e _ =>
    exact moveOp_changes (effective8_hasWidth e s) rfl (effective8_writable e s)
  case movEvGv e _ | movEvIv e _ =>
    exact moveOp_changes (effective16_hasWidth e s) rfl (effective16_writable e s)
  case movGbEb e g => exact moveOp_changes (dst := .reg8 g) rfl (effective8_hasWidth e s) trivial
  case movGvEv e g => exact moveOp_changes (dst := .reg16 g) rfl (effective16_hasWidth e s) trivial
  case movR8Ib r v => exact moveOp_changes (dst := .reg8 r) (src := .imm8 v) rfl rfl trivial
  case movR16Iv r v => exact moveOp_changes (dst := .reg16 r) (src := .imm16 v) rfl rfl trivial
  case addEbGb e _ | subEbGb e _ | cmpEbGb e _ | addEbIb e _ | subEbIb e _ | cmpEbIb e _ =>
    exact arithOp_changes (effective8_hasWidth e s) rfl (effective8_writable e s)
  case addEvGv e _ | subEvGv e _ | cmpEvGv e _ | addEvIv e _ | subEvIv e _ | cmpEvIv e _ =>
    exact arithOp_changes (effective16_hasWidth e s) rfl (effective16_writable e s)
  case addGbEb e g | subGbEb e g | cmpGbEb e g =>
    exact arithOp_changes (a := .reg8 g) rfl (effective8_hasWidth e s) trivial
  case addGvEv e g | subGvEv e g | cmpGvEv e g =>
    exact arithOp_changes (a := .reg16 g) rfl (effective16_hasWidth e s) trivial
  case addAlIb v | subAlIb v | cmpAlIb v =>
    exact arithOp_changes (a := .reg8 .al) (b := .imm8 v) rfl rfl trivial
  case addAxIv v | subAxIv v | cmpAxIv v =>
    exact arithOp_changes (a := .reg16 .ax) (b := .imm16 v) rfl rfl trivial
  case incR16 r | decR16 r => exact arithOp_changes (a := .reg16 r) (b := .imm16 1) rfl rfl trivial
  case xchgEbGb e g =>
    exact exchangeOp_changes (effective8_hasWidth e s) rfl (effective8_writable e s) trivial (accessible_reg8 s _ g)
  case xchgEvGv e g =>
    exact exchangeOp_changes (effective16_hasWidth e s) rfl (effective16_writable e s) trivial (accessible_reg16 s _ g)
  case xchgAxR16 r =>
    exact exchangeOp_changes (x := .reg16 .ax) (y := .reg16 r) rfl rfl trivial trivial (accessible_reg16 s _ r)
  case pushR16 r => exact push_changes (pushedValue r s) (.inl rfl)
  case popR16 r => exact popOp_changes r
  case jmpRel8 d => exact jumpBy_changes (sextByte d)
  case jmpRel16 d => exact jumpBy_changes d
  case joRel8 d | jnoRel8 d | jbRel8 d | jnbRel8 d | jzRel8 d | jnzRel8 d | jbeRel8 d | jaRel8 d | jsRel8 d
      | jnsRel8 d =>
    exact jumpIf_changes _ d
  case callRel16 d => exact callOp_changes d (.inr rfl)
  case ret => exact retOp_changes
  case nop => exact ⟨s, rfl, .completed (onlyThrough_refl [] s) rfl⟩
  case hlt => exact ⟨_, haltOp_ok s, .stoppedInPlace _⟩

theorem ExecFrame.onlyThrough {ds : List (Width × Desc)} {pushes : Prop} {s t : State} (h : ExecFrame ds pushes s t) :
    OnlyThrough ds s t := by
  cases h with
  | completed only _ => exact only
  | stoppedInPlace why => exact onlyThrough_congr (onlyThrough_refl ds s) rfl rfl
  | stoppedAfterSp _ hsp =>
    have honly : OnlyThrough ds s (withSp s (s.regs.sp - 2)) :=
      onlyThrough_mono (withSp_only s _) fun p hp => by rw [List.mem_singleton.1 hp]; exact hsp
    exact onlyThrough_congr honly rfl rfl

/-- Settles O51: a completed execution wrote its destinations only, and a stopped one at most SP, a destination of PUSH
and CALL. -/
theorem execChangesOnlyDestinations : Obligations.ExecChangesOnlyDestinations := by
  unfold Obligations.ExecChangesOnlyDestinations
  intro i s t h
  obtain ⟨t', ht', hframe⟩ := exec_changes i s
  cases h.symm.trans ht'
  exact hframe.onlyThrough

/-! ## Steps that stop -/

/-- What a stop keeps (R261): memory, flags and every register, or with `pushes` every register but SP, which is lowered
by 2 before AddressRange is raised. -/
structure StopKeeps (pushes : Prop) (why : Fatal) (s t : State) : Prop where
  mem : t.mem = s.mem
  flags : t.flags = s.flags
  regs : t.regs = s.regs ∨ (pushes ∧ why = beyondTop ∧ t.regs = s.regs.set16 .sp (s.regs.sp - 2))

theorem ExecFrame.stopKeeps {ds : List (Width × Desc)} {pushes : Prop} {s t : State} {why : Fatal}
    (h : ExecFrame ds pushes s t) (hs : s.status = .running) (ht : t.status = .stopped why) :
    StopKeeps pushes why s t := by
  cases h with
  | completed _ status => rw [status, hs] at ht; cases ht
  | stoppedInPlace why' => exact ⟨rfl, rfl, .inl rfl⟩
  | stoppedAfterSp hpush _ => cases ht; exact ⟨rfl, rfl, .inr ⟨hpush, rfl, rfl⟩⟩

/-- A step that stops keeps what a stop keeps, the instruction that pushes being the one decoded at the cursor. -/
theorem step_stopKeeps {s t : State} {why : Fatal} (h : step s = .next t) (ht : t.status = .stopped why) :
    StopKeeps (∃ i u, decodeFrom fetchNext s.cfg s = .ok i u ∧ (i.row = .pushR16 ∨ i.row = .callRel16)) why s t := by
  obtain ⟨hs, ⟨reject, p, -, rfl⟩ | ⟨i, p, u, hd, hx, rfl⟩⟩ := step_next h
  · exact ⟨rfl, rfl, .inl rfl⟩
  · obtain ⟨u', hu', hframe⟩ := exec_changes i (beginExecute (withPc s p))
    cases hx.symm.trans hu'
    rw [endExecute_status] at ht
    obtain ⟨hmem, hflags, hregs⟩ := hframe.stopKeeps hs ht
    refine ⟨(endExecute_mem u).trans hmem, (endExecute_flags u).trans hflags, ?_⟩
    rw [endExecute_regs]
    exact hregs.imp id fun ⟨hpush, hrest⟩ => ⟨⟨i, _, hd, hpush⟩, hrest⟩

/-- Settles O58: a rejection keeps every register, and so does an execution that stops, but for the SP of a push. -/
theorem fatalStepKeepsState : Obligations.FatalStepKeepsState := by
  unfold Obligations.FatalStepKeepsState
  intro s t why _ hstep ht
  obtain ⟨hmem, hflags, hregs | ⟨hpush, hwhy, hregs⟩⟩ := step_stopKeeps hstep ht
  · exact ⟨hmem, hflags, fun r _ => by rw [hregs], fun hsp => absurd (congrArg Regs.sp hregs) hsp⟩
  · refine ⟨hmem, hflags, fun r hr => ?_, fun _ => ⟨hwhy, congrArg Regs.sp hregs, hpush⟩⟩
    rw [hregs, get16_set16_other _ _ hr]

end Sys2Proof.Machine
end

section
/-! PROOFS for 70_reset_and_hazards.md, reset (R281, R282). -/

namespace Sys2Proof.Machine

/-- Settles O1: these are the values reset is defined with. -/
theorem resetIsRunningAtFetchOpcode : Obligations.ResetIsRunningAtFetchOpcode := by
  unfold Obligations.ResetIsRunningAtFetchOpcode
  exact ⟨rfl, rfl, rfl⟩

/-- Settles O2: the empty memory is canonical, and a running state has no stop to account for. -/
theorem resetMeetsInvariant : Obligations.ResetMeetsInvariant := by
  unfold Obligations.ResetMeetsInvariant
  exact ⟨wf_nil, fun _ => rfl, nofun⟩

end Sys2Proof.Machine
end
